-- ==== Sys2Proof/Word.lean ====
section
/-! DEFINITION. The word types of the block and their plainest reading (spec 00_scope R11, 30_encoding R90). -/

namespace Sys2Proof

/-- A byte of the flash array or of a host buffer (20_memory R60). -/
abbrev Byte := BitVec 8

/-- A register, bus or array word: every access is 32 bits (20_memory R65). -/
abbrev Word := BitVec 32

/-- A command word or a bus word: both formats are 72 bits (30_encoding R90). -/
abbrev FrameWord := BitVec 72

end Sys2Proof
end

