-- ==== Sys2Proof/Config.lean ====
section
/-! DEFINITION. The parameters of the block (spec 00_scope R6 to R10) and the free values the spec leaves open
(93_implementation_defined U9, U10). -/

namespace Sys2Proof

/-- `ENDIAN` (20_memory R63): the order of the four bytes of a word. -/
inductive Endian where
  | little
  | big
deriving DecidableEq, Repr

/-- `KEY_MISMATCH_POLICY` (40_lock_unlock R126). -/
inductive KeyMismatchPolicy where
  | lockout
  | restart
deriving DecidableEq, Repr

/-- The named parameters of 00_scope R6 to R9. `ARR0` is an argument of `State.resetOf` instead. -/
structure Config where
  /-- `NU`: bytes per native unit, the read and program grain (R6). -/
  nu : Nat
  /-- `PAGE_SIZE`: bytes per page, the erase grain (R6). -/
  pageSize : Nat
  /-- `PAGE_COUNT` (R6). -/
  pageCount : Nat
  /-- `ORIGIN`: the address of array offset 0 (R6). -/
  origin : Nat
  /-- `PNB_WIDTH`: bits of the page-number field (R6). -/
  pnbWidth : Nat
  /-- `KEY1` (R7). -/
  key1 : Word
  /-- `KEY2` (R7). -/
  key2 : Word
  /-- `REG_BASE` (R8). -/
  regBase : Nat
  /-- `CR_OFF` (R8). -/
  crOff : Nat
  /-- `SR_OFF` (R8). -/
  srOff : Nat
  /-- `KEYR_OFF` (R8). -/
  keyrOff : Nat
  /-- `LOCK_BIT` (R8). -/
  lockBit : Nat
  /-- `PG_BIT` (R8). -/
  pgBit : Nat
  /-- `PER_BIT` (R8). -/
  perBit : Nat
  /-- `MER1_BIT` (R8). -/
  mer1Bit : Nat
  /-- `PNB_LSB` (R8). -/
  pnbLsb : Nat
  /-- `START_BIT` (R8). -/
  startBit : Nat
  /-- `BSY_BIT` (R8). -/
  bsyBit : Nat
  /-- `PROGERR_BIT` (R8). -/
  progErrBit : Nat
  /-- `WRPERR_BIT` (R8). -/
  wrpErrBit : Nat
  /-- `ENDIAN` (R9). -/
  endian : Endian
  /-- `POLL_BUDGET` (R9); `none` is `INF`. -/
  pollBudget : Option Nat
  /-- `WP`: the write-protected page indices (R9). -/
  wp : List Nat
  /-- `KEY_MISMATCH_POLICY` (R9). -/
  keyMismatch : KeyMismatchPolicy
  /-- `EXT_RELOCK` (R9). -/
  extRelock : Bool
  /-- `FOP_FAIR` (R9); read by the default schedule only (log 4). -/
  fopFair : Bool
deriving DecidableEq, Repr

/-- `FLASH_BYTES = PAGE_COUNT * PAGE_SIZE` (R6). -/
abbrev Config.flashBytes (c : Config) : Nat := c.pageCount * c.pageSize

/-- The bit numbers of CR that carry a field, `PNB` one number a bit (R8). -/
abbrev Config.crBits (c : Config) : List Nat :=
  [c.lockBit, c.pgBit, c.perBit, c.mer1Bit, c.startBit] ++ (List.range c.pnbWidth).map (c.pnbLsb + ·)

/-- The bit numbers of SR that carry a field (R8). -/
abbrev Config.srBits (c : Config) : List Nat := [c.bsyBit, c.progErrBit, c.wrpErrBit]

/-- The constraints the spec puts on the parameters: 00_scope R6, R8, R9, R10 and, for `regs_apart`, 20_memory R62. Two
clauses are not the spec's words (log 18). DESIGN CHOICE: `regs_distinct`, that the three registers stand at three offsets,
on which R8 and R62 are silent. DEDUCED: that R8's "distinct" covers every bit of the PNB field and that every bit position
lies in its 32-bit register (`cr_nodup`, `cr_width`, `sr_width`). -/
structure Config.Valid (c : Config) : Prop where
  nu_pos : 0 < c.nu
  nu_words : c.nu % 4 = 0
  page_pos : 0 < c.pageSize
  page_units : c.pageSize % c.nu = 0
  origin_aligned : c.origin % c.pageSize = 0
  flash_fits : c.origin + c.flashBytes ≤ 2 ^ 32
  pnb_fits : c.pageCount ≤ 2 ^ c.pnbWidth
  cr_nodup : c.crBits.Nodup
  cr_width : ∀ b ∈ c.crBits, b < 32
  sr_nodup : c.srBits.Nodup
  sr_width : ∀ b ∈ c.srBits, b < 32
  budget_pos : c.pollBudget ≠ some 0
  wp_pages : ∀ p ∈ c.wp, p < c.pageCount
  regs_distinct : [c.crOff, c.srOff, c.keyrOff].Nodup
  regs_apart : ∀ r ∈ [c.crOff, c.srOff, c.keyrOff],
    c.regBase + r + 4 ≤ c.origin ∨ c.origin + c.flashBytes ≤ c.regBase + r

/-- The reference parameter set REF of 95_test_vectors section 0, with the register layout of
93_implementation_defined G2 to G4. PRESUMED: all but `NU`, `PAGE_SIZE` and the defaults of R9 are
from general knowledge of the STM32L4 family (log 1). -/
def Config.ref : Config where
  nu := 8
  pageSize := 2048
  pageCount := 256
  origin := 0x08000000
  pnbWidth := 8
  key1 := 0x45670123#32
  key2 := 0xCDEF89AB#32
  regBase := 0x40022000
  crOff := 0x14
  srOff := 0x10
  keyrOff := 0x08
  lockBit := 31
  pgBit := 0
  perBit := 1
  mer1Bit := 2
  pnbLsb := 3
  startBit := 16
  bsyBit := 16
  progErrBit := 3
  wrpErrBit := 4
  endian := .little
  pollBudget := none
  wp := []
  keyMismatch := .lockout
  extRelock := false
  fopFair := true

/-- The free value of 93 U9 and U10: the byte that draw number `d` leaves at array offset `o`, of which nothing is
known (log 8). -/
opaque Config.freeByte : Nat → Nat → Byte

end Sys2Proof
end

