-- ==== Sys2Proof/Syntax.lean ====
section
/-! DEFINITION. The instructions of the block: one constructor per row of spec/opcode_table.json, twelve commands
(30_encoding R93) and eleven bus transactions (R98). -/

namespace Sys2Proof

/-- The two formats that carry an instruction (30_encoding R90); RSP is a result, not an instruction. -/
inductive Format where
  | cmd
  | bus
deriving DecidableEq, Repr

/-- What stands beside the opcode in a command: the fields `A` and `N` and the payload (30_encoding R91). Every command
carries all three, since acceptance loads all three, whichever of them the command reads (R95). -/
structure CmdArgs where
  a : Word
  n : Word
  pay : List Byte
deriving DecidableEq, Repr

/-- A bus transaction carries its fields `X` and `V` (30_encoding R97); for `MOD_CR` the field `X` is the selector,
which the constructor says. -/
inductive Instr where
  | isLocked (c : CmdArgs)
  | unlock (c : CmdArgs)
  | lock (c : CmdArgs)
  | status (c : CmdArgs)
  | readNative (c : CmdArgs)
  | writeNative (c : CmdArgs)
  | read (c : CmdArgs)
  | write (c : CmdArgs)
  | erasePage (c : CmdArgs)
  | eraseAll (c : CmdArgs)
  | acquire (c : CmdArgs)
  | release (c : CmdArgs)
  | rdCr (x v : Word)
  | modCrLock (v : Word)
  | modCrPg (v : Word)
  | modCrPer (v : Word)
  | modCrMer1 (v : Word)
  | modCrPnb (v : Word)
  | modCrStart (v : Word)
  | rdSr (x v : Word)
  | wrKeyr (x v : Word)
  | ld32 (x v : Word)
  | st32 (x v : Word)
deriving DecidableEq, Repr

/-- The format an instruction is written in. -/
def Instr.format : Instr → Format
  | .isLocked _ | .unlock _ | .lock _ | .status _ | .readNative _ | .writeNative _
  | .read _ | .write _ | .erasePage _ | .eraseAll _ | .acquire _ | .release _ => .cmd
  | .rdCr _ _ | .modCrLock _ | .modCrPg _ | .modCrPer _ | .modCrMer1 _ | .modCrPnb _
  | .modCrStart _ | .rdSr _ _ | .wrKeyr _ _ | .ld32 _ _ | .st32 _ _ => .bus

/-- The payload that stands beside the word: a command's own, none for a bus transaction. -/
def Instr.payload : Instr → List Byte
  | .isLocked c | .unlock c | .lock c | .status c | .readNative c | .writeNative c
  | .read c | .write c | .erasePage c | .eraseAll c | .acquire c | .release c => c.pay
  | .rdCr _ _ | .modCrLock _ | .modCrPg _ | .modCrPer _ | .modCrMer1 _ | .modCrPnb _
  | .modCrStart _ | .rdSr _ _ | .wrKeyr _ _ | .ld32 _ _ | .st32 _ _ => []

end Sys2Proof
end

