-- ==== Sys2Proof/WellFormed.lean ====
section
/-! DEFINITION. Which instruction terms the textual syntax of 30_encoding R100 and the table of R98 can write: an operand
field the instruction does not use is 0, a payload stands only where one is taken, the length of a WRITE is its list's
length, and a one-bit field is written with 0 or 1. The decoder and the machine accept more (R95: an unused field is ignored
whatever it holds); no statement about what an instruction does assumes these checks. -/

namespace Sys2Proof

/-- A command that uses neither `A` nor `N` and takes no payload. -/
def CmdArgs.noOperands (c : CmdArgs) : Bool := c.a == 0#32 && c.n == 0#32 && c.pay.isEmpty

/-- A command that uses `A` alone. -/
def CmdArgs.addressOnly (c : CmdArgs) : Bool := c.n == 0#32 && c.pay.isEmpty

/-- A command that uses `A` and a payload of fixed length. -/
def CmdArgs.addressAndPayload (c : CmdArgs) : Bool := c.n == 0#32 && !c.pay.isEmpty

/-- A command that uses `A` and `N`. -/
def CmdArgs.addressAndLength (c : CmdArgs) : Bool := c.pay.isEmpty

/-- A command whose length field is its payload's length. -/
def CmdArgs.lengthOfPayload (c : CmdArgs) : Bool := c.n.toNat == c.pay.length

/-- The value of a one-bit field. -/
def oneBit (v : Word) : Bool := v == 0#32 || v == 1#32

/-- The well-formed terms. -/
def Instr.wellFormed : Instr → Bool
  | .isLocked c | .unlock c | .lock c | .status c | .eraseAll c | .acquire c | .release c => c.noOperands
  | .readNative c | .erasePage c => c.addressOnly
  | .writeNative c => c.addressAndPayload
  | .read c => c.addressAndLength
  | .write c => c.lengthOfPayload
  | .rdCr x v | .rdSr x v => x == 0#32 && v == 0#32
  | .modCrLock v | .modCrPg v | .modCrPer v | .modCrMer1 v | .modCrStart v => oneBit v
  | .modCrPnb _ => true
  | .wrKeyr x _ => x == 0#32
  | .ld32 x v => x.toNat % 4 == 0 && v == 0#32
  | .st32 x _ => x.toNat % 4 == 0

end Sys2Proof
end

