-- ==== Sys2Proof/Decode.lean ====
section
/-! DEFINITION. The decoder and the encoder of the two formats (spec 30_encoding R91, R93, R94, R97 to R99, R102), the
textual syntax of R100 and the table word the host asks about. -/

namespace Sys2Proof

/-- Why a word is no instruction, by name. -/
inductive DecodeError where
  /-- `op` is 0x00 or in 0x0D to 0xFF (R94). -/
  | reservedOpcode (op : BitVec 8)
  /-- `T` is 0x00 or in 0x07 to 0xFF (R99). -/
  | reservedTransaction (t : BitVec 8)
  /-- `T` is 0x02 and the selector `X` is above 5 (R99). -/
  | reservedSelector (x : Word)
deriving DecidableEq, Repr

/-- The top field of a word, `op` of a CMD word or `T` of a BUS word: bits 71:64 (R91, R97). -/
def fieldOp (w : FrameWord) : BitVec 8 := w.extractLsb' 64 8

/-- `A` of a CMD word or `X` of a BUS word: bits 63:32 (R91, R97). -/
def fieldA (w : FrameWord) : Word := w.extractLsb' 32 32

/-- `N` of a CMD word or `V` of a BUS word: bits 31:0 (R91, R97). -/
def fieldN (w : FrameWord) : Word := w.extractLsb' 0 32

/-- The command word of opcode `op` (R91). -/
def frame (op : BitVec 8) (a n : Word) : FrameWord := op ++ a ++ n

/-- The operands beside the opcode of a command word. -/
def argsOf (w : FrameWord) (pay : List Byte) : CmdArgs := { a := fieldA w, n := fieldN w, pay := pay }

/-- The command a CMD word and the payload beside it stand for: `op` alone selects it (R93, R102). -/
def decodeCmd (w : FrameWord) (pay : List Byte) : Except DecodeError Instr :=
  match (fieldOp w).toNat with
  | 0x01 => .ok (.isLocked (argsOf w pay))
  | 0x02 => .ok (.unlock (argsOf w pay))
  | 0x03 => .ok (.lock (argsOf w pay))
  | 0x04 => .ok (.status (argsOf w pay))
  | 0x05 => .ok (.readNative (argsOf w pay))
  | 0x06 => .ok (.writeNative (argsOf w pay))
  | 0x07 => .ok (.read (argsOf w pay))
  | 0x08 => .ok (.write (argsOf w pay))
  | 0x09 => .ok (.erasePage (argsOf w pay))
  | 0x0A => .ok (.eraseAll (argsOf w pay))
  | 0x0B => .ok (.acquire (argsOf w pay))
  | 0x0C => .ok (.release (argsOf w pay))
  | _ => .error (.reservedOpcode (fieldOp w))

/-- The `MOD_CR` row a selector names (R98). -/
def decodeSelector (x v : Word) : Except DecodeError Instr :=
  match x.toNat with
  | 0 => .ok (.modCrLock v)
  | 1 => .ok (.modCrPg v)
  | 2 => .ok (.modCrPer v)
  | 3 => .ok (.modCrMer1 v)
  | 4 => .ok (.modCrPnb v)
  | 5 => .ok (.modCrStart v)
  | _ => .error (.reservedSelector x)

/-- The bus transaction a BUS word stands for: `T` selects it and, for `T = 0x02`, `X` the field (R98, R102). -/
def decodeBus (w : FrameWord) : Except DecodeError Instr :=
  match (fieldOp w).toNat with
  | 0x01 => .ok (.rdCr (fieldA w) (fieldN w))
  | 0x02 => decodeSelector (fieldA w) (fieldN w)
  | 0x03 => .ok (.rdSr (fieldA w) (fieldN w))
  | 0x04 => .ok (.wrKeyr (fieldA w) (fieldN w))
  | 0x05 => .ok (.ld32 (fieldA w) (fieldN w))
  | 0x06 => .ok (.st32 (fieldA w) (fieldN w))
  | _ => .error (.reservedTransaction (fieldOp w))

/-- The decoder, total on every word of either format; the payload is read for a command only. -/
def decode (f : Format) (w : FrameWord) (pay : List Byte) : Except DecodeError Instr :=
  match f with
  | .cmd => decodeCmd w pay
  | .bus => decodeBus w

/-- `op` of a command or `T` of a transaction (R93, R98). -/
def Instr.code : Instr → BitVec 8
  | .isLocked _ => 0x01#8
  | .unlock _ => 0x02#8
  | .lock _ => 0x03#8
  | .status _ => 0x04#8
  | .readNative _ => 0x05#8
  | .writeNative _ => 0x06#8
  | .read _ => 0x07#8
  | .write _ => 0x08#8
  | .erasePage _ => 0x09#8
  | .eraseAll _ => 0x0A#8
  | .acquire _ => 0x0B#8
  | .release _ => 0x0C#8
  | .rdCr _ _ => 0x01#8
  | .modCrLock _ | .modCrPg _ | .modCrPer _ | .modCrMer1 _ | .modCrPnb _ | .modCrStart _ => 0x02#8
  | .rdSr _ _ => 0x03#8
  | .wrKeyr _ _ => 0x04#8
  | .ld32 _ _ => 0x05#8
  | .st32 _ _ => 0x06#8

/-- The word of an instruction: `op << 64 | A << 32 | N` or `T << 64 | X << 32 | V` (R91, R97, R98). -/
def encode (i : Instr) : FrameWord :=
  match i with
  | .isLocked c | .unlock c | .lock c | .status c | .readNative c | .writeNative c
  | .read c | .write c | .erasePage c | .eraseAll c | .acquire c | .release c => frame i.code c.a c.n
  | .modCrLock v => frame i.code 0#32 v
  | .modCrPg v => frame i.code 1#32 v
  | .modCrPer v => frame i.code 2#32 v
  | .modCrMer1 v => frame i.code 3#32 v
  | .modCrPnb v => frame i.code 4#32 v
  | .modCrStart v => frame i.code 5#32 v
  | .rdCr x v | .rdSr x v | .wrKeyr x v | .ld32 x v | .st32 x v => frame i.code x v

/-- The mask of an instruction's row in spec/opcode_table.json. -/
def Instr.tableMask : Instr → FrameWord
  | .modCrLock _ | .modCrPg _ | .modCrPer _ | .modCrMer1 _ | .modCrPnb _ | .modCrStart _ =>
    0xFFFFFFFFFF00000000#72
  | .isLocked _ | .unlock _ | .lock _ | .status _ | .readNative _ | .writeNative _
  | .read _ | .write _ | .erasePage _ | .eraseAll _ | .acquire _ | .release _
  | .rdCr _ _ | .rdSr _ _ | .wrKeyr _ _ | .ld32 _ _ | .st32 _ _ => 0xFF0000000000000000#72

/-- The match of an instruction's row in spec/opcode_table.json. -/
def Instr.tableMatch : Instr → FrameWord
  | .isLocked _ => 0x010000000000000000#72
  | .unlock _ => 0x020000000000000000#72
  | .lock _ => 0x030000000000000000#72
  | .status _ => 0x040000000000000000#72
  | .readNative _ => 0x050000000000000000#72
  | .writeNative _ => 0x060000000000000000#72
  | .read _ => 0x070000000000000000#72
  | .write _ => 0x080000000000000000#72
  | .erasePage _ => 0x090000000000000000#72
  | .eraseAll _ => 0x0A0000000000000000#72
  | .acquire _ => 0x0B0000000000000000#72
  | .release _ => 0x0C0000000000000000#72
  | .rdCr _ _ => 0x010000000000000000#72
  | .modCrLock _ => 0x020000000000000000#72
  | .modCrPg _ => 0x020000000100000000#72
  | .modCrPer _ => 0x020000000200000000#72
  | .modCrMer1 _ => 0x020000000300000000#72
  | .modCrPnb _ => 0x020000000400000000#72
  | .modCrStart _ => 0x020000000500000000#72
  | .rdSr _ _ => 0x030000000000000000#72
  | .wrKeyr _ _ => 0x040000000000000000#72
  | .ld32 _ _ => 0x050000000000000000#72
  | .st32 _ _ => 0x060000000000000000#72

/-- The mnemonic of an instruction's row. -/
def Instr.mnemonic : Instr → String
  | .isLocked _ => "IS_LOCKED"
  | .unlock _ => "UNLOCK"
  | .lock _ => "LOCK"
  | .status _ => "STATUS"
  | .readNative _ => "READ_NATIVE"
  | .writeNative _ => "WRITE_NATIVE"
  | .read _ => "READ"
  | .write _ => "WRITE"
  | .erasePage _ => "ERASE_PAGE"
  | .eraseAll _ => "ERASE_ALL"
  | .acquire _ => "ACQUIRE"
  | .release _ => "RELEASE"
  | .rdCr _ _ => "RD_CR"
  | .modCrLock _ => "MOD_CR.LOCK"
  | .modCrPg _ => "MOD_CR.PG"
  | .modCrPer _ => "MOD_CR.PER"
  | .modCrMer1 _ => "MOD_CR.MER1"
  | .modCrPnb _ => "MOD_CR.PNB"
  | .modCrStart _ => "MOD_CR.START"
  | .rdSr _ _ => "RD_SR"
  | .wrKeyr _ _ => "WR_KEYR"
  | .ld32 _ _ => "LD32"
  | .st32 _ _ => "ST32"

/-- A byte list in brackets in ascending address order (R100). -/
def bytesText (bs : List Byte) : String :=
  "[" ++ String.intercalate ", " (bs.map fun b => toString b.toNat) ++ "]"

/-- The textual form of an instruction (R100): the mnemonic and the operands it reads, numbers in decimal; `MOD_CR` with its
field first, as R98 writes it. -/
def Instr.text (i : Instr) : String :=
  match i with
  | .isLocked _ | .unlock _ | .lock _ | .status _ | .eraseAll _ | .acquire _ | .release _ => i.mnemonic
  | .readNative c | .erasePage c => i.mnemonic ++ " " ++ toString c.a.toNat
  | .read c => i.mnemonic ++ " " ++ toString c.a.toNat ++ ", " ++ toString c.n.toNat
  | .writeNative c | .write c => i.mnemonic ++ " " ++ toString c.a.toNat ++ ", " ++ bytesText c.pay
  | .rdCr _ _ | .rdSr _ _ => i.mnemonic ++ "()"
  | .modCrLock v => "MOD_CR(LOCK, " ++ toString v.toNat ++ ")"
  | .modCrPg v => "MOD_CR(PG, " ++ toString v.toNat ++ ")"
  | .modCrPer v => "MOD_CR(PER, " ++ toString v.toNat ++ ")"
  | .modCrMer1 v => "MOD_CR(MER1, " ++ toString v.toNat ++ ")"
  | .modCrPnb v => "MOD_CR(PNB, " ++ toString v.toNat ++ ")"
  | .modCrStart v => "MOD_CR(START, " ++ toString v.toNat ++ ")"
  | .wrKeyr _ v => i.mnemonic ++ "(" ++ toString v.toNat ++ ")"
  | .ld32 x _ => i.mnemonic ++ "(" ++ toString x.toNat ++ ")"
  | .st32 x v => i.mnemonic ++ "(" ++ toString x.toNat ++ ", " ++ toString v.toNat ++ ")"

/-- The payload beside a table word, all of it zero bits: `N` bytes for WRITE, `nu` bytes for WRITE_NATIVE, none for the
others (R92, log 10). -/
def tablePayload (nu : Nat) (w : FrameWord) : List Byte :=
  match (fieldOp w).toNat with
  | 0x06 => List.replicate nu 0#8
  | 0x08 => List.replicate (fieldN w).toNat 0#8
  | _ => []

/-- The 72-bit word of a table row's bits: bits above `nbits` are zero. -/
def tableWord (nbits w : Nat) : FrameWord := BitVec.ofNat 72 (w % 2 ^ nbits)

/-- The instruction the decoder reads from a table word. A word given to the block from outside can only arrive at the
command port (20_memory R75, 30_encoding R97), so it is read as a CMD word; BUS words share their bits with CMD words
(log 10). -/
def decodeTableWord (nbits w : Nat) : Option Instr :=
  (decode .cmd (tableWord nbits w) (tablePayload Config.ref.nu (tableWord nbits w))).toOption

end Sys2Proof
end

