-- ==== Sys2Proof/Machine/State.lean ====
section
/-! DEFINITION. The state of the block as plain data: the register layer and the engine layer of 10_state R20, and the
model's own fields (log 1, 4, 5, 6, 8). -/

namespace Sys2Proof.Machine

/-- `kstate`, the key checker's progress (10_state R35). -/
inductive KState where
  | idle
  | half
  | dead
deriving DecidableEq, Repr

/-- An operation FOP has yet to complete (10_state R37); `None` is the `none` of `Regs.inflight`. -/
inductive Operation where
  /-- `Prog(o, W)`: program the words `ws` at array offset `o`. -/
  | prog (o : Nat) (ws : List Word)
  /-- `ErasePage(p)`. -/
  | erasePage (p : Nat)
  /-- `EraseAll`. -/
  | eraseAll
deriving DecidableEq, Repr

/-- The flash array as (offset, byte) pairs (10_state R38): offsets strictly rising, no entry equal to what an unlisted
offset reads as. -/
abbrev Memory := List Host.Cell

/-- The register layer of 10_state R20. -/
structure Regs where
  /-- `CR.LOCK` (R22). -/
  lock : Bool
  /-- `CR.PG` (R23). -/
  pg : Bool
  /-- `CR.PER` (R24). -/
  per : Bool
  /-- `CR.MER1` (R25). -/
  mer1 : Bool
  /-- `CR.PNB` (R26), in the low `PNB_WIDTH` bits. -/
  pnb : Word
  /-- `SR.BSY` (R30). -/
  bsy : Bool
  /-- `SR.PROGERR` (R31). -/
  progErr : Bool
  /-- `SR.WRPERR` (R32). -/
  wrpErr : Bool
  /-- `kstate` (R35). -/
  kstate : KState
  /-- `wcnt`: words of the current unit already stored (R36). -/
  wcnt : Nat
  /-- `wbase`: array offset of that unit (R36). -/
  wbase : Nat
  /-- `wbuf`: the stored words (R36). -/
  wbuf : List Word
  /-- `inflight` (R37). -/
  inflight : Option Operation
  /-- `ARR` (R38). -/
  arr : Memory
deriving DecidableEq, Repr

/-- `phase`: the engine's position, one label per step of the command rules (10_state R40). -/
inductive Phase where
  | idle | aborted
  | il0
  | ul0 | ul1 | ul2
  | lk0
  | st0
  | aq0 | aq1 | aq2 | aq3
  | rl0
  | rn0
  | wn0 | wn1 | wn2 | wn3 | wn4 | wn5
  | rd0
  | wr0
  | ep0 | ep1 | ep2 | ep3 | ep4 | ep5 | ep6
  | ea0 | ea1 | ea2 | ea3 | ea4 | ea5
  | ab0
deriving DecidableEq, Repr

/-- `guard` (10_state R41). -/
inductive Guard where
  | none
  | held (shouldRelock : Bool)
deriving DecidableEq, Repr

/-- The document's FlashError (00_scope R13). -/
inductive FlashError where
  | unlockFailed
  | timeout
  | programmingError
  | writeProtectionError
  | busy
deriving DecidableEq, Repr

/-- A command's outcome (00_scope R13); `okData` is `Ok(data)` with the data in `OUT`. -/
inductive Response where
  | ok
  | okBit (b : Bool)
  | okData
  | err (e : FlashError)
  | abort
deriving DecidableEq, Repr

/-- The engine layer of 10_state R20. -/
structure Engine where
  /-- `phase` (R40). -/
  phase : Phase
  /-- `op` (R39). -/
  op : BitVec 8
  /-- `A` (R39). -/
  a : Word
  /-- `N` (R39). -/
  n : Word
  /-- `PAY` (R39). -/
  pay : List Byte
  /-- `i`: stride counter (R39). -/
  i : Nat
  /-- `j`: word counter (R39). -/
  j : Nat
  /-- `guard` (R41). -/
  guard : Guard
  /-- `polls` (R42). -/
  polls : Nat
  /-- `OUT` (R39). -/
  out : List Byte
  /-- `RSP` (R43), the word of 30_encoding R96. -/
  rsp : BitVec 8
  /-- `carry` (R44). -/
  carry : Response
deriving DecidableEq, Repr

/-- What the last bus transaction answered (30_encoding R97; the model's own field, log 6). -/
inductive BusReply where
  /-- No transaction has been issued since the last acceptance, or the last step issued none. -/
  | none
  /-- It completed and returns nothing. -/
  | done
  /-- It completed and returns the word `RET`. -/
  | data (ret : Word)
  /-- It has not completed and may later: a load while BSY is 1 (43_native_access R160). -/
  | waiting
  /-- It never completes: a key write while LOCK is 0 (40_lock_unlock R123, log 7). -/
  | stalled
deriving DecidableEq, Repr

/-- A command as HOST presents it: the CMD word and the payload beside it (30_encoding R91). -/
structure HostCmd where
  word : FrameWord
  pay : List Byte
deriving DecidableEq, Repr

/-- Who steps next (00_scope R5): HOST, ENG, FOP, or one of ENV's two moves. -/
inductive Agent where
  | host
  | eng
  | fop
  | reset
  | extRelock
deriving DecidableEq, Repr

/-- The state of the block. -/
structure State where
  /-- The parameters of the machine, which no step changes (log 1). -/
  cfg : Config
  /-- The register layer (10_state R20). -/
  regs : Regs
  /-- The engine layer (10_state R20). -/
  eng : Engine
  /-- The answer of the last bus transaction (log 6). -/
  reply : BusReply
  /-- The commands HOST has yet to present, the next one first (log 5). -/
  cmds : List HostCmd
  /-- Whose turn it is, the next one first; the default schedule of log 4 where it is empty. -/
  sched : List Agent
  /-- How often a free value has been drawn (log 8). -/
  draws : Nat
deriving DecidableEq, Repr

/-- Why the machine stops although every agent's step has a meaning. -/
inductive Fault where
  /-- Raised by a turn of HOST or ENG in phase `ABORTED`, which the spec makes terminal and tells a model to treat as a fault
  (60_exceptions R238, log 9). Safe: the machine stops where the block takes no step either. -/
  | aborted
deriving DecidableEq, Repr

/-- Why a transaction has no meaning: the entries of 93_implementation_defined that a model refuses, and `notModelled`.
Each is safe: the model stops where the spec gives no effect. -/
inductive Refusal where
  /-- Raised by `exec` alone, for an instruction that has no meaning yet. -/
  | notModelled (mnemonic : String)
  /-- U2, raised by `ST32`: unlocked and `PG = 0`, or `PER = 1`, or `MER1 = 1`. -/
  | storeNotEnabled
  /-- U3, raised by `ST32`: not the next word of the unit, or another unit. -/
  | storeOutOfOrder
  /-- U4, raised by `ST32` while `BSY = 1`. -/
  | storeWhileBusy
  /-- U5, raised by `MOD_CR` of PG, PER, MER1 or PNB while `BSY = 1`. -/
  | controlWhileBusy
  /-- U6, raised by `MOD_CR(START, 1)`: unlocked and neither or both of PER and MER1 set, or PG set. -/
  | startNotArmed
  /-- U7, raised by `MOD_CR(START, 1)` while `BSY = 1`. -/
  | startWhileBusy
  /-- U8, raised by `MOD_CR(START, 1)`: PER set and `PNB >= PAGE_COUNT`. -/
  | startPageOutOfRange
  /-- U3 and U11, raised by `LD32` and `ST32` at an address that is not 4-aligned or not in range, and by an engine step whose
  effective address does not fit in 32 bits. -/
  | busAddress
  /-- U17, raised by a BUS word that is no transaction. -/
  | reservedTransaction
deriving DecidableEq, Repr

/-- The state after `Reset` with parameters `c` and array contents `arr` (10_state R46). The registers R46 leaves
unspecified (`wbase`, `wbuf`, `op`, `A`, `N`, `PAY`, `i`, `j`, `OUT`, `RSP`, `carry`) hold zero. DESIGN CHOICE (log 2). -/
def State.resetOf (c : Config) (arr : Memory) : State where
  cfg := c
  regs :=
    { lock := true, pg := false, per := false, mer1 := false, pnb := 0#32
      bsy := false, progErr := false, wrpErr := false
      kstate := .idle, wcnt := 0, wbase := 0, wbuf := List.replicate (c.nu / 4) 0#32
      inflight := none, arr := arr }
  eng :=
    { phase := .idle, op := 0#8, a := 0#32, n := 0#32, pay := [], i := 0, j := 0
      guard := .none, polls := 0, out := [], rsp := 0#8, carry := .ok }
  reply := .none
  cmds := []
  sched := []
  draws := 0

/-- The machine right after the first reset: the reference parameters (log 1), and an array of which nothing is listed, so
that every byte reads as erased. DESIGN CHOICE (log 3): the spec's `ARR0` is arbitrary, and claims about it quantify over
`State.resetOf`'s argument. -/
def State.reset : State := State.resetOf Config.ref []

end Sys2Proof.Machine
end

