-- ==== Sys2Proof/Machine/Operands.lean ====
section
/-! DEFINITION. The operand forms: byte order, flash addresses, the engine's effective address and payload words, the values
of the one-bit and page-number fields, and the contract checks (spec 20_memory R61, R63, R67, R74; 44_buffered_access R190). -/

namespace Sys2Proof.Machine

/-- `word(b0, b1, b2, b3)`: four bytes in ascending address order as a word (20_memory R63). -/
def wordOf (e : Endian) (b0 b1 b2 b3 : Byte) : Word :=
  match e with
  | .little => b3 ++ b2 ++ b1 ++ b0
  | .big => b0 ++ b1 ++ b2 ++ b3

/-- `bytes(w)`: the inverse of `wordOf` (20_memory R63). -/
def bytesOf (e : Endian) (w : Word) : List Byte :=
  match e with
  | .little => [w.extractLsb' 0 8, w.extractLsb' 8 8, w.extractLsb' 16 8, w.extractLsb' 24 8]
  | .big => [w.extractLsb' 24 8, w.extractLsb' 16 8, w.extractLsb' 8 8, w.extractLsb' 0 8]

/-- `V[0]`, the value written to a one-bit field (30_encoding R98). -/
def fieldBit (v : Word) : Bool := v.getLsbD 0

/-- `V[PNB_WIDTH-1:0]`, the value written to `PNB` (30_encoding R98). -/
def pnbField (c : Config) (v : Word) : Word := BitVec.ofNat 32 (v.toNat % 2 ^ c.pnbWidth)

/-- The word a one-bit field is written with. -/
def bitWord (b : Bool) : Word := if b then 1#32 else 0#32

/-- The array offset of a flash address, `o = a - ORIGIN` (20_memory R61). -/
def offsetOf (c : Config) (a : Word) : Nat := a.toNat - c.origin

/-- `page(a)` of the address at array offset `o` (20_memory R61). -/
def pageOf (c : Config) (o : Nat) : Nat := o / c.pageSize

/-- The base address of page `p` (20_memory R61). -/
def pageBase (c : Config) (p : Nat) : Nat := c.origin + p * c.pageSize

/-- `u = o - (o mod NU)`: the offset of the unit that holds offset `o` (43_native_access). -/
def unitOf (c : Config) (o : Nat) : Nat := o - o % c.nu

/-- `k = (o mod NU) / 4`: the index of the word at offset `o` inside its unit (43_native_access). -/
def wordIndex (c : Config) (o : Nat) : Nat := (o % c.nu) / 4

/-- The number of words in a unit, `NU / 4`. -/
abbrev unitWords (c : Config) : Nat := c.nu / 4

/-- The range `[a, a + len)` lies in the flash space; the sum does not wrap (20_memory R67). -/
def inFlash (c : Config) (a : Word) (len : Nat) : Bool :=
  decide (c.origin ≤ a.toNat) && decide (a.toNat + len ≤ c.origin + c.flashBytes)

/-- An address a 32-bit array access may carry: 4-aligned and in range (20_memory R64, R67). -/
def busAddressOk (c : Config) (a : Word) : Bool := decide (a.toNat % 4 = 0) && inFlash c a 4

/-- K3's condition and the negation of K2's: some guard is held. -/
def Guard.isHeld (g : Guard) : Bool :=
  match g with
  | .none => false
  | .held _ => true

/-- K4: the address is a multiple of `NU` (44_buffered_access R190). -/
def addressAligned (c : Config) (a : Word) : Bool := decide (a.toNat % c.nu = 0)

/-- K5: the length is a multiple of `NU` (44_buffered_access R190). -/
def lengthAligned (c : Config) (n : Word) : Bool := decide (n.toNat % c.nu = 0)

/-- K6: the payload has `len` bytes (44_buffered_access R190). -/
def payloadLength (pay : List Byte) (len : Nat) : Bool := decide (pay.length = len)

/-- K8: the page index is below `PAGE_COUNT` (44_buffered_access R190). -/
def pageInRange (c : Config) (a : Word) : Bool := decide (a.toNat < c.pageCount)

/-- The stride count `N / NU` (10_state R49). -/
def strides (s : State) : Nat := s.eng.n.toNat / s.cfg.nu

/-- The effective address `A + i*NU + 4*j`, a natural number (10_state R49, 00_scope R11). -/
def effectiveAddress (s : State) : Nat := s.eng.a.toNat + s.eng.i * s.cfg.nu + 4 * s.eng.j

/-- The effective address of READ_NATIVE, `A + 4*j` (43_native_access R167). -/
def nativeAddress (s : State) : Nat := s.eng.a.toNat + 4 * s.eng.j

/-- `W[j] = word(PAY[i*NU+4j], ..., PAY[i*NU+4j+3])` (20_memory R74, 43_native_access R168). Check K6 makes every index one
of the payload; a byte past its end, which no accepted command reaches, counts as 0 (log 13). -/
def payloadWord (s : State) : Word :=
  let b := fun k => s.eng.pay.getD (s.eng.i * s.cfg.nu + 4 * s.eng.j + k) 0#8
  wordOf s.cfg.endian (b 0) (b 1) (b 2) (b 3)

/-- The command a HostCmd of an instruction is: what HOST sends to have it run. -/
def presentation (i : Instr) : HostCmd := { word := encode i, pay := i.payload }

/-- `WITH_UNLOCKED { body }`: ACQUIRE, the body, RELEASE (30_encoding R101). -/
def withUnlocked (body : List HostCmd) : List HostCmd :=
  [presentation (.acquire ⟨0#32, 0#32, []⟩)] ++ body ++ [presentation (.release ⟨0#32, 0#32, []⟩)]

end Sys2Proof.Machine
end

