-- ==== Sys2Proof/Machine/Flags.lean ====
section
/-! DEFINITION. The CR and SR words and every reading of a flag: the status decoder, the residual check, the response word
(spec 10_state R21 to R33, 30_encoding R96, R98, 41_status R141, 43_native_access R169). -/

namespace Sys2Proof.Machine

/-- A one-bit field at bit `pos`, every other bit 0. -/
def bitAt (b : Bool) (pos : Nat) : Word := if b then 1#32 <<< pos else 0#32

/-- The CR word: the stored fields at their bit positions, `START` and every other bit 0 (40_lock_unlock R120). -/
def crWord (c : Config) (r : Regs) : Word :=
  bitAt r.lock c.lockBit ||| bitAt r.pg c.pgBit ||| bitAt r.per c.perBit ||| bitAt r.mer1 c.mer1Bit
    ||| (r.pnb <<< c.pnbLsb)

/-- The SR word: `BSY`, `PROGERR`, `WRPERR` at their bit positions, every other bit 0 (41_status R140). -/
def srWord (c : Config) (r : Regs) : Word :=
  bitAt r.bsy c.bsyBit ||| bitAt r.progErr c.progErrBit ||| bitAt r.wrpErr c.wrpErrBit

/-- `c.LOCK` of a CR word. -/
def crLock (c : Config) (w : Word) : Bool := w.getLsbD c.lockBit

/-- `s.BSY` of an SR word. -/
def srBsy (c : Config) (w : Word) : Bool := w.getLsbD c.bsyBit

/-- `s.PROGERR` of an SR word. -/
def srProgErr (c : Config) (w : Word) : Bool := w.getLsbD c.progErrBit

/-- `s.WRPERR` of an SR word. -/
def srWrpErr (c : Config) (w : Word) : Bool := w.getLsbD c.wrpErrBit

/-- `decode(s)` on the three fields: Busy, then ProgrammingError, then WriteProtectionError, else Ok (41_status R141). -/
def decodeFlags (bsy progErr wrpErr : Bool) : Response :=
  if bsy then .err .busy
  else if progErr then .err .programmingError
  else if wrpErr then .err .writeProtectionError
  else .ok

/-- `decode(s)` on an SR word. -/
def decodeStatus (c : Config) (w : Word) : Response := decodeFlags (srBsy c w) (srProgErr c w) (srWrpErr c w)

/-- The residual check of `WN5`: any of the three fields is 1 (43_native_access R168, R169). -/
def residualFlags (c : Config) (w : Word) : Bool := srBsy c w || srProgErr c w || srWrpErr c w

/-- What `WN5` answers. -/
def residualResult (c : Config) (w : Word) : Response :=
  if residualFlags c w then .err .programmingError else .ok

/-- The code of an error (30_encoding R96). -/
def errorCode (e : FlashError) : BitVec 8 :=
  match e with
  | .unlockFailed => 0x01#8
  | .timeout => 0x02#8
  | .programmingError => 0x03#8
  | .writeProtectionError => 0x04#8
  | .busy => 0x05#8

/-- The RSP word: `code` in bits 3:0, `bit` in bit 4, bits 7:5 zero (30_encoding R96). -/
def rspWord (r : Response) : BitVec 8 :=
  match r with
  | .ok => 0x00#8
  | .okBit b => if b then 0x10#8 else 0x00#8
  | .okData => 0x00#8
  | .err e => errorCode e
  | .abort => 0x0F#8

end Sys2Proof.Machine
end

