-- ==== Sys2Proof/Machine/Ops.lean ====
section
/-! DEFINITION. The named operations every meaning is written over: the flash array, the bus reply, the key checker, the write
buffer, starting an operation, the command port, responding, and the abort sequence with the only way out of it, `Reset`. -/

namespace Sys2Proof.Machine

/-- The outcome of a step. -/
abbrev Res := Host.Outcome State Fault Refusal

/-! ### The flash array -/

/-- `ERASED_BYTE` (00_scope R6), and what an unlisted offset reads as (log 3). -/
def erasedByte : Byte := 0xFF#8

/-- The byte at an offset. -/
def Memory.read : Memory → Nat → Byte
  | [], _ => erasedByte
  | cell :: m, o => if cell.1 = o then cell.2 else Memory.read m o

/-- One byte written, in canonical form: an erased byte is not listed. -/
def Memory.write : Memory → Nat → Byte → Memory
  | [], o, b => if b = erasedByte then [] else [(o, b)]
  | cell :: m, o, b =>
    if o < cell.1 then (if b = erasedByte then cell :: m else (o, b) :: cell :: m)
    else if o = cell.1 then (if b = erasedByte then m else (o, b) :: m)
    else cell :: Memory.write m o b

/-- Bytes written at ascending offsets from `o`. -/
def Memory.writeBytes : Memory → Nat → List Byte → Memory
  | m, _, [] => m
  | m, o, b :: bs => Memory.writeBytes (Memory.write m o b) (o + 1) bs

/-- `ARR[o .. o+len)`. -/
def Memory.readBytes (m : Memory) (o len : Nat) : List Byte := (List.range len).map fun k => Memory.read m (o + k)

/-- `ARR[o .. o+len) <- 0xFF`. -/
def Memory.erase (m : Memory) (o len : Nat) : Memory :=
  m.filter fun cell => !(decide (o ≤ cell.1) && decide (cell.1 < o + len))

/-- `ARR[o .. o+len) <-` any bytes: the free values of draw number `d` (93 U9, U10, log 8). -/
def Memory.scramble (m : Memory) (d o len : Nat) : Memory :=
  Memory.writeBytes m o ((List.range len).map fun k => Config.freeByte d (o + k))

/-- The canonical form: offsets strictly rising, no erased byte listed. -/
def Memory.wf : Memory → Bool
  | [] => true
  | cell :: m => decide (cell.2 ≠ erasedByte) && m.all (fun other => decide (cell.1 < other.1)) && Memory.wf m

/-- `word(ARR[o], ARR[o+1], ARR[o+2], ARR[o+3])` (43_native_access R160). -/
def loadWord (c : Config) (m : Memory) (o : Nat) : Word :=
  wordOf c.endian (Memory.read m o) (Memory.read m (o + 1)) (Memory.read m (o + 2)) (Memory.read m (o + 3))

/-- Every byte of the unit at offset `o` is erased (43_native_access R165). -/
def unitErased (c : Config) (m : Memory) (o : Nat) : Bool :=
  (Memory.readBytes m o c.nu).all fun b => decide (b = erasedByte)

/-- The bytes of a unit's `NU/4` words in ascending address order: `bytes(W[0]) ++ bytes(W[1]) ++ ...`
(43_native_access R165); a word missing from the list, which no operation in flight lacks, counts as 0 (log 13). -/
def unitBytes (c : Config) (ws : List Word) : List Byte :=
  (List.range (unitWords c)).flatMap fun k => bytesOf c.endian (ws.getD k 0#32)

/-! ### The bus -/

/-- A transaction completed and returns nothing. -/
def completed (s : State) : State := { s with reply := .done }

/-- A transaction completed and returns the word `w` as `RET` (30_encoding R97). -/
def returned (w : Word) (s : State) : State := { s with reply := .data w }

/-- A transaction that does not complete now and may later (43_native_access R160). -/
def waits (s : State) : State := { s with reply := .waiting }

/-- A transaction that never completes (40_lock_unlock R123). -/
def stalls (s : State) : State := { s with reply := .stalled }

/-- The register layer replaced. -/
def withRegs (r : Regs) (s : State) : State := { s with regs := r }

/-- A transaction that writes the register layer and completes. -/
def wrote (r : Regs) (s : State) : State := completed (withRegs r s)

/-- `RET` of the last transaction; a reply that carries no word reads as 0 and no step uses it then. -/
def BusReply.ret (b : BusReply) : Word :=
  match b with
  | .data w => w
  | .none | .done | .waiting | .stalled => 0#32

/-- The transaction has not completed, so its issuer stays where it is (10_state R40). -/
def BusReply.pending (b : BusReply) : Bool :=
  match b with
  | .waiting | .stalled => true
  | .none | .done | .data _ => false

/-! ### The register layer -/

/-- `CR.LOCK <- 1` and a half-entered key sequence forgotten (40_lock_unlock R121, R131). -/
def relock (r : Regs) : Regs :=
  { r with lock := true, kstate := match r.kstate with | .half => .idle | .idle => .idle | .dead => .dead }

/-- `kstate` after a wrong key value (40_lock_unlock R126). -/
def mismatchState (c : Config) : KState :=
  match c.keyMismatch with
  | .lockout => .dead
  | .restart => .idle

/-- The key checker on a key write while `CR.LOCK = 1` (40_lock_unlock R124 to R127). -/
def keyWrite (c : Config) (v : Word) (r : Regs) : Regs :=
  match r.kstate with
  | .idle => if v = c.key1 then { r with kstate := .half } else { r with kstate := mismatchState c }
  | .half => if v = c.key2 then { r with lock := false, kstate := .idle } else { r with kstate := mismatchState c }
  | .dead => r

/-- An operation started: `inflight <- f; SR.BSY <- 1` (43_native_access R163, 45_erase R203, R204). -/
def startOperation (f : Operation) (r : Regs) : Regs := { r with inflight := some f, bsy := true }

/-- A word accepted by the write buffer: `wbuf[k] <- v; if wcnt = 0 then wbase <- u` (43_native_access R162, R163). -/
def bufferWord (u k : Nat) (v : Word) (r : Regs) : Regs :=
  { r with wbuf := r.wbuf.set k v, wbase := if r.wcnt = 0 then u else r.wbase }

/-- The last word of a unit accepted: the operation starts and the buffer empties (43_native_access R163). -/
def startProgram (c : Config) (r : Regs) : Regs :=
  { startOperation (.prog r.wbase (r.wbuf.take (unitWords c))) r with wcnt := 0 }

/-! ### The command port and the engine's registers -/

/-- The engine moved to a phase. -/
def goto (p : Phase) (s : State) : State := { s with eng := { s.eng with phase := p } }

/-- The guard register written. -/
def setGuard (g : Guard) (s : State) : State := { s with eng := { s.eng with guard := g } }

/-- `respond(r)`: `RSP <- r; phase <- IDLE` (10_state R43). -/
def respond (r : Response) (s : State) : State := { s with eng := { s.eng with rsp := rspWord r, phase := .idle } }

/-- The registers acceptance loads and clears (30_encoding R91). -/
def loadCommand (op : BitVec 8) (c : CmdArgs) (s : State) : State :=
  { s with
    reply := .none
    eng := { s.eng with op := op, a := c.a, n := c.n, pay := c.pay, i := 0, j := 0, polls := 0, out := [] } }

/-! ### Taking the abort (the block's trap entry), and the way out

The spec's trap is in two steps (60_exceptions R236 to R238). The acceptance step that finds a contract violation sets
`carry <- Abort; phase <- AB0`; the step `AB0` re-locks if the guard asks for it (one bus transaction, issued by the engine)
and then ends the engine in `ABORTED`. There is no return: only `Reset` leaves `ABORTED`. -/

/-- A contract violation found at acceptance: `carry <- Abort; phase <- AB0` (30_encoding R91). -/
def contractViolation (s : State) : State := { s with eng := { s.eng with carry := .abort, phase := .ab0 } }

/-- The end of the abort sequence: `guard <- None; RSP <- Abort; phase <- ABORTED` (60_exceptions R237). -/
def endAbort (s : State) : State :=
  { s with eng := { s.eng with guard := .none, rsp := rspWord .abort, phase := .aborted } }

/-- The offsets an operation cut short by `Reset` leaves unspecified, as a first offset and a length (70_reset R261). -/
def lostRange (c : Config) (f : Operation) : Nat × Nat :=
  match f with
  | .prog o _ => (o, c.nu)
  | .erasePage p => (p * c.pageSize, c.pageSize)
  | .eraseAll => (0, c.flashBytes)

/-- `ARR` after a `Reset` (70_reset R261): kept, but for the target of an operation in flight, which is unspecified (U10). -/
def arrAfterReset (s : State) : Memory :=
  match s.regs.inflight with
  | none => s.regs.arr
  | some f => Memory.scramble s.regs.arr s.draws (lostRange s.cfg f).1 (lostRange s.cfg f).2

/-- `Reset` (70_reset R260): every register at its value of 10_state R46. What HOST has yet to present and the schedule are
not the block's and stay. -/
def resetMove (s : State) : State :=
  { State.resetOf s.cfg (arrAfterReset s) with
    cmds := s.cmds, sched := s.sched, draws := s.draws + (if s.regs.inflight.isSome then 1 else 0) }

/-- The command port (30_encoding R91): in `IDLE` the command is loaded and its contract checks decide between its first
step and the abort sequence; while a command runs the port blocks and nothing changes; in `ABORTED` no command is ever
accepted (60_exceptions R238). -/
def present (op : BitVec 8) (c : CmdArgs) (pass : Bool) (first : Phase) (s : State) : Res :=
  match s.eng.phase with
  | .idle =>
    if pass then .next (goto first (loadCommand op c s)) else .next (contractViolation (loadCommand op c s))
  | .aborted => .fault .aborted
  | _ => .next s

end Sys2Proof.Machine
end

