-- ==== Sys2Proof/Machine/Buffered.lean ====
section
/-! DEFINITION. The buffered family (spec 44_buffered_access): READ, WRITE. -/

namespace Sys2Proof.Machine

/-- READ (R191): checks K4, K5 and K7; the engine's step is `RD0`, once a word and once at the end. -/
def execRead (c : CmdArgs) (s : State) : Res :=
  present 0x07#8 c (addressAligned s.cfg c.a && lengthAligned s.cfg c.n && inFlash s.cfg c.a c.n.toNat) .rd0 s

/-- WRITE (R192): checks K3, K4, K5, K6 and K7; the engine's steps are `WR0` and, for each stride, `WN0` to `WN5`. -/
def execWrite (c : CmdArgs) (s : State) : Res :=
  present 0x08#8 c
    (s.eng.guard.isHeld && addressAligned s.cfg c.a && lengthAligned s.cfg c.n && inFlash s.cfg c.a c.n.toNat
      && payloadLength c.pay c.n.toNat)
    .wr0 s

end Sys2Proof.Machine
end

