-- ==== Sys2Proof/Machine/Erase.lean ====
section
/-! DEFINITION. The erase family (spec 45_erase): MOD_CR of PER, MER1, PNB and START; ERASE_PAGE, ERASE_ALL. -/

namespace Sys2Proof.Machine

/-- A control field written, which is refused while BSY is 1 (93 U5; 45_erase R200 to R202). -/
def writeControl (r : Regs) (s : State) : Res :=
  if s.regs.bsy then .refused .controlWhileBusy else .next (wrote r s)

/-- `MOD_CR(PER, v)` (R200). -/
def execModCrPer (v : Word) (s : State) : Res := writeControl { s.regs with per := fieldBit v } s

/-- `MOD_CR(MER1, v)` (R201). -/
def execModCrMer1 (v : Word) (s : State) : Res := writeControl { s.regs with mer1 := fieldBit v } s

/-- `MOD_CR(PNB, v)` (R202). -/
def execModCrPnb (v : Word) (s : State) : Res := writeControl { s.regs with pnb := pnbField s.cfg v } s

/-- `MOD_CR(START, v)`: 0 does nothing (R207); 1 starts what PER or MER1 arms (R203, R204), sets WRPERR when locked (R205),
and is refused in any other condition (R206; 93 U6, U7, U8). -/
def execModCrStart (v : Word) (s : State) : Res :=
  if !fieldBit v then .next (completed s)
  else if s.regs.bsy then .refused .startWhileBusy
  else if s.regs.lock then .next (wrote { s.regs with wrpErr := true } s)
  else if s.regs.per && !s.regs.mer1 && !s.regs.pg then
    if pageInRange s.cfg s.regs.pnb then .next (wrote (startOperation (.erasePage s.regs.pnb.toNat) s.regs) s)
    else .refused .startPageOutOfRange
  else if s.regs.mer1 && !s.regs.per && !s.regs.pg then .next (wrote (startOperation .eraseAll s.regs) s)
  else .refused .startNotArmed

/-- ERASE_PAGE (R210): checks K3 and K8; the engine's steps are `EP0` to `EP6`. -/
def execErasePage (c : CmdArgs) (s : State) : Res :=
  present 0x09#8 c (s.eng.guard.isHeld && pageInRange s.cfg c.a) .ep0 s

/-- ERASE_ALL (R211): check K3; the engine's steps are `EA0` to `EA5`. -/
def execEraseAll (c : CmdArgs) (s : State) : Res := present 0x0A#8 c s.eng.guard.isHeld .ea0 s

end Sys2Proof.Machine
end

