-- ==== Sys2Proof/Machine/Lock.lean ====
section
/-! DEFINITION. The lock family (spec 40_lock_unlock): RD_CR, MOD_CR(LOCK, v), WR_KEYR; IS_LOCKED, UNLOCK, LOCK. -/

namespace Sys2Proof.Machine

/-- `RD_CR()` (R120). -/
def execRdCr (_x _v : Word) (s : State) : Res := .next (returned (crWord s.cfg s.regs) s)

/-- `MOD_CR(LOCK, v)`: 1 locks (R121), 0 does nothing (R122). While BSY is 1 the lock takes effect and the operation goes on
(93 U14, log 12). -/
def execModCrLock (v : Word) (s : State) : Res :=
  if fieldBit v then .next (wrote (relock s.regs) s) else .next (completed s)

/-- `WR_KEYR(v)`: unlocked it never completes (R123, log 7), locked it is the key checker's (R124 to R127). -/
def execWrKeyr (_x v : Word) (s : State) : Res :=
  if s.regs.lock then .next (wrote (keyWrite s.cfg v s.regs) s) else .next (stalls s)

/-- IS_LOCKED (R128): no contract check; the engine's step is `IL0`. -/
def execIsLocked (c : CmdArgs) (s : State) : Res := present 0x01#8 c true .il0 s

/-- UNLOCK (R129): no contract check; the engine's steps are `UL0` to `UL2`. -/
def execUnlock (c : CmdArgs) (s : State) : Res := present 0x02#8 c true .ul0 s

/-- LOCK (R130): no contract check; the engine's step is `LK0`. -/
def execLock (c : CmdArgs) (s : State) : Res := present 0x03#8 c true .lk0 s

end Sys2Proof.Machine
end

