-- ==== Sys2Proof/Machine/Native.lean ====
section
/-! DEFINITION. The native family (spec 43_native_access): LD32, ST32, MOD_CR(PG, v); READ_NATIVE, WRITE_NATIVE. -/

namespace Sys2Proof.Machine

/-- `LD32(a)` (R160): refused off a word of the array (93 U11); waits while BSY is 1; else returns the word. -/
def execLd32 (x _v : Word) (s : State) : Res :=
  if busAddressOk s.cfg x then
    if s.regs.bsy then .next (waits s) else .next (returned (loadWord s.cfg s.regs.arr (offsetOf s.cfg x)) s)
  else .refused .busAddress

/-- The word at offset `o` is the next one of the write buffer's unit (R161): `k = wcnt` and (`wcnt = 0` or `u = wbase`). -/
def storeInOrder (c : Config) (r : Regs) (o : Nat) : Bool :=
  decide (wordIndex c o = r.wcnt) && (decide (r.wcnt = 0) || decide (unitOf c o = r.wbase))

/-- A store that the write buffer accepts: not the last word of its unit (R162), or the last (R163). -/
def acceptStore (c : Config) (o : Nat) (v : Word) (r : Regs) : Regs :=
  if wordIndex c o + 1 = unitWords c then startProgram c (bufferWord (unitOf c o) (wordIndex c o) v r)
  else { bufferWord (unitOf c o) (wordIndex c o) v r with wcnt := r.wcnt + 1 }

/-- `ST32(a, v)` (R161): which of the rules applies. -/
def execSt32 (x v : Word) (s : State) : Res :=
  if !busAddressOk s.cfg x then .refused .busAddress
  else if s.regs.bsy then .refused .storeWhileBusy
  else if s.regs.lock then .next (wrote { s.regs with wrpErr := true } s)
  else if !s.regs.pg || s.regs.per || s.regs.mer1 then .refused .storeNotEnabled
  else if storeInOrder s.cfg s.regs (offsetOf s.cfg x) then
    .next (wrote (acceptStore s.cfg (offsetOf s.cfg x) v s.regs) s)
  else .refused .storeOutOfOrder

/-- `MOD_CR(PG, v)` (R166): clearing PG empties the write buffer; refused while BSY is 1 (93 U5). -/
def execModCrPg (v : Word) (s : State) : Res :=
  if s.regs.bsy then .refused .controlWhileBusy
  else .next (wrote { s.regs with pg := fieldBit v, wcnt := if fieldBit v then s.regs.wcnt else 0 } s)

/-- READ_NATIVE (R167): checks K4 and K7; the engine's step is `RN0`, once a word. -/
def execReadNative (c : CmdArgs) (s : State) : Res :=
  present 0x05#8 c (addressAligned s.cfg c.a && inFlash s.cfg c.a s.cfg.nu) .rn0 s

/-- WRITE_NATIVE (R168): checks K3, K4, K6 and K7; the engine's steps are `WN0` to `WN5`. -/
def execWriteNative (c : CmdArgs) (s : State) : Res :=
  present 0x06#8 c
    (s.eng.guard.isHeld && addressAligned s.cfg c.a && inFlash s.cfg c.a s.cfg.nu && payloadLength c.pay s.cfg.nu)
    .wn0 s

end Sys2Proof.Machine
end

