-- ==== Sys2Proof/Machine/ScopedGuard.lean ====
section
/-! DEFINITION. The guard family (spec 42_guard): ACQUIRE, RELEASE. -/

namespace Sys2Proof.Machine

/-- ACQUIRE (R151): check K2, no guard is held; the engine's steps are `AQ0` to `AQ3`. -/
def execAcquire (c : CmdArgs) (s : State) : Res := present 0x0B#8 c (!s.eng.guard.isHeld) .aq0 s

/-- RELEASE (R152): check K3, a guard is held; the engine's step is `RL0`. -/
def execRelease (c : CmdArgs) (s : State) : Res := present 0x0C#8 c s.eng.guard.isHeld .rl0 s

end Sys2Proof.Machine
end

