-- ==== Sys2Proof/Machine/Status.lean ====
section
/-! DEFINITION. The status family (spec 41_status): RD_SR; STATUS. -/

namespace Sys2Proof.Machine

/-- `RD_SR()` (R140). -/
def execRdSr (_x _v : Word) (s : State) : Res := .next (returned (srWord s.cfg s.regs) s)

/-- STATUS (R142): no contract check; the engine's step is `ST0`. -/
def execStatus (c : CmdArgs) (s : State) : Res := present 0x04#8 c true .st0 s

end Sys2Proof.Machine
end

