-- ==== Sys2Proof/Machine/Dispatch.lean ====
section
/-! DEFINITION. One arm per instruction. -/

namespace Sys2Proof.Machine

def exec (i : Instr) (s : State) : Host.Outcome State Fault Refusal :=
  match i with
  | .isLocked c => Sys2Proof.Machine.execIsLocked c s
  | .unlock c => Sys2Proof.Machine.execUnlock c s
  | .lock c => Sys2Proof.Machine.execLock c s
  | .status c => Sys2Proof.Machine.execStatus c s
  | .readNative c => Sys2Proof.Machine.execReadNative c s
  | .writeNative c => Sys2Proof.Machine.execWriteNative c s
  | .read c => Sys2Proof.Machine.execRead c s
  | .write c => Sys2Proof.Machine.execWrite c s
  | .erasePage c => Sys2Proof.Machine.execErasePage c s
  | .eraseAll c => Sys2Proof.Machine.execEraseAll c s
  | .acquire c => Sys2Proof.Machine.execAcquire c s
  | .release c => Sys2Proof.Machine.execRelease c s
  | .rdCr x v => Sys2Proof.Machine.execRdCr x v s
  | .modCrLock v => Sys2Proof.Machine.execModCrLock v s
  | .modCrPg v => Sys2Proof.Machine.execModCrPg v s
  | .modCrPer v => Sys2Proof.Machine.execModCrPer v s
  | .modCrMer1 v => Sys2Proof.Machine.execModCrMer1 v s
  | .modCrPnb v => Sys2Proof.Machine.execModCrPnb v s
  | .modCrStart v => Sys2Proof.Machine.execModCrStart v s
  | .rdSr x v => Sys2Proof.Machine.execRdSr x v s
  | .wrKeyr x v => Sys2Proof.Machine.execWrKeyr x v s
  | .ld32 x v => Sys2Proof.Machine.execLd32 x v s
  | .st32 x v => Sys2Proof.Machine.execSt32 x v s

end Sys2Proof.Machine
end

