-- ==== Sys2Proof/Machine/Sequencer.lean ====
section
/-! DEFINITION. ENG, the protocol engine: the transaction of each phase, what the engine does with its answer, and the next
phase (spec 10_state R40, R48, and the step lists of the command rules). -/

namespace Sys2Proof.Machine

/-- The transaction RELEASE and the abort sequence issue: `MOD_CR(LOCK, 1)` if the guard asks for the re-lock, else none
(42_guard R152, 60_exceptions R237). -/
def relockTransaction (g : Guard) : Option Instr :=
  match g with
  | .held true => some (.modCrLock (bitWord true))
  | .held false => none
  | .none => none

/-- The bus transaction of the engine's next step, `none` where the step issues none (10_state R48, second column). An
address that fits in 32 bits stands in the word as it is; `engStep` refuses one that does not. -/
def transaction (s : State) : Option Instr :=
  match s.eng.phase with
  | .idle | .aborted => none
  | .il0 => some (.rdCr 0#32 0#32)
  | .ul0 => some (.rdCr 0#32 0#32)
  | .ul1 => some (.wrKeyr 0#32 s.cfg.key1)
  | .ul2 => some (.wrKeyr 0#32 s.cfg.key2)
  | .lk0 => some (.modCrLock (bitWord true))
  | .st0 => some (.rdSr 0#32 0#32)
  | .aq0 => some (.rdCr 0#32 0#32)
  | .aq1 => some (.rdCr 0#32 0#32)
  | .aq2 => some (.wrKeyr 0#32 s.cfg.key1)
  | .aq3 => some (.wrKeyr 0#32 s.cfg.key2)
  | .rl0 => relockTransaction s.eng.guard
  | .rn0 => some (.ld32 (BitVec.ofNat 32 (nativeAddress s)) 0#32)
  | .wn0 => some (.rdSr 0#32 0#32)
  | .wn1 => some (.modCrPg (bitWord true))
  | .wn2 => some (.st32 (BitVec.ofNat 32 (effectiveAddress s)) (payloadWord s))
  | .wn3 => some (.rdSr 0#32 0#32)
  | .wn4 => some (.modCrPg (bitWord false))
  | .wn5 => some (.rdSr 0#32 0#32)
  | .rd0 => if s.eng.i = strides s then none else some (.ld32 (BitVec.ofNat 32 (effectiveAddress s)) 0#32)
  | .wr0 => none
  | .ep0 => some (.rdSr 0#32 0#32)
  | .ep1 => some (.modCrPer (bitWord true))
  | .ep2 => some (.modCrPnb s.eng.a)
  | .ep3 => some (.modCrStart (bitWord true))
  | .ep4 => some (.rdSr 0#32 0#32)
  | .ep5 => some (.modCrPer (bitWord false))
  | .ep6 => some (.rdSr 0#32 0#32)
  | .ea0 => some (.rdSr 0#32 0#32)
  | .ea1 => some (.modCrMer1 (bitWord true))
  | .ea2 => some (.modCrStart (bitWord true))
  | .ea3 => some (.rdSr 0#32 0#32)
  | .ea4 => some (.modCrMer1 (bitWord false))
  | .ea5 => some (.rdSr 0#32 0#32)
  | .ab0 => relockTransaction s.eng.guard

/-- The effective address of the engine's next step fits in 32 bits. Every address of an accepted command does (10_state
R49); in a state no run reaches where one does not, nothing wraps and the step is refused (log 13). -/
def addressFits (s : State) : Bool :=
  match s.eng.phase with
  | .rn0 => decide (nativeAddress s < 2 ^ 32)
  | .wn2 => decide (effectiveAddress s < 2 ^ 32)
  | .rd0 => decide (s.eng.i = strides s) || decide (effectiveAddress s < 2 ^ 32)
  | _ => true

/-- A word read from the array appended to `OUT`, and the word counter advanced (43_native_access R167). -/
def takeWord (w : Word) (s : State) : State :=
  { s with eng := { s.eng with out := s.eng.out ++ bytesOf s.cfg.endian w, j := s.eng.j + 1 } }

/-- The word counter written. -/
def setJ (j : Nat) (s : State) : State := { s with eng := { s.eng with j := j } }

/-- The stride counter written. -/
def setI (i : Nat) (s : State) : State := { s with eng := { s.eng with i := i } }

/-- The poll counter written. -/
def setPolls (k : Nat) (s : State) : State := { s with eng := { s.eng with polls := k } }

/-- `carry` written (10_state R44). -/
def setCarry (r : Response) (s : State) : State := { s with eng := { s.eng with carry := r } }

/-- The opcode of WRITE, by which the engine tells it from WRITE_NATIVE (10_state R48). -/
def writeOpcode : BitVec 8 := 0x08#8

/-- `finish(r)` of the native write sequence: WRITE_NATIVE responds; WRITE carries the result out of the stride, goes on to
the next stride after `Ok` and responds to an error (43_native_access R168, 44_buffered_access R192). -/
def finishWrite (r : Response) (s : State) : State :=
  if s.eng.op = writeOpcode then
    if r = .ok then goto .wr0 (setI (s.eng.i + 1) (setCarry r s)) else respond r (setCarry r s)
  else respond r s

/-- PRECHECK (41_status R143): on to `next` if the decoder says Ok, else `finish` with what it says. -/
def precheck (finish : Response → State → State) (next : Phase) (s : State) : State :=
  if decodeStatus s.cfg s.reply.ret = .ok then goto next s else finish (decodeStatus s.cfg s.reply.ret) s

/-- POLL (41_status R144): on to `next` once BSY reads 0; else count the read, and `finish(Err(Timeout))` when a finite budget
is spent. -/
def poll (finish : Response → State → State) (next : Phase) (s : State) : State :=
  if srBsy s.cfg s.reply.ret then
    if s.cfg.pollBudget = some (s.eng.polls + 1) then finish (.err .timeout) (setPolls (s.eng.polls + 1) s)
    else setPolls (s.eng.polls + 1) s
  else goto next s

/-- `UL0` and `AQ1`: on to the key writes if LOCK reads 1, else `Ok` (40_lock_unlock R129, 42_guard R151). -/
def unlockIfLocked (next : Phase) (s : State) : State :=
  if crLock s.cfg s.reply.ret then goto next s else respond .ok s

/-- `AQ0`: the guard records the lock bit just read (42_guard R151). -/
def takeGuard (s : State) : State :=
  unlockIfLocked .aq1 (setGuard (.held (crLock s.cfg s.reply.ret)) s)

/-- `RN0`: one word of a native read (43_native_access R167). -/
def readNativeWord (s : State) : State :=
  if s.eng.j + 1 = unitWords s.cfg then respond .okData (takeWord s.reply.ret s) else takeWord s.reply.ret s

/-- `RD0` (44_buffered_access R191). -/
def readStep (s : State) : State :=
  if s.eng.i = strides s then respond .okData s
  else if s.eng.j + 1 = unitWords s.cfg then setI (s.eng.i + 1) (setJ 0 (takeWord s.reply.ret s))
  else takeWord s.reply.ret s

/-- `WR0` (44_buffered_access R192). -/
def strideStep (s : State) : State := if s.eng.i = strides s then respond .ok s else goto .wn0 s

/-- `WN2`: the word counter advanced; after the unit's last word, POLL (43_native_access R168). -/
def storedWord (s : State) : State :=
  if s.eng.j + 1 = unitWords s.cfg then goto .wn3 (setPolls 0 (setJ (s.eng.j + 1) s)) else setJ (s.eng.j + 1) s

/-- What the engine does once the transaction of its step has completed (10_state R48, third column). -/
def afterTransaction (s : State) : State :=
  match s.eng.phase with
  | .idle | .aborted => s
  | .il0 => respond (.okBit (crLock s.cfg s.reply.ret)) s
  | .ul0 => unlockIfLocked .ul1 s
  | .ul1 => goto .ul2 s
  | .ul2 => respond .ok s
  | .lk0 => respond .ok s
  | .st0 => respond (decodeStatus s.cfg s.reply.ret) s
  | .aq0 => takeGuard s
  | .aq1 => unlockIfLocked .aq2 s
  | .aq2 => goto .aq3 s
  | .aq3 => respond .ok s
  | .rl0 => respond .ok (setGuard .none s)
  | .rn0 => readNativeWord s
  | .wn0 => precheck finishWrite .wn1 s
  | .wn1 => goto .wn2 (setJ 0 s)
  | .wn2 => storedWord s
  | .wn3 => poll finishWrite .wn4 s
  | .wn4 => goto .wn5 s
  | .wn5 => finishWrite (residualResult s.cfg s.reply.ret) s
  | .rd0 => readStep s
  | .wr0 => strideStep s
  | .ep0 => precheck respond .ep1 s
  | .ep1 => goto .ep2 s
  | .ep2 => goto .ep3 s
  | .ep3 => goto .ep4 (setPolls 0 s)
  | .ep4 => poll respond .ep5 s
  | .ep5 => goto .ep6 s
  | .ep6 => respond (decodeStatus s.cfg s.reply.ret) s
  | .ea0 => precheck respond .ea1 s
  | .ea1 => goto .ea2 s
  | .ea2 => goto .ea3 (setPolls 0 s)
  | .ea3 => poll respond .ea4 s
  | .ea4 => goto .ea5 s
  | .ea5 => respond (decodeStatus s.cfg s.reply.ret) s
  | .ab0 => endAbort s

/-- A BUS word reaching the register layer: decoded and run, or refused where it is no transaction (30_encoding R99). -/
def busWord (w : FrameWord) (s : State) : Res :=
  match decode .bus w [] with
  | .ok i => exec i s
  | .error _ => .refused .reservedTransaction

/-- The engine's part of its step: it stays in its phase while the transaction is pending (10_state R40). -/
def advance (s : State) : State := if s.reply.pending then s else afterTransaction s

/-- The step of ENG (10_state R40): issue the phase's transaction, then advance. A stalled key write is never completed
(40_lock_unlock R123): until `Reset` the engine has no step. In `IDLE` it has none either; in `ABORTED` its turn is a fault
(60_exceptions R238). -/
def engStep (s : State) : Res :=
  match s.eng.phase with
  | .idle => .next s
  | .aborted => .fault .aborted
  | _ =>
    if s.reply = .stalled then .next s
    else if addressFits s then
      match transaction s with
      | none => .next (advance { s with reply := .none })
      | some i =>
        match busWord (encode i) s with
        | .next t => .next (advance t)
        | .fault r => .fault r
        | .refused r => .refused r
    else .refused .busAddress

end Sys2Proof.Machine
end

