-- ==== Sys2Proof/Machine/Agents.lean ====
section
/-! DEFINITION. HOST, FOP and ENV, whose turn it is, and placing a command at the port (spec 00_scope R5, 30_encoding R91,
43_native_access R165, 45_erase R208, R209, 40_lock_unlock R131, 70_reset R260). -/

namespace Sys2Proof.Machine

/-! ### HOST -/

/-- A command word reaching the port in `IDLE`: the command it decodes to runs; a reserved opcode is a contract violation
(30_encoding R91, R94). -/
def acceptWord (c : HostCmd) (s : State) : Res :=
  match decode .cmd c.word c.pay with
  | .ok i => exec i s
  | .error _ => present (fieldOp c.word) (argsOf c.word c.pay) false .ab0 s

/-- The step of HOST (30_encoding R91): in `IDLE` the next command is presented; while a command runs the port blocks and the
turn passes; in `ABORTED` HOST has no move ever again (60_exceptions R238). -/
def hostStep (s : State) : Res :=
  match s.eng.phase with
  | .idle =>
    match s.cmds with
    | [] => .next s
    | c :: rest => acceptWord c { s with cmds := rest }
  | .aborted => .fault .aborted
  | _ => .next s

/-! ### FOP -/

/-- The operation is over: `SR.BSY <- 0; inflight <- None`. -/
def endOperation (r : Regs) : Regs := { r with bsy := false, inflight := none }

/-- Completion of a programming operation (43_native_access R165): a protected page first, then a unit that is not erased,
whose bytes become unspecified (93 U9), else the words are committed. -/
def completeProg (c : Config) (draw o : Nat) (ws : List Word) (r : Regs) : Regs :=
  if pageOf c o ∈ c.wp then { r with wrpErr := true }
  else if unitErased c r.arr o then { r with arr := Memory.writeBytes r.arr o (unitBytes c ws) }
  else { r with progErr := true, arr := Memory.scramble r.arr draw o c.nu }

/-- Completion of a page erase (45_erase R208). -/
def completeErasePage (c : Config) (p : Nat) (r : Regs) : Regs :=
  if p ∈ c.wp then { r with wrpErr := true }
  else { r with arr := Memory.erase r.arr (p * c.pageSize) c.pageSize }

/-- Completion of a mass erase (45_erase R209). -/
def completeEraseAll (c : Config) (r : Regs) : Regs :=
  if c.wp = [] then { r with arr := Memory.erase r.arr 0 c.flashBytes } else { r with wrpErr := true }

/-- The operation completed, whichever it is. -/
def complete (c : Config) (draw : Nat) (f : Operation) (r : Regs) : Regs :=
  endOperation
    (match f with
    | .prog o ws => completeProg c draw o ws r
    | .erasePage p => completeErasePage c p r
    | .eraseAll => completeEraseAll c r)

/-- The step of FOP, enabled when an operation is in flight; else the turn passes. -/
def fopStep (s : State) : State :=
  match s.regs.inflight with
  | none => s
  | some f => { withRegs (complete s.cfg s.draws f s.regs) s with draws := s.draws + 1 }

/-! ### ENV -/

/-- `ExtRelock` (40_lock_unlock R131): a move only where `EXT_RELOCK` is true; else the turn passes. -/
def extRelockMove (s : State) : State := if s.cfg.extRelock then withRegs (relock s.regs) s else s

/-! ### The schedule -/

/-- The turn of an agent. -/
def turn (g : Agent) (s : State) : Res :=
  match g with
  | .host => hostStep s
  | .eng => engStep s
  | .fop => .next (fopStep s)
  | .reset => .next (resetMove s)
  | .extRelock => .next (extRelockMove s)

/-- Whose turn it is where `sched` names nobody (log 4). DESIGN CHOICE: FOP as soon as it has work, unless `FOP_FAIR` is
false; else HOST when the engine is idle, else ENG. -/
def defaultAgent (s : State) : Agent :=
  if s.cfg.fopFair && s.regs.inflight.isSome then .fop
  else if s.eng.phase = .idle then .host
  else .eng

/-- Whose turn it is. -/
def agentOf (s : State) : Agent :=
  match s.sched with
  | [] => defaultAgent s
  | g :: _ => g

/-- The state once the turn is taken from the schedule. -/
def popTurn (s : State) : State := { s with sched := s.sched.tail }

/-- The state in which the next step is HOST presenting the command `c` (log 10). -/
def placeCommand (c : HostCmd) (s : State) : State :=
  { goto .idle s with cmds := c :: s.cmds, sched := .host :: s.sched }

end Sys2Proof.Machine
end

