-- ==== Sys2Proof/Machine/Step.lean ====
section
/-! DEFINITION. One step of the machine: the turn of one agent (spec 00_scope R5), and placing a command so that the next step
runs it. -/

namespace Sys2Proof.Machine

/-- One atomic step of one agent. -/
def step (s : State) : Host.Outcome State Fault Refusal := turn (agentOf s) (popTurn s)

/-- `s` with the command of a table word at the port, to be presented in the next step (log 10). -/
def State.withFetchWord (s : State) (nbits w : Nat) : State :=
  placeCommand { word := tableWord nbits w, pay := tablePayload s.cfg.nu (tableWord nbits w) } s

end Sys2Proof.Machine
end

