-- ==== Sys2Proof/Safety.lean ====
section
/-! DEFINITION. The terms claims are stated in: runs, the states a claim may start from, how a run ends, and the invariants of
the block (spec 70_reset R277, R279; 10_state R30, R36, R37, R40; 40_lock_unlock R129; 41_status R145; 43_native_access R161). -/

namespace Sys2Proof.Machine

/-- `k` steps, ending early at a fault or a refusal. -/
def runSteps : Nat → State → Res
  | 0, s => .next s
  | k + 1, s =>
    match step s with
    | .next t => runSteps k t
    | .fault r => .fault r
    | .refused r => .refused r

/-- A schedule of `k` turns of ENG. -/
def engTurns (k : Nat) : List Agent := List.replicate k Agent.eng

/-- A schedule in which FOP completes the operation in flight after `before` turns of ENG, and ENG has `after` more. -/
def fopAfter (before after : Nat) : List Agent := engTurns before ++ Agent.fop :: engTurns after

/-- The state with `l` as what is left of the schedule. -/
def scheduled (l : List Agent) (s : State) : State := { s with sched := l }

/-- The turns of one stride of a WRITE whose POLL reads BSY = 1 `k` times (44_buffered_access R192): `WR0`, then the native
write sequence with FOP completing before the last POLL read. -/
def strideTurns (c : Config) (k : Nat) : List Agent := engTurns 1 ++ fopAfter (2 + unitWords c + k) 3

/-- The turns of a whole WRITE, one number of busy reads a stride. -/
def writeTurns (c : Config) (ks : List Nat) : List Agent := ks.flatMap (strideTurns c) ++ engTurns 1

/-- A number of busy reads that the poll budget allows: fewer than a finite budget (41_status R144). -/
def Affordable (c : Config) (k : Nat) : Prop := ∀ b, c.pollBudget = some b → k < b

/-- The state in which the command `c` of opcode `op` has been accepted and is at its first label (30_encoding R91). -/
def accepted (op : BitVec 8) (first : Phase) (c : CmdArgs) (s : State) : State :=
  { s with
    reply := .none
    eng :=
      { phase := first, op := op, a := c.a, n := c.n, pay := c.pay, i := 0, j := 0, guard := s.eng.guard, polls := 0
        out := [], rsp := s.eng.rsp, carry := s.eng.carry } }

/-- The state in which the command `c` of opcode `op` has violated its contract (30_encoding R91): it is loaded, and the
abort sequence is next. -/
def violated (op : BitVec 8) (c : CmdArgs) (s : State) : State :=
  { s with
    reply := .none
    eng :=
      { phase := .ab0, op := op, a := c.a, n := c.n, pay := c.pay, i := 0, j := 0, guard := s.eng.guard, polls := 0
        out := [], rsp := s.eng.rsp, carry := .abort } }

/-- The state in which the command `c` of opcode `op` has been accepted and answered `r` with nothing else changed. -/
def answered (op : BitVec 8) (r : Response) (c : CmdArgs) (s : State) : State :=
  { s with
    reply := .none
    eng :=
      { phase := .idle, op := op, a := c.a, n := c.n, pay := c.pay, i := 0, j := 0, guard := s.eng.guard, polls := 0
        out := [], rsp := rspWord r, carry := s.eng.carry } }

/-- The labels the third column of the table of 10_state R48 allows after a label, for an engine step. -/
def Phase.follows : Phase → List Phase
  | .idle | .aborted => []
  | .il0 | .lk0 | .st0 | .ul2 | .aq3 | .rl0 | .ep6 | .ea5 => [.idle]
  | .ul0 => [.idle, .ul1]
  | .ul1 => [.ul2]
  | .aq0 => [.idle, .aq1]
  | .aq1 => [.idle, .aq2]
  | .aq2 => [.aq3]
  | .rn0 => [.rn0, .idle]
  | .rd0 => [.idle, .rd0]
  | .wr0 => [.idle, .wn0]
  | .wn0 => [.wn1, .idle]
  | .wn1 => [.wn2]
  | .wn2 => [.wn2, .wn3]
  | .wn3 => [.wn4, .wn3, .idle]
  | .wn4 => [.wn5]
  | .wn5 => [.idle, .wr0]
  | .ep0 => [.ep1, .idle]
  | .ep1 => [.ep2]
  | .ep2 => [.ep3]
  | .ep3 => [.ep4]
  | .ep4 => [.ep5, .ep4, .idle]
  | .ep5 => [.ep6]
  | .ea0 => [.ea1, .idle]
  | .ea1 => [.ea2]
  | .ea2 => [.ea3]
  | .ea3 => [.ea4, .ea3, .idle]
  | .ea4 => [.ea5]
  | .ab0 => [.aborted]

/-- The premises of a clean entry but the key checker's (70_reset R279): nothing is in flight or half stored, no fault is
recorded and no control bit is set. 43_native_access R171 speaks of such states with a dead key checker. -/
structure State.QuietEntry (s : State) : Prop where
  idle : s.eng.phase = .idle
  not_busy : s.regs.bsy = false
  nothing_in_flight : s.regs.inflight = none
  buffer_empty : s.regs.wcnt = 0
  no_progErr : s.regs.progErr = false
  no_wrpErr : s.regs.wrpErr = false
  no_pg : s.regs.pg = false
  no_per : s.regs.per = false
  no_mer1 : s.regs.mer1 = false

/-- The premises of a clean entry that fix a value (70_reset R279); a claim names `LOCK` and the guard beside it. -/
structure State.CleanEntry (s : State) : Prop extends State.QuietEntry s where
  key_idle : s.regs.kstate = .idle

/-- A run is over (70_reset R277), read in its last state. -/
def State.ended (s : State) : Prop := s.eng.phase = .idle ∧ s.regs.inflight = none ∧ s.cmds = []

/-- No response of the run of `k` steps from `s` was `Abort`: no state of it has `Abort` in `RSP`, which holds every response
until the next response or `Reset` (10_state R43, 60_exceptions R237). -/
def State.neverAborts (s : State) (k : Nat) : Prop :=
  ∀ m ≤ k, ∀ t, runSteps m s = .next t → t.eng.rsp ≠ rspWord .abort

/-- The run of `k` steps from `s` has ended well (70_reset R277): it is over, no guard is outstanding, and no response on the
way was `Abort`, which a `Reset` in between does not undo. -/
def State.endedWell (s : State) (k : Nat) : Prop :=
  (∃ t, runSteps k s = .next t ∧ t.ended ∧ t.eng.guard = .none) ∧ s.neverAborts k

/-! ### The invariant of the register layer -/

/-- An offset of a whole unit of the array (10_state R37). -/
def UnitOffset (c : Config) (o : Nat) : Prop := o % c.nu = 0 ∧ o + c.nu ≤ c.flashBytes

/-- What an operation in flight carries (10_state R37). -/
def OperationOk (c : Config) (f : Operation) : Prop :=
  match f with
  | .prog o ws => UnitOffset c o ∧ ws.length = unitWords c
  | .erasePage p => p < c.pageCount
  | .eraseAll => True

/-- The register layer's own promises. -/
structure RegsInv (c : Config) (r : Regs) : Prop where
  /-- `SR.BSY = 1` exactly when `inflight` is not `None` (10_state R30). -/
  busy : r.bsy = r.inflight.isSome
  /-- PNB has `PNB_WIDTH` bits (10_state R26). -/
  pnb_width : r.pnb.toNat < 2 ^ c.pnbWidth
  /-- `wcnt` is in `[0, NU/4)` (10_state R36). -/
  wcnt_lt : r.wcnt < unitWords c
  /-- `wbuf` has `NU/4` words (10_state R36). -/
  wbuf_words : r.wbuf.length = unitWords c
  /-- `wbase` is the offset of a unit while it is meaningful (10_state R36). -/
  wbase_unit : 0 < r.wcnt → UnitOffset c r.wbase
  /-- The operation in flight is one FOP can complete (10_state R37). -/
  inflight_ok : ∀ f, r.inflight = some f → OperationOk c f
  /-- The array is in canonical form. -/
  arr_wf : Memory.wf r.arr = true
  /-- The array lists no byte past its end (10_state R38). -/
  arr_range : ∀ cell ∈ r.arr, cell.1 < c.flashBytes

/-! ### The invariant of the engine -/

/-- The phases of the native write sequence. -/
def Phase.isWrite (p : Phase) : Prop :=
  p = .wn0 ∨ p = .wn1 ∨ p = .wn2 ∨ p = .wn3 ∨ p = .wn4 ∨ p = .wn5

/-- The phases of ERASE_PAGE. -/
def Phase.isErasePage (p : Phase) : Prop :=
  p = .ep0 ∨ p = .ep1 ∨ p = .ep2 ∨ p = .ep3 ∨ p = .ep4 ∨ p = .ep5 ∨ p = .ep6

/-- The phases of ERASE_ALL. -/
def Phase.isEraseAll (p : Phase) : Prop :=
  p = .ea0 ∨ p = .ea1 ∨ p = .ea2 ∨ p = .ea3 ∨ p = .ea4 ∨ p = .ea5

/-- The phases in which the engine polls (41_status R144). -/
def Phase.isPoll (p : Phase) : Prop := p = .wn3 ∨ p = .ep4 ∨ p = .ea3

/-- The operands of an accepted READ or WRITE: checks K4, K5 and K7 (44_buffered_access R190). -/
structure RangeOk (s : State) : Prop where
  aligned : addressAligned s.cfg s.eng.a = true
  length : lengthAligned s.cfg s.eng.n = true
  inside : inFlash s.cfg s.eng.a s.eng.n.toNat = true

/-- The operands of an accepted READ_NATIVE or WRITE_NATIVE: checks K4 and K7. -/
structure UnitOk (s : State) : Prop where
  aligned : addressAligned s.cfg s.eng.a = true
  inside : inFlash s.cfg s.eng.a s.cfg.nu = true

/-- The key protocol is safe to walk through: the two key constants differ, or nothing but the engine relocks. Where
`KEY1 = KEY2` and `ExtRelock` comes between the two key writes, 40_lock_unlock R131 and R124 leave `K_HALF` behind after the
second, and the next UNLOCK meets R123: the spec's derived sentences of R129 and 60_exceptions R239 leave that corner out. -/
def KeysApart (c : Config) : Prop := c.key1 ≠ c.key2 ∨ c.extRelock = false

/-- What holds of the key checker in each phase, where `KeysApart`. -/
structure KeyInv (s : State) : Prop where
  /-- The key writes happen with LOCK = 1 (40_lock_unlock R129, 42_guard R151). -/
  key_locked : s.eng.phase = .ul1 ∨ s.eng.phase = .ul2 ∨ s.eng.phase = .aq2 ∨ s.eng.phase = .aq3 → s.regs.lock = true
  /-- `K_HALF` exists only between the two key writes (40_lock_unlock R129). -/
  half_phase : s.regs.kstate = .half → s.eng.phase = .ul2 ∨ s.eng.phase = .aq3
  /-- Nothing forgets the first key where nothing relocks from outside. -/
  half_kept : s.cfg.extRelock = false → s.eng.phase = .ul2 ∨ s.eng.phase = .aq3 → s.regs.kstate ≠ .idle
  /-- The engine is never stuck in a key write (60_exceptions R239). -/
  not_stalled : s.reply ≠ .stalled

/-- What holds of the engine in each phase, whatever the poll budget. -/
structure EngineInv (s : State) : Prop where
  readNative : s.eng.phase = .rn0 → UnitOk s ∧ s.eng.j < unitWords s.cfg
  read : s.eng.phase = .rd0 →
    RangeOk s ∧ s.eng.i ≤ strides s ∧ s.eng.j < unitWords s.cfg ∧ (s.eng.i = strides s → s.eng.j = 0)
  stride : s.eng.phase = .wr0 →
    s.eng.op = writeOpcode ∧ RangeOk s ∧ s.eng.pay.length = s.eng.n.toNat ∧ s.eng.i ≤ strides s
  write : s.eng.phase.isWrite →
    (s.eng.op = writeOpcode ∧ RangeOk s ∧ s.eng.pay.length = s.eng.n.toNat ∧ s.eng.i < strides s) ∨
      (s.eng.op = 0x06#8 ∧ UnitOk s ∧ s.eng.pay.length = s.cfg.nu ∧ s.eng.i = 0)
  storing : s.eng.phase = .wn2 → s.eng.j < unitWords s.cfg
  erasePage : s.eng.phase.isErasePage → s.eng.a.toNat < s.cfg.pageCount
  /-- Writes, erases and RELEASE run under a guard (42_guard R152, R153). -/
  guarded : s.eng.phase = .wr0 ∨ s.eng.phase.isWrite ∨ s.eng.phase.isErasePage ∨ s.eng.phase.isEraseAll ∨
    s.eng.phase = .rl0 → s.eng.guard.isHeld = true
  /-- ACQUIRE runs while no guard is held (42_guard R154). -/
  acquiring : s.eng.phase = .aq0 → s.eng.guard = .none
  /-- A finite budget is not yet spent while the engine polls (41_status R144). -/
  budget : ∀ b, s.cfg.pollBudget = some b → s.eng.phase.isPoll → s.eng.polls < b

/-- What holds besides when no POLL can time out (`POLL_BUDGET = INF`): every control bit and the write buffer are in use only
inside the command that sets them, and nothing is in flight outside a POLL (41_status R145, 43_native_access R161). -/
structure UnboundedInv (s : State) : Prop where
  busy_polls : s.regs.bsy = true → s.eng.phase.isPoll
  pg_phase : s.regs.pg = true → s.eng.phase = .wn2 ∨ s.eng.phase = .wn3 ∨ s.eng.phase = .wn4
  per_phase : s.regs.per = true →
    s.eng.phase = .ep2 ∨ s.eng.phase = .ep3 ∨ s.eng.phase = .ep4 ∨ s.eng.phase = .ep5
  mer1_phase : s.regs.mer1 = true → s.eng.phase = .ea2 ∨ s.eng.phase = .ea3 ∨ s.eng.phase = .ea4
  buffer_phase : 0 < s.regs.wcnt → s.eng.phase = .wn2 ∨ s.eng.phase = .wn3 ∨ s.eng.phase = .wn4
  storing : s.eng.phase = .wn2 → s.regs.pg = true ∧
    (s.regs.lock = false → s.regs.wcnt = s.eng.j ∧
      (0 < s.eng.j → s.regs.wbase = s.eng.a.toNat + s.eng.i * s.cfg.nu - s.cfg.origin))
  armed_page : s.eng.phase = .ep2 ∨ s.eng.phase = .ep3 → s.regs.per = true
  armed_index : s.eng.phase = .ep3 → s.regs.pnb = s.eng.a
  armed_all : s.eng.phase = .ea2 → s.regs.mer1 = true

/-- The invariant of the block. -/
structure State.Inv (s : State) : Prop where
  cfg : s.cfg.Valid
  regs : RegsInv s.cfg s.regs
  eng : EngineInv s
  keys : KeysApart s.cfg → KeyInv s
  unbounded : s.cfg.pollBudget = none → UnboundedInv s

end Sys2Proof.Machine
end

