-- ==== Sys2Proof/Certificates/Slice0/Obligations.lean ====
section
/-! DEFINITION. The statements about the model. A docstring names the rule of spec/ a statement formalises and says where the
rule, or the model, chose for itself. -/

open Sys2Proof Sys2Proof.Machine

/-! ### Reset -/

/-- The values 10_state R46 gives after Reset, for every parameter set and every array contents. R46 marks all of them as the
spec's own choice (D10). That the parameters of `State.reset` are REF and its array lists nothing is the model's choice (log
1, log 3). -/
def Obligations.ResetLeavesTheGivenValues : Prop :=
  (∀ (c : Config) (arr : Memory), ∀ s, s = State.resetOf c arr →
    s.regs.lock = true ∧ s.regs.pg = false ∧ s.regs.per = false ∧ s.regs.mer1 = false ∧ s.regs.pnb = 0#32 ∧
      s.regs.bsy = false ∧ s.regs.progErr = false ∧ s.regs.wrpErr = false ∧ s.regs.kstate = .idle ∧ s.regs.wcnt = 0 ∧
      s.regs.inflight = none ∧ s.regs.arr = arr ∧ s.eng.phase = .idle ∧ s.eng.guard = .none ∧ s.eng.polls = 0 ∧
      s.cfg = c) ∧
    State.reset = State.resetOf Config.ref []

/-- The reset state meets the invariant of the block, for every parameter set the spec allows and every array contents in
canonical form; so does `State.reset`. -/
def Obligations.ResetMeetsTheInvariant : Prop :=
  (∀ (c : Config) (arr : Memory), c.Valid → Memory.wf arr = true → (∀ cell ∈ arr, cell.1 < c.flashBytes) →
    (State.resetOf c arr).Inv) ∧
    State.reset.Inv

/-- What a `Reset` does in any state (70_reset R260, R261; the effect of the event is the spec's own, D10 and D29): every
register R46 of 10_state gives a value has it, the array keeps every byte but those of the target of an operation in flight,
and what HOST has yet to present and the schedule stay (log 4, 5). The registers R46 leaves unspecified (`op`, `A`, `N`, `PAY`,
`i`, `j`, `OUT`, `RSP`, `carry`, `wbase`, `wbuf`) hold zero, and the bus reply is none: the model's choice (log 2, log 6). -/
def Obligations.ResetMoveAbandonsTheCommand : Prop :=
  ∀ s : State, agentOf s = .reset → Memory.wf s.regs.arr = true →
    ∃ t arr, step s = .next t ∧
      t = { State.resetOf s.cfg arr with
            cmds := s.cmds, sched := s.sched.tail, draws := s.draws + (if s.regs.inflight.isSome then 1 else 0) } ∧
      Memory.wf arr = true ∧
      (s.regs.inflight = none → arr = s.regs.arr) ∧
      (∀ o ws, s.regs.inflight = some (.prog o ws) →
        ∀ m, ¬(o ≤ m ∧ m < o + s.cfg.nu) → Memory.read arr m = Memory.read s.regs.arr m) ∧
      (∀ p, s.regs.inflight = some (.erasePage p) →
        ∀ m, ¬(p * s.cfg.pageSize ≤ m ∧ m < p * s.cfg.pageSize + s.cfg.pageSize) →
          Memory.read arr m = Memory.read s.regs.arr m) ∧
      (s.regs.inflight = some .eraseAll →
        ∀ m, s.cfg.flashBytes ≤ m → Memory.read arr m = Memory.read s.regs.arr m)

/-! ### Encoding -/

/-- Words written out from the encodings of 30_encoding R93 and R98 (95_test_vectors section 2.1) decode to what they stand
for: two of each format and family. -/
def Obligations.SpelledOutWordsDecode : Prop :=
  decode .cmd 0x010000000000000000#72 [] = .ok (.isLocked ⟨0#32, 0#32, []⟩) ∧
    decode .cmd 0x03DEADBEEF12345678#72 [] = .ok (.lock ⟨0xDEADBEEF#32, 0x12345678#32, []⟩) ∧
    decode .cmd 0x040000000000000000#72 [] = .ok (.status ⟨0#32, 0#32, []⟩) ∧
    decode .cmd 0x050803200000000000#72 [] = .ok (.readNative ⟨0x08032000#32, 0#32, []⟩) ∧
    decode .cmd 0x080803200000000005#72 [1#8, 2#8, 3#8, 4#8, 5#8] =
      .ok (.write ⟨0x08032000#32, 5#32, [1#8, 2#8, 3#8, 4#8, 5#8]⟩) ∧
    decode .cmd 0x09000000FF00000000#72 [] = .ok (.erasePage ⟨255#32, 0#32, []⟩) ∧
    decode .cmd 0x0C0000000000000000#72 [] = .ok (.release ⟨0#32, 0#32, []⟩) ∧
    decode .bus 0x020000000400000064#72 [] = .ok (.modCrPnb 100#32) ∧
    decode .bus 0x020000000500000001#72 [] = .ok (.modCrStart 1#32) ∧
    decode .bus 0x0400000000CDEF89AB#72 [] = .ok (.wrKeyr 0#32 0xCDEF89AB#32) ∧
    decode .bus 0x06080320040D0C0B0A#72 [] = .ok (.st32 0x08032004#32 0x0D0C0B0A#32)

/-- Decoding and encoding are inverse to each other, for every instruction with every operand (30_encoding R91, R93, R97, R98,
R102; the encodings are the spec's own, D2 and D4). -/
def Obligations.DecodingInvertsEncoding : Prop :=
  (∀ i : Instr, decode i.format (encode i) i.payload = .ok i) ∧
    ∀ (f : Format) (w : FrameWord) (pay : List Byte) (i : Instr), decode f w pay = .ok i →
      i.format = f ∧ encode i = w ∧ (f = .cmd → i.payload = pay)

/-- Exactly the reserved opcodes, transaction types and selectors are no instruction (30_encoding R94, R99; D2, D4), each
rejected by its name, and a BUS word that is no transaction is refused (93 U17). -/
def Obligations.ReservedWordsAreRejected : Prop :=
  ∀ (w : FrameWord) (pay : List Byte),
    (decode .cmd w pay = .error (.reservedOpcode (fieldOp w)) ↔ fieldOp w = 0#8 ∨ 0x0D#8 ≤ fieldOp w) ∧
      (decode .bus w pay = .error (.reservedTransaction (fieldOp w)) ↔ fieldOp w = 0#8 ∨ 7#8 ≤ fieldOp w) ∧
      (decode .bus w pay = .error (.reservedSelector (fieldA w)) ↔ fieldOp w = 2#8 ∧ 5#32 < fieldA w) ∧
      ∀ s : State, (∀ i, decode .bus w [] ≠ .ok i) → busWord w s = .refused .reservedTransaction

/-- The response word of every outcome (30_encoding R96; D3): the code in bits 3:0, `bit` in bit 4, the rest 0. -/
def Obligations.ResponseWordsAreEncoded : Prop :=
  rspWord .ok = 0x00#8 ∧ rspWord (.okBit true) = 0x10#8 ∧ rspWord (.okBit false) = 0x00#8 ∧ rspWord .okData = 0x00#8 ∧
    rspWord (.err .unlockFailed) = 0x01#8 ∧ rspWord (.err .timeout) = 0x02#8 ∧
    rspWord (.err .programmingError) = 0x03#8 ∧ rspWord (.err .writeProtectionError) = 0x04#8 ∧
    rspWord (.err .busy) = 0x05#8 ∧ rspWord .abort = 0x0F#8 ∧
    ∀ r : Response, (rspWord r).extractLsb' 5 3 = 0#3 ∧
      ¬(6#4 ≤ (rspWord r).extractLsb' 0 4 ∧ (rspWord r).extractLsb' 0 4 ≤ 14#4) ∧
      ((rspWord r).getLsbD 4 = true ↔ r = .okBit true)

/-! ### Whose step runs what -/

/-- The turn of HOST in `IDLE`: the word of the next command is decoded and run (30_encoding R91), a reserved opcode being a
contract violation (R94). That the commands stand in a queue is the model's (log 5); so is that a turn of HOST with nothing to
present passes and changes nothing but the schedule (log 4). -/
def Obligations.HostStepRunsTheDecodedCommand : Prop :=
  ∀ s : State, agentOf s = .host → s.eng.phase = .idle →
    (s.cmds = [] → step s = .next { s with sched := s.sched.tail }) ∧
      ∀ c rest, s.cmds = c :: rest →
        (∀ i, decode .cmd c.word c.pay = .ok i → step s = exec i { s with cmds := rest, sched := s.sched.tail }) ∧
          ∀ e, decode .cmd c.word c.pay = .error e →
            step s = .next (violated (fieldOp c.word) ⟨fieldA c.word, fieldN c.word, c.pay⟩
              { s with cmds := rest, sched := s.sched.tail })

/-- The turn of ENG while a command runs (10_state R40, 30_encoding R97): where its phase names a transaction, that word is a
word of the transaction and the step is `exec` of it followed, once it has completed, by the phase's own update; where the
phase names none, the step is that update. The next schedule entry is consumed. -/
def Obligations.EngineStepRunsItsTransaction : Prop :=
  ∀ s : State, agentOf s = .eng → s.eng.phase ≠ .idle → s.eng.phase ≠ .aborted → s.reply ≠ .stalled →
    addressFits s = true → ∀ u, u = { s with sched := s.sched.tail } →
      (transaction s = none → step s = .next (afterTransaction { u with reply := .none })) ∧
        ∀ i, transaction s = some i →
          decode .bus (encode i) [] = .ok i ∧
            (∀ t, exec i u = .next t → t.reply.pending = false → step s = .next (afterTransaction t)) ∧
            (∀ t, exec i u = .next t → t.reply.pending = true → step s = .next t) ∧
            ∀ r, exec i u = .refused r → step s = .refused r

/-- The engine moves along the table of 10_state R48 (which R48 derives from the command rules) and along nothing else. In
`IDLE` a turn of ENG passes (log 4). In any other phase it stays where it is if its transaction has not completed (R40, R123 and
log 7), and goes to a label of the third column if it has; a phase repeats then only where the table says so. -/
def Obligations.PhaseMovesAlongTheTable : Prop :=
  ∀ s t : State, step s = .next t → agentOf s = .eng →
    (s.eng.phase = .idle → t.eng.phase = .idle) ∧
      (s.eng.phase ≠ .idle → t.reply.pending = true → t.eng.phase = s.eng.phase) ∧
      (s.eng.phase ≠ .idle → t.reply.pending = false → t.eng.phase ∈ s.eng.phase.follows)

/-- While a command runs the port blocks (30_encoding R91; D2): presenting any command changes nothing, and the turn of HOST
only passes. How a model shows the block is log 5. -/
def Obligations.BusyPortBlocks : Prop :=
  ∀ s : State, s.eng.phase ≠ .idle → s.eng.phase ≠ .aborted →
    (∀ i : Instr, i.format = .cmd → exec i s = .next s) ∧
      (agentOf s = .host → step s = .next { s with sched := s.sched.tail })

/-! ### The command port and the contract -/

/-- Acceptance (30_encoding R91) decides by the contract checks K1 to K8 of 44_buffered_access R190, evaluated on numbers that
do not wrap: all hold, the command is at its first label; one fails, the abort sequence is next. Neither touches the register
layer or the guard. K1 to K3 and K6 to K8 are the spec's own (D24, D26). -/
def Obligations.AcceptanceChecksTheContract : Prop :=
  ∀ (s : State) (c : CmdArgs), s.eng.phase = .idle →
    (exec (.isLocked c) s = .next (accepted 0x01#8 .il0 c s) ∧ exec (.unlock c) s = .next (accepted 0x02#8 .ul0 c s) ∧
      exec (.lock c) s = .next (accepted 0x03#8 .lk0 c s) ∧ exec (.status c) s = .next (accepted 0x04#8 .st0 c s)) ∧
    (s.eng.guard = .none →
      exec (.acquire c) s = .next (accepted 0x0B#8 .aq0 c s) ∧ exec (.release c) s = .next (violated 0x0C#8 c s) ∧
        exec (.writeNative c) s = .next (violated 0x06#8 c s) ∧ exec (.write c) s = .next (violated 0x08#8 c s) ∧
        exec (.erasePage c) s = .next (violated 0x09#8 c s) ∧ exec (.eraseAll c) s = .next (violated 0x0A#8 c s)) ∧
    (∀ b, s.eng.guard = .held b →
      exec (.acquire c) s = .next (violated 0x0B#8 c s) ∧ exec (.release c) s = .next (accepted 0x0C#8 .rl0 c s) ∧
        exec (.eraseAll c) s = .next (accepted 0x0A#8 .ea0 c s) ∧
        (c.a.toNat < s.cfg.pageCount → exec (.erasePage c) s = .next (accepted 0x09#8 .ep0 c s)) ∧
        (s.cfg.pageCount ≤ c.a.toNat → exec (.erasePage c) s = .next (violated 0x09#8 c s)) ∧
        (c.a.toNat % s.cfg.nu = 0 ∧ s.cfg.origin ≤ c.a.toNat ∧
            c.a.toNat + s.cfg.nu ≤ s.cfg.origin + s.cfg.flashBytes ∧ c.pay.length = s.cfg.nu →
          exec (.writeNative c) s = .next (accepted 0x06#8 .wn0 c s)) ∧
        (¬(c.a.toNat % s.cfg.nu = 0 ∧ s.cfg.origin ≤ c.a.toNat ∧
            c.a.toNat + s.cfg.nu ≤ s.cfg.origin + s.cfg.flashBytes ∧ c.pay.length = s.cfg.nu) →
          exec (.writeNative c) s = .next (violated 0x06#8 c s)) ∧
        (c.a.toNat % s.cfg.nu = 0 ∧ c.n.toNat % s.cfg.nu = 0 ∧ s.cfg.origin ≤ c.a.toNat ∧
            c.a.toNat + c.n.toNat ≤ s.cfg.origin + s.cfg.flashBytes ∧ c.pay.length = c.n.toNat →
          exec (.write c) s = .next (accepted 0x08#8 .wr0 c s)) ∧
        (¬(c.a.toNat % s.cfg.nu = 0 ∧ c.n.toNat % s.cfg.nu = 0 ∧ s.cfg.origin ≤ c.a.toNat ∧
            c.a.toNat + c.n.toNat ≤ s.cfg.origin + s.cfg.flashBytes ∧ c.pay.length = c.n.toNat) →
          exec (.write c) s = .next (violated 0x08#8 c s))) ∧
    (c.a.toNat % s.cfg.nu = 0 ∧ s.cfg.origin ≤ c.a.toNat ∧ c.a.toNat + s.cfg.nu ≤ s.cfg.origin + s.cfg.flashBytes →
      exec (.readNative c) s = .next (accepted 0x05#8 .rn0 c s)) ∧
    (¬(c.a.toNat % s.cfg.nu = 0 ∧ s.cfg.origin ≤ c.a.toNat ∧
        c.a.toNat + s.cfg.nu ≤ s.cfg.origin + s.cfg.flashBytes) →
      exec (.readNative c) s = .next (violated 0x05#8 c s)) ∧
    (c.a.toNat % s.cfg.nu = 0 ∧ c.n.toNat % s.cfg.nu = 0 ∧ s.cfg.origin ≤ c.a.toNat ∧
        c.a.toNat + c.n.toNat ≤ s.cfg.origin + s.cfg.flashBytes →
      exec (.read c) s = .next (accepted 0x07#8 .rd0 c s)) ∧
    (¬(c.a.toNat % s.cfg.nu = 0 ∧ c.n.toNat % s.cfg.nu = 0 ∧ s.cfg.origin ≤ c.a.toNat ∧
        c.a.toNat + c.n.toNat ≤ s.cfg.origin + s.cfg.flashBytes) →
      exec (.read c) s = .next (violated 0x07#8 c s))

/-- The abort sequence (60_exceptions R237; its rendering is the spec's, D25): the step at `AB0` locks where the guard asks for
it, with a half-entered key forgotten, drops the guard, answers `Abort` and ends in `ABORTED`; nothing else of the register
layer changes, and the registers of the violating command stay readable. -/
def Obligations.AbortSequenceEndsInAborted : Prop :=
  ∀ s : State, agentOf s = .eng → s.eng.phase = .ab0 → s.reply ≠ .stalled →
    (s.eng.guard = .held true →
      step s = .next { s with
        reply := .done, sched := s.sched.tail
        regs := { s.regs with lock := true, kstate := if s.regs.kstate = .half then .idle else s.regs.kstate }
        eng := { s.eng with phase := .aborted, guard := .none, rsp := 0x0F#8 } }) ∧
      (s.eng.guard ≠ .held true →
        step s = .next { s with
          reply := .none, sched := s.sched.tail
          eng := { s.eng with phase := .aborted, guard := .none, rsp := 0x0F#8 } })

/-- `ABORTED` is terminal (60_exceptions R238; D25): HOST and ENG have no move there, which the model shows as a fault (log
9), presenting a command included; FOP and `ExtRelock` leave the phase and RSP alone; `Reset` leaves it for `IDLE`. -/
def Obligations.AbortedIsTerminal : Prop :=
  ∀ s : State, s.eng.phase = .aborted →
    (agentOf s = .host ∨ agentOf s = .eng → step s = .fault .aborted) ∧
      (∀ i : Instr, i.format = .cmd → exec i s = .fault .aborted) ∧
      (∀ t, step s = .next t → agentOf s ≠ .reset → t.eng = s.eng) ∧
      (agentOf s = .reset → ∃ t, step s = .next t ∧ t.eng.phase = .idle)

/-! ### CR, the lock and the key register -/

/-- 40_lock_unlock R120. The last clause is its last sentence: of the word `RD_CR` returns, the engine uses LOCK alone. -/
def Obligations.ControlWordHoldsItsFields : Prop :=
  ∀ (s : State) (x v : Word), s.cfg.Valid → s.regs.pnb.toNat < 2 ^ s.cfg.pnbWidth →
    ∃ w, exec (.rdCr x v) s = .next { s with reply := .data w } ∧
      w.getLsbD s.cfg.lockBit = s.regs.lock ∧ w.getLsbD s.cfg.pgBit = s.regs.pg ∧
      w.getLsbD s.cfg.perBit = s.regs.per ∧ w.getLsbD s.cfg.mer1Bit = s.regs.mer1 ∧
      (∀ k < s.cfg.pnbWidth, w.getLsbD (s.cfg.pnbLsb + k) = s.regs.pnb.getLsbD k) ∧
      w.getLsbD s.cfg.startBit = false ∧ (∀ k, k ∉ s.cfg.crBits → w.getLsbD k = false) ∧
      ∀ w', crLock s.cfg w' = s.regs.lock →
        s.eng.phase = .il0 ∨ s.eng.phase = .ul0 ∨ s.eng.phase = .aq0 ∨ s.eng.phase = .aq1 →
          (afterTransaction { s with reply := .data w' }).eng = (afterTransaction { s with reply := .data w }).eng

/-- `MOD_CR(LOCK, v)` (40_lock_unlock R121, R122; the effect on `kstate` is the spec's own, D13): a written 1 locks and forgets
a half-entered key, whatever LOCK and BSY are, and doing it twice is doing it once; a written 0 does nothing. While an
operation is in flight the model takes the spec's reading of 93 U14 (log 12). -/
def Obligations.LockFieldOnlyLocks : Prop :=
  ∀ (s : State) (v : Word),
    (v.getLsbD 0 = true → ∃ t,
      t = { s with
            reply := .done
            regs := { s.regs with lock := true, kstate := if s.regs.kstate = .half then .idle else s.regs.kstate } } ∧
        exec (.modCrLock v) s = .next t ∧ exec (.modCrLock v) t = .next t) ∧
      (v.getLsbD 0 = false → exec (.modCrLock v) s = .next { s with reply := .done })

/-- 40_lock_unlock R124. -/
def Obligations.FirstKeyHalfEnters : Prop :=
  ∀ (s : State) (x v : Word), s.regs.lock = true → s.regs.kstate = .idle → v = s.cfg.key1 →
    exec (.wrKeyr x v) s = .next { s with reply := .done, regs := { s.regs with kstate := .half } }

/-- 40_lock_unlock R125, the last sentence as well: no other transaction and no other step clears LOCK. -/
def Obligations.SecondKeyAloneUnlocks : Prop :=
  (∀ (s : State) (x v : Word), s.regs.lock = true → s.regs.kstate = .half → v = s.cfg.key2 →
    exec (.wrKeyr x v) s = .next { s with reply := .done, regs := { s.regs with lock := false, kstate := .idle } }) ∧
    (∀ (i : Instr) (s t : State), exec i s = .next t → s.regs.lock = true → t.regs.lock = false →
      s.regs.kstate = .half ∧ ∃ x v, i = .wrKeyr x v ∧ v = s.cfg.key2) ∧
    ∀ s t : State, step s = .next t → s.regs.lock = true → t.regs.lock = false →
      agentOf s = .eng ∧ s.regs.kstate = .half ∧ ∃ x v, transaction s = some (.wrKeyr x v) ∧ v = s.cfg.key2

/-- 40_lock_unlock R126 and R127 (both the spec's own, D13): a key value out of place leaves LOCK at 1, and the checker dead or
back at the start by `KEY_MISMATCH_POLICY`; a dead checker ignores every value. -/
def Obligations.WrongKeyLeavesItLocked : Prop :=
  ∀ (s : State) (x v : Word), s.regs.lock = true →
    (s.regs.kstate = .idle ∧ v ≠ s.cfg.key1 ∨ s.regs.kstate = .half ∧ v ≠ s.cfg.key2 →
      exec (.wrKeyr x v) s = .next { s with
        reply := .done
        regs := { s.regs with kstate := if s.cfg.keyMismatch = .lockout then .dead else .idle } }) ∧
      (s.regs.kstate = .dead → exec (.wrKeyr x v) s = .next { s with reply := .done })

/-- 40_lock_unlock R123 (reading "stall/hang" as a permanent stall is the spec's, D14): a key write while LOCK is 0 changes no
state and never completes; an engine that has issued one stays where it is whatever anybody but `Reset` does. The stall is
held in `reply` (log 7). -/
def Obligations.KeyWriteWhileUnlockedStalls : Prop :=
  (∀ (s : State) (x v : Word), s.regs.lock = false → exec (.wrKeyr x v) s = .next { s with reply := .stalled }) ∧
    (∀ s t : State, s.reply = .stalled → s.eng.phase ≠ .idle → s.eng.phase ≠ .aborted → step s = .next t →
      agentOf s ≠ .reset → t.reply = .stalled ∧ t.eng = s.eng) ∧
    ∀ s : State, agentOf s = .eng → s.reply ≠ .stalled → s.regs.lock = false →
      s.eng.phase = .ul1 ∨ s.eng.phase = .ul2 ∨ s.eng.phase = .aq2 ∨ s.eng.phase = .aq3 →
        step s = .next { s with reply := .stalled, sched := s.sched.tail }

/-- 40_lock_unlock R128: IS_LOCKED is accepted whatever the guard is, takes one step and answers LOCK, 0x10 when locked; the
steps write RSP and `phase` alone, beside what acceptance loads. -/
def Obligations.IsLockedAnswersTheLockBit : Prop :=
  ∀ (s : State) (c : CmdArgs) (rest : List Agent), s.cfg.Valid → s.regs.pnb.toNat < 2 ^ s.cfg.pnbWidth →
    s.eng.phase = .idle →
    exec (.isLocked c) s = .next (accepted 0x01#8 .il0 c s) ∧
      runSteps 1 (scheduled (engTurns 1 ++ rest) (accepted 0x01#8 .il0 c s)) =
        .next { answered 0x01#8 (.okBit s.regs.lock) c s with
                reply := .data (crWord s.cfg s.regs), sched := rest } ∧
      rspWord (.okBit s.regs.lock) = (if s.regs.lock then 0x10#8 else 0x00#8)

/-- UNLOCK (40_lock_unlock R129; that its `Ok` is only the completion is D35): an unlocked flash is read once and left alone;
a locked one gets both keys, which unlock it from `K_IDLE` and do nothing from `K_DEAD`. -/
def Obligations.UnlockRunsTheKeySequence : Prop :=
  ∀ (s : State) (c : CmdArgs) (rest : List Agent), s.cfg.Valid → s.regs.pnb.toNat < 2 ^ s.cfg.pnbWidth →
    s.eng.phase = .idle →
    exec (.unlock c) s = .next (accepted 0x02#8 .ul0 c s) ∧
      (s.regs.lock = false →
        runSteps 1 (scheduled (engTurns 1 ++ rest) (accepted 0x02#8 .ul0 c s)) =
          .next { answered 0x02#8 .ok c s with reply := .data (crWord s.cfg s.regs), sched := rest }) ∧
      (s.regs.lock = true → s.regs.kstate = .idle →
        runSteps 3 (scheduled (engTurns 3 ++ rest) (accepted 0x02#8 .ul0 c s)) =
          .next { answered 0x02#8 .ok c s with
                  reply := .done, sched := rest, regs := { s.regs with lock := false } }) ∧
      (s.regs.lock = true → s.regs.kstate = .dead →
        runSteps 3 (scheduled (engTurns 3 ++ rest) (accepted 0x02#8 .ul0 c s)) =
          .next { answered 0x02#8 .ok c s with reply := .done, sched := rest })

/-- LOCK (40_lock_unlock R130; allowed under a guard by D36): one step, which locks whatever LOCK was. -/
def Obligations.LockCommandLocks : Prop :=
  ∀ (s : State) (c : CmdArgs) (rest : List Agent), s.eng.phase = .idle →
    exec (.lock c) s = .next (accepted 0x03#8 .lk0 c s) ∧
      runSteps 1 (scheduled (engTurns 1 ++ rest) (accepted 0x03#8 .lk0 c s)) =
        .next { answered 0x03#8 .ok c s with
                reply := .done, sched := rest
                regs := { s.regs with
                  lock := true, kstate := if s.regs.kstate = .half then .idle else s.regs.kstate } }

/-- `ExtRelock` (40_lock_unlock R131; the move is the spec's own, D28): where `EXT_RELOCK` is true it locks and forgets a
half-entered key, an operation in flight going on; where it is false there is no such move and the turn passes (log 4). -/
def Obligations.ExternalRelockLocks : Prop :=
  ∀ s : State, agentOf s = .extRelock →
    (s.cfg.extRelock = true →
      step s = .next { s with
        sched := s.sched.tail
        regs := { s.regs with lock := true, kstate := if s.regs.kstate = .half then .idle else s.regs.kstate } }) ∧
      (s.cfg.extRelock = false → step s = .next { s with sched := s.sched.tail })

/-! ### SR, STATUS and the polls -/

/-- 41_status R140. -/
def Obligations.StatusWordHoldsItsFields : Prop :=
  ∀ (s : State) (x v : Word), s.cfg.Valid →
    ∃ w, exec (.rdSr x v) s = .next { s with reply := .data w } ∧
      w.getLsbD s.cfg.bsyBit = s.regs.bsy ∧ w.getLsbD s.cfg.progErrBit = s.regs.progErr ∧
      w.getLsbD s.cfg.wrpErrBit = s.regs.wrpErr ∧ (∀ k, k ∉ s.cfg.srBits → w.getLsbD k = false) ∧
      srBsy s.cfg w = s.regs.bsy ∧ srProgErr s.cfg w = s.regs.progErr ∧ srWrpErr s.cfg w = s.regs.wrpErr

/-- 41_status R141, on every SR value: the first of Busy, ProgrammingError, WriteProtectionError that is set, else Ok. -/
def Obligations.StatusDecoderHasPriorities : Prop :=
  ∀ (c : Config) (w : Word),
    (srBsy c w = false → srProgErr c w = false → srWrpErr c w = false → decodeStatus c w = .ok) ∧
      (srBsy c w = false → srProgErr c w = false → srWrpErr c w = true →
        decodeStatus c w = .err .writeProtectionError) ∧
      (srBsy c w = false → srProgErr c w = true → decodeStatus c w = .err .programmingError) ∧
      (srBsy c w = true → decodeStatus c w = .err .busy)

/-- 41_status R142: STATUS is accepted whatever the guard is, takes one step and answers the decoder, and changes nothing but
RSP and `phase`, beside what acceptance loads; so a second STATUS answers the same. -/
def Obligations.StatusAnswersTheDecoder : Prop :=
  ∀ (s : State) (c : CmdArgs) (rest : List Agent), s.cfg.Valid → s.eng.phase = .idle →
    ∃ r, exec (.status c) s = .next (accepted 0x04#8 .st0 c s) ∧
      runSteps 1 (scheduled (engTurns 1 ++ rest) (accepted 0x04#8 .st0 c s)) =
        .next { answered 0x04#8 r c s with reply := .data (srWord s.cfg s.regs), sched := rest } ∧
      (s.regs.bsy = true → r = .err .busy) ∧
      (s.regs.bsy = false → s.regs.progErr = true → r = .err .programmingError) ∧
      (s.regs.bsy = false → s.regs.progErr = false → s.regs.wrpErr = true → r = .err .writeProtectionError) ∧
      (s.regs.bsy = false → s.regs.progErr = false → s.regs.wrpErr = false → r = .ok)

/-- POLL (41_status R144; the finite budget is the spec's own, D23), at each of its three labels: a read of BSY = 0 goes on; a
read of BSY = 1 is counted and the label stays, unless it spends a finite budget: then the command answers `Err(Timeout)` with
every control bit, BSY and the operation left as they are. WRITE carries that result in `carry` (44 R192, log 14). -/
def Obligations.PollCountsBusyReads : Prop :=
  ∀ (s : State) (p q : Phase), s.cfg.Valid → agentOf s = .eng → s.reply ≠ .stalled → s.eng.phase = p →
    (p, q) ∈ [(Phase.wn3, Phase.wn4), (Phase.ep4, Phase.ep5), (Phase.ea3, Phase.ea4)] →
    (s.regs.bsy = false →
      step s = .next { s with
        reply := .data (srWord s.cfg s.regs), sched := s.sched.tail, eng := { s.eng with phase := q } }) ∧
    (s.regs.bsy = true → s.cfg.pollBudget ≠ some (s.eng.polls + 1) →
      step s = .next { s with
        reply := .data (srWord s.cfg s.regs), sched := s.sched.tail
        eng := { s.eng with polls := s.eng.polls + 1 } }) ∧
    (s.regs.bsy = true → s.cfg.pollBudget = some (s.eng.polls + 1) →
      step s = .next { s with
        reply := .data (srWord s.cfg s.regs), sched := s.sched.tail
        eng := { s.eng with
          polls := s.eng.polls + 1, phase := .idle, rsp := 0x02#8
          carry := if p = .wn3 ∧ s.eng.op = 0x08#8 then .err .timeout else s.eng.carry } })

/-- PRECHECK (41_status R143; for the two error flags R143 derives it): a write or erase command presented while SR shows BSY
or an error answers what the decoder says after one transaction, the `RD_SR`, and changes no bit of the register layer. That
WRITE leaves the error in `carry` is the model's reading (log 14). -/
def Obligations.PrecheckFailureChangesNothing : Prop :=
  ∀ (s : State) (c : CmdArgs) (rest : List Agent) (b : Bool) (e : FlashError), s.cfg.Valid → s.eng.phase = .idle →
    s.eng.guard = .held b →
    (s.regs.bsy = true ∧ e = .busy ∨
      s.regs.bsy = false ∧ s.regs.progErr = true ∧ e = .programmingError ∨
      s.regs.bsy = false ∧ s.regs.progErr = false ∧ s.regs.wrpErr = true ∧ e = .writeProtectionError) →
    (exec (.eraseAll c) s = .next (accepted 0x0A#8 .ea0 c s) ∧
      runSteps 1 (scheduled (engTurns 1 ++ rest) (accepted 0x0A#8 .ea0 c s)) =
        .next { answered 0x0A#8 (.err e) c s with reply := .data (srWord s.cfg s.regs), sched := rest }) ∧
    (c.a.toNat < s.cfg.pageCount →
      exec (.erasePage c) s = .next (accepted 0x09#8 .ep0 c s) ∧
      runSteps 1 (scheduled (engTurns 1 ++ rest) (accepted 0x09#8 .ep0 c s)) =
        .next { answered 0x09#8 (.err e) c s with reply := .data (srWord s.cfg s.regs), sched := rest }) ∧
    (c.a.toNat % s.cfg.nu = 0 → s.cfg.origin ≤ c.a.toNat →
      c.a.toNat + s.cfg.nu ≤ s.cfg.origin + s.cfg.flashBytes → c.pay.length = s.cfg.nu →
      exec (.writeNative c) s = .next (accepted 0x06#8 .wn0 c s) ∧
      runSteps 1 (scheduled (engTurns 1 ++ rest) (accepted 0x06#8 .wn0 c s)) =
        .next { answered 0x06#8 (.err e) c s with reply := .data (srWord s.cfg s.regs), sched := rest }) ∧
    (c.a.toNat % s.cfg.nu = 0 → c.n.toNat % s.cfg.nu = 0 → s.cfg.origin ≤ c.a.toNat →
      c.a.toNat + c.n.toNat ≤ s.cfg.origin + s.cfg.flashBytes → c.pay.length = c.n.toNat → 0 < c.n.toNat →
      exec (.write c) s = .next (accepted 0x08#8 .wr0 c s) ∧
      runSteps 2 (scheduled (engTurns 2 ++ rest) (accepted 0x08#8 .wr0 c s)) =
        .next { answered 0x08#8 (.err e) c s with
                reply := .data (srWord s.cfg s.regs), sched := rest
                eng := { (answered 0x08#8 (.err e) c s).eng with carry := .err e } })

/-! ### The guard -/

/-- ACQUIRE (42_guard R151; that it does not verify the unlock is D35): the guard records LOCK as it finds it; an unlocked flash
is left alone; a locked one gets both keys, and stays locked where the checker is dead. -/
def Obligations.AcquireRecordsTheLockBit : Prop :=
  ∀ (s : State) (c : CmdArgs) (rest : List Agent), s.cfg.Valid → s.regs.pnb.toNat < 2 ^ s.cfg.pnbWidth →
    s.eng.phase = .idle → s.eng.guard = .none →
    exec (.acquire c) s = .next (accepted 0x0B#8 .aq0 c s) ∧
      (s.regs.lock = false →
        runSteps 1 (scheduled (engTurns 1 ++ rest) (accepted 0x0B#8 .aq0 c s)) =
          .next { answered 0x0B#8 .ok c s with
                  reply := .data (crWord s.cfg s.regs), sched := rest
                  eng := { (answered 0x0B#8 .ok c s).eng with guard := .held false } }) ∧
      (s.regs.lock = true → s.regs.kstate = .idle →
        runSteps 4 (scheduled (engTurns 4 ++ rest) (accepted 0x0B#8 .aq0 c s)) =
          .next { answered 0x0B#8 .ok c s with
                  reply := .done, sched := rest, regs := { s.regs with lock := false }
                  eng := { (answered 0x0B#8 .ok c s).eng with guard := .held true } }) ∧
      (s.regs.lock = true → s.regs.kstate = .dead →
        runSteps 4 (scheduled (engTurns 4 ++ rest) (accepted 0x0B#8 .aq0 c s)) =
          .next { answered 0x0B#8 .ok c s with
                  reply := .done, sched := rest
                  eng := { (answered 0x0B#8 .ok c s).eng with guard := .held true } })

/-- RELEASE (42_guard R152; the check for a guard is D24): with `Held(true)` it locks, with `Held(false)` it leaves the register
layer alone; either way the guard is gone after its one step. -/
def Obligations.ReleaseRestoresTheLock : Prop :=
  ∀ (s : State) (c : CmdArgs) (rest : List Agent), s.eng.phase = .idle →
    (s.eng.guard = .held true →
      exec (.release c) s = .next (accepted 0x0C#8 .rl0 c s) ∧
      runSteps 1 (scheduled (engTurns 1 ++ rest) (accepted 0x0C#8 .rl0 c s)) =
        .next { answered 0x0C#8 .ok c s with
                reply := .done, sched := rest
                regs := { s.regs with
                  lock := true, kstate := if s.regs.kstate = .half then .idle else s.regs.kstate }
                eng := { (answered 0x0C#8 .ok c s).eng with guard := .none } }) ∧
      (s.eng.guard = .held false →
        exec (.release c) s = .next (accepted 0x0C#8 .rl0 c s) ∧
        runSteps 1 (scheduled (engTurns 1 ++ rest) (accepted 0x0C#8 .rl0 c s)) =
          .next { answered 0x0C#8 .ok c s with
                  sched := rest, eng := { (answered 0x0C#8 .ok c s).eng with guard := .none } })

/-- The guard changes only at `AQ0`, `RL0` and `AB0`, and at Reset (42_guard R150): it begins with LOCK as read, and where RELEASE
or the abort sequence ends it the flash is locked if it was locked at acquisition (R156; derived there). -/
def Obligations.GuardBeginsAndEndsByRule : Prop :=
  ∀ s t : State, s.Inv → step s = .next t →
    (s.eng.guard = .none → t.eng.guard ≠ .none →
      agentOf s = .eng ∧ s.eng.phase = .aq0 ∧ t.eng.guard = .held s.regs.lock) ∧
      ∀ b, s.eng.guard = .held b →
        t.eng.guard = .held b ∨
          (agentOf s = .eng ∧ (s.eng.phase = .rl0 ∨ s.eng.phase = .ab0) ∧ t.eng.guard = .none ∧
            t.regs.lock = (b || s.regs.lock)) ∨
          (agentOf s = .reset ∧ t.eng.guard = .none ∧ t.regs.lock = true)

/-! ### The array: loads, stores and programming -/

/-- `LD32` (43_native_access R160; the wait on BSY is D27): the word of the four bytes at the address in the order `ENDIAN`
gives, with no other effect, whatever LOCK, the control bits and the error flags are; while BSY is 1 it does not complete; off
a word of the array it is refused (93 U11). -/
def Obligations.LoadReturnsTheArrayWord : Prop :=
  ∀ (s : State) (x v : Word) (o : Nat), o = x.toNat - s.cfg.origin →
    (x.toNat % 4 = 0 ∧ s.cfg.origin ≤ x.toNat ∧ x.toNat + 4 ≤ s.cfg.origin + s.cfg.flashBytes →
      (s.regs.bsy = true → exec (.ld32 x v) s = .next { s with reply := .waiting }) ∧
      (s.regs.bsy = false → ∃ w, exec (.ld32 x v) s = .next { s with reply := .data w } ∧
        (s.cfg.endian = .little → w = Memory.read s.regs.arr (o + 3) ++ Memory.read s.regs.arr (o + 2) ++
          Memory.read s.regs.arr (o + 1) ++ Memory.read s.regs.arr o) ∧
        (s.cfg.endian = .big → w = Memory.read s.regs.arr o ++ Memory.read s.regs.arr (o + 1) ++
          Memory.read s.regs.arr (o + 2) ++ Memory.read s.regs.arr (o + 3)))) ∧
    (¬(x.toNat % 4 = 0 ∧ s.cfg.origin ≤ x.toNat ∧ x.toNat + 4 ≤ s.cfg.origin + s.cfg.flashBytes) →
      exec (.ld32 x v) s = .refused .busAddress)

/-- `MOD_CR(PG, v)` (43_native_access R166; D12, D37): PG written whatever LOCK is, and clearing it drops a partly filled write
buffer; refused while BSY is 1 (93 U5). -/
def Obligations.ProgramEnableIsWritten : Prop :=
  ∀ (s : State) (v : Word),
    (s.regs.bsy = false →
      exec (.modCrPg v) s = .next { s with
        reply := .done
        regs := { s.regs with pg := v.getLsbD 0, wcnt := if v.getLsbD 0 then s.regs.wcnt else 0 } }) ∧
      (s.regs.bsy = true → exec (.modCrPg v) s = .refused .controlWhileBusy)

/-- `ST32` where it has an effect (43_native_access R161 to R164; D12, D16, D18). Locked: WRPERR and nothing else. Unlocked with
PG alone set and the next word of its unit: the word goes into the write buffer, and the unit's last word starts the
programming operation and empties the buffer. The array is untouched in every case. -/
def Obligations.StoreFillsTheWriteBuffer : Prop :=
  ∀ (s : State) (x v : Word) (o k : Nat), s.cfg.Valid → RegsInv s.cfg s.regs → o = x.toNat - s.cfg.origin →
    k = (o % s.cfg.nu) / 4 → x.toNat % 4 = 0 → s.cfg.origin ≤ x.toNat →
    x.toNat + 4 ≤ s.cfg.origin + s.cfg.flashBytes → s.regs.bsy = false →
    (s.regs.lock = true →
      exec (.st32 x v) s = .next { s with reply := .done, regs := { s.regs with wrpErr := true } }) ∧
      (s.regs.lock = false → s.regs.pg = true → s.regs.per = false → s.regs.mer1 = false → k = s.regs.wcnt →
        s.regs.wcnt = 0 ∨ o - o % s.cfg.nu = s.regs.wbase →
        (k + 1 < s.cfg.nu / 4 →
          exec (.st32 x v) s = .next { s with
            reply := .done
            regs := { s.regs with
              wbuf := s.regs.wbuf.set k v, wbase := o - o % s.cfg.nu, wcnt := s.regs.wcnt + 1 } }) ∧
        (k + 1 = s.cfg.nu / 4 →
          exec (.st32 x v) s = .next { s with
            reply := .done
            regs := { s.regs with
              wbuf := s.regs.wbuf.set k v, wbase := o - o % s.cfg.nu, wcnt := 0, bsy := true
              inflight := some (.prog (o - o % s.cfg.nu) (s.regs.wbuf.set k v)) } }))

/-- `ST32` where the spec gives it no effect (43_native_access R161, R64 and 93 U2, U3, U4, U11): it is refused, by a name that
says which. The order of the names where several apply is the model's (log 11). -/
def Obligations.StoreIsRefusedWhereUndefined : Prop :=
  ∀ (s : State) (x v : Word) (o : Nat), o = x.toNat - s.cfg.origin →
    (¬(x.toNat % 4 = 0 ∧ s.cfg.origin ≤ x.toNat ∧ x.toNat + 4 ≤ s.cfg.origin + s.cfg.flashBytes) →
      exec (.st32 x v) s = .refused .busAddress) ∧
    (x.toNat % 4 = 0 ∧ s.cfg.origin ≤ x.toNat ∧ x.toNat + 4 ≤ s.cfg.origin + s.cfg.flashBytes →
      (s.regs.bsy = true → exec (.st32 x v) s = .refused .storeWhileBusy) ∧
      (s.regs.bsy = false → s.regs.lock = false →
        (s.regs.pg = false ∨ s.regs.per = true ∨ s.regs.mer1 = true →
          exec (.st32 x v) s = .refused .storeNotEnabled) ∧
        (s.regs.pg = true ∧ s.regs.per = false ∧ s.regs.mer1 = false →
          (o % s.cfg.nu) / 4 ≠ s.regs.wcnt ∨ 0 < s.regs.wcnt ∧ o - o % s.cfg.nu ≠ s.regs.wbase →
          exec (.st32 x v) s = .refused .storeOutOfOrder)))

/-- FOP completing a programming operation (43_native_access R165; the exact conditions and the precedence of WRPERR are the
spec's, D17 and D18): a protected page sets WRPERR and changes no byte; an erased unit gets the words' bytes in the order
`ENDIAN` gives; any other unit sets PROGERR and its bytes are free (93 U9, log 8). No byte outside the unit changes, BSY falls,
and no other register changes. -/
def Obligations.ProgrammingCompletes : Prop :=
  ∀ (s : State) (o : Nat) (ws : List Word), s.cfg.Valid → Memory.wf s.regs.arr = true → agentOf s = .fop →
    s.regs.inflight = some (.prog o ws) →
    ∃ t, step s = .next t ∧
      t = { s with
            sched := s.sched.tail, draws := s.draws + 1
            regs := { s.regs with
              bsy := false, inflight := none, progErr := t.regs.progErr, wrpErr := t.regs.wrpErr
              arr := t.regs.arr } } ∧
      Memory.wf t.regs.arr = true ∧
      (∀ m, ¬(o ≤ m ∧ m < o + s.cfg.nu) → Memory.read t.regs.arr m = Memory.read s.regs.arr m) ∧
      (o / s.cfg.pageSize ∈ s.cfg.wp →
        t.regs.wrpErr = true ∧ t.regs.progErr = s.regs.progErr ∧ t.regs.arr = s.regs.arr) ∧
      (o / s.cfg.pageSize ∉ s.cfg.wp → (∀ m < s.cfg.nu, Memory.read s.regs.arr (o + m) = 0xFF#8) →
        t.regs.wrpErr = s.regs.wrpErr ∧ t.regs.progErr = s.regs.progErr ∧
        ∀ m < s.cfg.nu,
          Memory.read t.regs.arr (o + m) = (bytesOf s.cfg.endian (ws.getD (m / 4) 0#32)).getD (m % 4) 0#8) ∧
      (o / s.cfg.pageSize ∉ s.cfg.wp → (∃ m < s.cfg.nu, Memory.read s.regs.arr (o + m) ≠ 0xFF#8) →
        t.regs.wrpErr = s.regs.wrpErr ∧ t.regs.progErr = true)

/-- 43_native_access R167: the checks decide; then NU/4 loads at ascending addresses, and the answer is the unit's bytes as the
array has them, under either byte order, locked or not and with error flags set or not; while BSY is 1 the load waits. -/
def Obligations.ReadNativeReturnsTheUnit : Prop :=
  ∀ (s : State) (c : CmdArgs) (rest : List Agent), s.cfg.Valid → s.eng.phase = .idle →
    (¬(c.a.toNat % s.cfg.nu = 0 ∧ s.cfg.origin ≤ c.a.toNat ∧
        c.a.toNat + s.cfg.nu ≤ s.cfg.origin + s.cfg.flashBytes) →
      exec (.readNative c) s = .next (violated 0x05#8 c s)) ∧
    (c.a.toNat % s.cfg.nu = 0 → s.cfg.origin ≤ c.a.toNat →
      c.a.toNat + s.cfg.nu ≤ s.cfg.origin + s.cfg.flashBytes →
      exec (.readNative c) s = .next (accepted 0x05#8 .rn0 c s) ∧
      (s.regs.bsy = false →
        runSteps (s.cfg.nu / 4) (scheduled (engTurns (s.cfg.nu / 4) ++ rest) (accepted 0x05#8 .rn0 c s)) =
          .next { answered 0x05#8 .okData c s with
                  reply := .data (loadWord s.cfg s.regs.arr (c.a.toNat - s.cfg.origin + s.cfg.nu - 4))
                  sched := rest
                  eng := { (answered 0x05#8 .okData c s).eng with
                    j := s.cfg.nu / 4
                    out := Memory.readBytes s.regs.arr (c.a.toNat - s.cfg.origin) s.cfg.nu } }) ∧
      (s.regs.bsy = true →
        runSteps 1 (scheduled (engTurns 1 ++ rest) (accepted 0x05#8 .rn0 c s)) =
          .next { accepted 0x05#8 .rn0 c s with reply := .waiting, sched := rest })) ∧
    ∀ u : State, u.eng.phase = .rn0 →
      transaction u = some (.ld32 (BitVec.ofNat 32 (u.eng.a.toNat + 4 * u.eng.j)) 0#32)

/-- WRITE_NATIVE on an erased, unprotected unit, unlocked, under a guard, from a clean entry (43_native_access R168, R165, R170,
70_reset R279; conditions D16 to D18 and D21 are the spec's): whatever number of POLL reads finds BSY = 1, the command answers
`Ok`, the unit holds the payload byte for byte under either byte order, and of the rest of the register layer only the write
buffer's `wbase` and `wbuf`, which mean nothing while `wcnt = 0`, are other than before. -/
def Obligations.WriteNativeProgramsTheUnit : Prop :=
  ∀ (s : State) (c : CmdArgs) (b : Bool) (k o : Nat) (rest : List Agent), s.cfg.Valid → RegsInv s.cfg s.regs →
    s.CleanEntry → s.regs.lock = false → s.eng.guard = .held b → c.a.toNat % s.cfg.nu = 0 →
    s.cfg.origin ≤ c.a.toNat → c.a.toNat + s.cfg.nu ≤ s.cfg.origin + s.cfg.flashBytes → c.pay.length = s.cfg.nu →
    o = c.a.toNat - s.cfg.origin → o / s.cfg.pageSize ∉ s.cfg.wp →
    (∀ m < s.cfg.nu, Memory.read s.regs.arr (o + m) = 0xFF#8) → Affordable s.cfg k →
    exec (.writeNative c) s = .next (accepted 0x06#8 .wn0 c s) ∧
      ∃ t, runSteps (2 + s.cfg.nu / 4 + k + 4)
          (scheduled (fopAfter (2 + s.cfg.nu / 4 + k) 3 ++ rest) (accepted 0x06#8 .wn0 c s)) = .next t ∧
        t = { answered 0x06#8 .ok c s with
              reply := .data (srWord s.cfg s.regs), sched := rest, draws := s.draws + 1
              eng := { (answered 0x06#8 .ok c s).eng with j := s.cfg.nu / 4, polls := k }
              regs := { s.regs with
                wbase := o, wbuf := t.regs.wbuf, arr := Memory.writeBytes s.regs.arr o c.pay } } ∧
        (∀ m < s.cfg.nu, Memory.read t.regs.arr (o + m) = c.pay.getD m 0#8) ∧
        ∀ m, ¬(o ≤ m ∧ m < o + s.cfg.nu) → Memory.read t.regs.arr m = Memory.read s.regs.arr m

/-- WRITE_NATIVE, and WRITE at its first stride, on a locked flash, whatever the key checker's state (43_native_access R171,
derived there; 44_buffered_access R192, R195; D21): every store sets WRPERR and stores nothing, no operation starts, and the
command answers `Err(ProgrammingError)` with PG cleared and the array as it was. That WRITE leaves the error in `carry` is the
model's reading (log 14). -/
def Obligations.WritesOnLockedFlashFail : Prop :=
  ∀ (s : State) (c : CmdArgs) (b : Bool) (rest : List Agent), s.cfg.Valid → s.QuietEntry → s.regs.lock = true →
    s.eng.guard = .held b → c.a.toNat % s.cfg.nu = 0 → s.cfg.origin ≤ c.a.toNat →
    (c.a.toNat + s.cfg.nu ≤ s.cfg.origin + s.cfg.flashBytes → c.pay.length = s.cfg.nu →
      exec (.writeNative c) s = .next (accepted 0x06#8 .wn0 c s) ∧
        runSteps (5 + s.cfg.nu / 4)
            (scheduled (engTurns (5 + s.cfg.nu / 4) ++ rest) (accepted 0x06#8 .wn0 c s)) =
          .next { answered 0x06#8 (.err .programmingError) c s with
                  reply := .data (srWord s.cfg { s.regs with wrpErr := true }), sched := rest
                  eng := { (answered 0x06#8 (.err .programmingError) c s).eng with j := s.cfg.nu / 4 }
                  regs := { s.regs with wrpErr := true } }) ∧
    (c.n.toNat % s.cfg.nu = 0 → 0 < c.n.toNat → c.a.toNat + c.n.toNat ≤ s.cfg.origin + s.cfg.flashBytes →
      c.pay.length = c.n.toNat →
      exec (.write c) s = .next (accepted 0x08#8 .wr0 c s) ∧
        runSteps (6 + s.cfg.nu / 4)
            (scheduled (engTurns (6 + s.cfg.nu / 4) ++ rest) (accepted 0x08#8 .wr0 c s)) =
          .next { answered 0x08#8 (.err .programmingError) c s with
                  reply := .data (srWord s.cfg { s.regs with wrpErr := true }), sched := rest
                  eng := { (answered 0x08#8 (.err .programmingError) c s).eng with
                    j := s.cfg.nu / 4, carry := .err .programmingError }
                  regs := { s.regs with wrpErr := true } })

/-- A native write that FOP cannot carry out (43_native_access R165, R168 corner cases a and b; D17, D18, D21): on a unit that is
not erased PROGERR is set and only that unit's bytes may change; on a protected page WRPERR is set and no byte changes. Both
answer `Err(ProgrammingError)` with PG cleared. For WRITE_NATIVE it is its one unit. For WRITE it is the stride after any number
of strides that succeed (44_buffered_access R192, R193; the derived part of R193 included): the first error ends the command,
the strides before hold their payload, the failing unit is as just said and every byte after it is unchanged. A stride that
spends the poll budget (41_status R144; D23) answers `Err(Timeout)` in the same way, its unit unchanged and its operation,
with the payload's bytes, still in flight. -/
def Obligations.WritesReportFailure : Prop :=
  ∀ (s : State) (c : CmdArgs) (b : Bool) (k o : Nat) (rest : List Agent), s.cfg.Valid → RegsInv s.cfg s.regs →
    s.CleanEntry → s.regs.lock = false → s.eng.guard = .held b → c.a.toNat % s.cfg.nu = 0 →
    s.cfg.origin ≤ c.a.toNat → o = c.a.toNat - s.cfg.origin →
    (c.a.toNat + s.cfg.nu ≤ s.cfg.origin + s.cfg.flashBytes → c.pay.length = s.cfg.nu → Affordable s.cfg k →
      (o / s.cfg.pageSize ∈ s.cfg.wp ∨ ∃ m < s.cfg.nu, Memory.read s.regs.arr (o + m) ≠ 0xFF#8) →
      ∃ t, runSteps (2 + s.cfg.nu / 4 + k + 4)
          (scheduled (fopAfter (2 + s.cfg.nu / 4 + k) 3 ++ rest) (accepted 0x06#8 .wn0 c s)) = .next t ∧
        t.eng.rsp = 0x03#8 ∧ t.eng.phase = .idle ∧ t.eng.guard = .held b ∧
        t.regs = { s.regs with
          progErr := t.regs.progErr, wrpErr := t.regs.wrpErr, arr := t.regs.arr
          wbase := o, wbuf := t.regs.wbuf } ∧
        (o / s.cfg.pageSize ∈ s.cfg.wp →
          t.regs.wrpErr = true ∧ t.regs.progErr = false ∧ t.regs.arr = s.regs.arr) ∧
        (o / s.cfg.pageSize ∉ s.cfg.wp →
          t.regs.wrpErr = false ∧ t.regs.progErr = true ∧
          ∀ m, ¬(o ≤ m ∧ m < o + s.cfg.nu) → Memory.read t.regs.arr m = Memory.read s.regs.arr m)) ∧
    ∀ (ks : List Nat) (u : Nat), c.n.toNat % s.cfg.nu = 0 → c.a.toNat + c.n.toNat ≤ s.cfg.origin + s.cfg.flashBytes →
      c.pay.length = c.n.toNat → u = o + ks.length * s.cfg.nu → ks.length < c.n.toNat / s.cfg.nu →
      (∀ m < ks.length * s.cfg.nu,
        (o + m) / s.cfg.pageSize ∉ s.cfg.wp ∧ Memory.read s.regs.arr (o + m) = 0xFF#8) →
      (∀ q ∈ ks, Affordable s.cfg q) →
      (Affordable s.cfg k →
        (u / s.cfg.pageSize ∈ s.cfg.wp ∨ ∃ m < s.cfg.nu, Memory.read s.regs.arr (u + m) ≠ 0xFF#8) →
        ∃ t, runSteps (ks.flatMap (strideTurns s.cfg) ++ strideTurns s.cfg k).length
            (scheduled (ks.flatMap (strideTurns s.cfg) ++ strideTurns s.cfg k ++ rest) (accepted 0x08#8 .wr0 c s)) =
              .next t ∧
          t.eng.rsp = 0x03#8 ∧ t.eng.phase = .idle ∧ t.eng.guard = .held b ∧ t.sched = rest ∧
          t.regs = { s.regs with
            progErr := t.regs.progErr, wrpErr := t.regs.wrpErr, arr := t.regs.arr
            wbase := u, wbuf := t.regs.wbuf } ∧
          (∀ m < ks.length * s.cfg.nu, Memory.read t.regs.arr (o + m) = c.pay.getD m 0#8) ∧
          (∀ m, ¬(o ≤ m ∧ m < u + s.cfg.nu) → Memory.read t.regs.arr m = Memory.read s.regs.arr m) ∧
          (u / s.cfg.pageSize ∈ s.cfg.wp →
            t.regs.wrpErr = true ∧ t.regs.progErr = false ∧
            ∀ m < s.cfg.nu, Memory.read t.regs.arr (u + m) = Memory.read s.regs.arr (u + m)) ∧
          (u / s.cfg.pageSize ∉ s.cfg.wp → t.regs.wrpErr = false ∧ t.regs.progErr = true)) ∧
      ∀ budget, s.cfg.pollBudget = some budget →
        ∃ t, runSteps (ks.flatMap (strideTurns s.cfg) ++ engTurns (3 + s.cfg.nu / 4 + budget)).length
            (scheduled (ks.flatMap (strideTurns s.cfg) ++ engTurns (3 + s.cfg.nu / 4 + budget) ++ rest)
              (accepted 0x08#8 .wr0 c s)) = .next t ∧
          t.eng.rsp = 0x02#8 ∧ t.eng.phase = .idle ∧ t.eng.guard = .held b ∧ t.sched = rest ∧
          t.regs = { s.regs with
            pg := true, bsy := true, inflight := some (.prog u t.regs.wbuf), arr := t.regs.arr
            wbase := u, wbuf := t.regs.wbuf } ∧
          unitBytes s.cfg t.regs.wbuf = (c.pay.drop (ks.length * s.cfg.nu)).take s.cfg.nu ∧
          (∀ m < ks.length * s.cfg.nu, Memory.read t.regs.arr (o + m) = c.pay.getD m 0#8) ∧
          ∀ m, ¬(o ≤ m ∧ m < u) → Memory.read t.regs.arr m = Memory.read s.regs.arr m

/-! ### READ and WRITE -/

/-- 44_buffered_access R191: the checks decide; then N/4 loads at ascending addresses and one step without a transaction, and
the answer is the range's bytes as the array has them, locked or not and with error flags set or not; a range of length 0
takes that last step alone; while BSY is 1 a load waits. -/
def Obligations.ReadReturnsTheRange : Prop :=
  ∀ (s : State) (c : CmdArgs) (rest : List Agent), s.cfg.Valid → s.eng.phase = .idle →
    (¬(c.a.toNat % s.cfg.nu = 0 ∧ c.n.toNat % s.cfg.nu = 0 ∧ s.cfg.origin ≤ c.a.toNat ∧
        c.a.toNat + c.n.toNat ≤ s.cfg.origin + s.cfg.flashBytes) →
      exec (.read c) s = .next (violated 0x07#8 c s)) ∧
    (c.a.toNat % s.cfg.nu = 0 → c.n.toNat % s.cfg.nu = 0 → s.cfg.origin ≤ c.a.toNat →
      c.a.toNat + c.n.toNat ≤ s.cfg.origin + s.cfg.flashBytes →
      exec (.read c) s = .next (accepted 0x07#8 .rd0 c s) ∧
      (s.regs.bsy = false ∨ c.n = 0#32 →
        runSteps (c.n.toNat / 4 + 1)
            (scheduled (engTurns (c.n.toNat / 4 + 1) ++ rest) (accepted 0x07#8 .rd0 c s)) =
          .next { answered 0x07#8 .okData c s with
                  sched := rest
                  eng := { (answered 0x07#8 .okData c s).eng with
                    i := c.n.toNat / s.cfg.nu
                    out := Memory.readBytes s.regs.arr (c.a.toNat - s.cfg.origin) c.n.toNat } }) ∧
      (s.regs.bsy = true → c.n ≠ 0#32 →
        runSteps 1 (scheduled (engTurns 1 ++ rest) (accepted 0x07#8 .rd0 c s)) =
          .next { accepted 0x07#8 .rd0 c s with reply := .waiting, sched := rest })) ∧
    ∀ u : State, u.eng.phase = .rd0 →
      (u.eng.i = u.eng.n.toNat / u.cfg.nu → transaction u = none) ∧
      (u.eng.i ≠ u.eng.n.toNat / u.cfg.nu → transaction u =
        some (.ld32 (BitVec.ofNat 32 (u.eng.a.toNat + u.eng.i * u.cfg.nu + 4 * u.eng.j)) 0#32))

/-- WRITE over an erased, unprotected range, unlocked, under a guard, from a clean entry (44_buffered_access R192,
43_native_access R165, R168, 70_reset R279; conditions D16 to D18 and D21 are the spec's, log 17): whatever number of POLL
reads each stride makes, the command answers `Ok` and the range holds the payload byte for byte; no other byte of the array
changes, and of the rest of the register layer only `wbase` and `wbuf`, which mean nothing while `wcnt = 0`, may differ. A
stride that fails is `WritesReportFailure`. -/
def Obligations.WriteProgramsTheRange : Prop :=
  ∀ (s : State) (c : CmdArgs) (b : Bool) (ks : List Nat) (o : Nat) (rest : List Agent), s.cfg.Valid →
    RegsInv s.cfg s.regs → s.CleanEntry → s.regs.lock = false → s.eng.guard = .held b → c.a.toNat % s.cfg.nu = 0 →
    c.n.toNat % s.cfg.nu = 0 → s.cfg.origin ≤ c.a.toNat → c.a.toNat + c.n.toNat ≤ s.cfg.origin + s.cfg.flashBytes →
    c.pay.length = c.n.toNat → o = c.a.toNat - s.cfg.origin →
    (∀ m < c.n.toNat, (o + m) / s.cfg.pageSize ∉ s.cfg.wp ∧ Memory.read s.regs.arr (o + m) = 0xFF#8) →
    ks.length = c.n.toNat / s.cfg.nu → (∀ k ∈ ks, Affordable s.cfg k) →
    exec (.write c) s = .next (accepted 0x08#8 .wr0 c s) ∧
      ∃ t, runSteps (writeTurns s.cfg ks).length
          (scheduled (writeTurns s.cfg ks ++ rest) (accepted 0x08#8 .wr0 c s)) = .next t ∧
        t.eng.rsp = 0x00#8 ∧ t.eng.phase = .idle ∧ t.eng.guard = .held b ∧ t.cfg = s.cfg ∧ t.cmds = s.cmds ∧
        t.sched = rest ∧
        t.regs = { s.regs with
          wbase := t.regs.wbase, wbuf := t.regs.wbuf, arr := Memory.writeBytes s.regs.arr o c.pay } ∧
        (∀ m < c.n.toNat, Memory.read t.regs.arr (o + m) = c.pay.getD m 0#8) ∧
        ∀ m, ¬(o ≤ m ∧ m < o + c.n.toNat) → Memory.read t.regs.arr m = Memory.read s.regs.arr m

/-- The round trip (95_test_vectors S4, 20_memory R72; WRITE's conditions D16 to D18 and D21 are the spec's, log 17): under the
premises of S4, WRITE answers `Ok`, and READ of the same range presented right after it answers with exactly the bytes
written, for every parameter set, byte order, address, length and number of POLL reads. -/
def Obligations.WriteThenReadReturnsTheBytes : Prop :=
  ∀ (s : State) (c d : CmdArgs) (b : Bool) (ks : List Nat) (o : Nat) (rest : List Agent), s.cfg.Valid →
    RegsInv s.cfg s.regs → s.CleanEntry → s.regs.lock = false → s.eng.guard = .held b → c.a.toNat % s.cfg.nu = 0 →
    c.n.toNat % s.cfg.nu = 0 → s.cfg.origin ≤ c.a.toNat → c.a.toNat + c.n.toNat ≤ s.cfg.origin + s.cfg.flashBytes →
    c.pay.length = c.n.toNat → o = c.a.toNat - s.cfg.origin →
    (∀ m < c.n.toNat, (o + m) / s.cfg.pageSize ∉ s.cfg.wp ∧ Memory.read s.regs.arr (o + m) = 0xFF#8) →
    ks.length = c.n.toNat / s.cfg.nu → (∀ k ∈ ks, Affordable s.cfg k) → d.a = c.a → d.n = c.n →
    ∃ t u, runSteps (writeTurns s.cfg ks).length
        (scheduled (writeTurns s.cfg ks ++ engTurns (c.n.toNat / 4 + 1) ++ rest) (accepted 0x08#8 .wr0 c s)) =
          .next t ∧
      t.eng.rsp = 0x00#8 ∧ exec (.read d) t = .next u ∧
      ∃ v, runSteps (c.n.toNat / 4 + 1) u = .next v ∧ v.eng.phase = .idle ∧ v.eng.rsp = 0x00#8 ∧
        v.eng.out = c.pay ∧ v.sched = rest

/-- A range of length 0 (44_buffered_access R194, derived there): READ answers `Ok` with no bytes and WRITE answers `Ok`, each
in one step without a transaction and with no change of the register layer, even while SR shows an error or BSY. -/
def Obligations.EmptyRangeTouchesNothing : Prop :=
  ∀ (s : State) (c : CmdArgs) (rest : List Agent), s.eng.phase = .idle → c.n = 0#32 → c.a.toNat % s.cfg.nu = 0 →
    s.cfg.origin ≤ c.a.toNat → c.a.toNat ≤ s.cfg.origin + s.cfg.flashBytes →
    (exec (.read c) s = .next (accepted 0x07#8 .rd0 c s) ∧
      runSteps 1 (scheduled (engTurns 1 ++ rest) (accepted 0x07#8 .rd0 c s)) =
        .next { answered 0x07#8 .okData c s with sched := rest }) ∧
      ∀ b, s.eng.guard = .held b → c.pay = [] →
        exec (.write c) s = .next (accepted 0x08#8 .wr0 c s) ∧
          runSteps 1 (scheduled (engTurns 1 ++ rest) (accepted 0x08#8 .wr0 c s)) =
            .next { answered 0x08#8 .ok c s with sched := rest }

/-! ### Erasing -/

/-- `MOD_CR` of PER, MER1 and PNB (45_erase R200 to R202; that LOCK does not stop them is D12): the field is written and nothing
else changes; refused while BSY is 1 (93 U5). -/
def Obligations.EraseControlsAreWritten : Prop :=
  ∀ (s : State) (v : Word),
    (s.regs.bsy = false →
      exec (.modCrPer v) s = .next { s with reply := .done, regs := { s.regs with per := v.getLsbD 0 } } ∧
      exec (.modCrMer1 v) s = .next { s with reply := .done, regs := { s.regs with mer1 := v.getLsbD 0 } } ∧
      ∃ p : Word, exec (.modCrPnb v) s = .next { s with reply := .done, regs := { s.regs with pnb := p } } ∧
        p.toNat = v.toNat % 2 ^ s.cfg.pnbWidth) ∧
    (s.regs.bsy = true →
      exec (.modCrPer v) s = .refused .controlWhileBusy ∧ exec (.modCrMer1 v) s = .refused .controlWhileBusy ∧
      exec (.modCrPnb v) s = .refused .controlWhileBusy)

/-- `MOD_CR(START, v)` where it has an effect (45_erase R203, R204, R205, R207; D12, D15, D18): a written 0 does nothing; a
written 1 starts the operation that exactly one of PER and MER1 arms and raises BSY in the same step; locked, it sets WRPERR
and starts nothing. CR and the array do not change. -/
def Obligations.StartTriggersWhatIsArmed : Prop :=
  ∀ (s : State) (v : Word),
    (v.getLsbD 0 = false → exec (.modCrStart v) s = .next { s with reply := .done }) ∧
    (v.getLsbD 0 = true → s.regs.bsy = false →
      (s.regs.lock = true →
        exec (.modCrStart v) s = .next { s with reply := .done, regs := { s.regs with wrpErr := true } }) ∧
      (s.regs.lock = false → s.regs.pg = false →
        (s.regs.per = true → s.regs.mer1 = false → s.regs.pnb.toNat < s.cfg.pageCount →
          exec (.modCrStart v) s = .next { s with
            reply := .done
            regs := { s.regs with bsy := true, inflight := some (.erasePage s.regs.pnb.toNat) } }) ∧
        (s.regs.mer1 = true → s.regs.per = false →
          exec (.modCrStart v) s = .next { s with
            reply := .done, regs := { s.regs with bsy := true, inflight := some .eraseAll } })))

/-- `MOD_CR(START, 1)` where the spec gives it no effect (45_erase R206; 93 U6, U7, U8): it is refused, by a name that says
which. The order of the names where several apply, BSY first and the enables before the page index, is the model's (log 11). -/
def Obligations.StartIsRefusedWhereUndefined : Prop :=
  ∀ (s : State) (v : Word), v.getLsbD 0 = true →
    (s.regs.bsy = true → exec (.modCrStart v) s = .refused .startWhileBusy) ∧
    (s.regs.bsy = false → s.regs.lock = false →
      (s.regs.pg = true ∨ s.regs.per = s.regs.mer1 → exec (.modCrStart v) s = .refused .startNotArmed) ∧
      (s.regs.pg = false → s.regs.per = true → s.regs.mer1 = false → s.cfg.pageCount ≤ s.regs.pnb.toNat →
        exec (.modCrStart v) s = .refused .startPageOutOfRange))

/-- FOP completing an erase (45_erase R208, R209; the protected cases are D18): the page, or the whole array, reads 0xFF and no
byte outside it changes; a protected page, or for a mass erase any protected page, sets WRPERR and no byte changes. BSY falls
and no other register changes. -/
def Obligations.ErasingCompletes : Prop :=
  ∀ s : State, agentOf s = .fop → Memory.wf s.regs.arr = true → ∀ f, s.regs.inflight = some f →
    (∀ p, f = .erasePage p →
      ∃ t, step s = .next t ∧
        t = { s with
              sched := s.sched.tail, draws := s.draws + 1
              regs := { s.regs with
                bsy := false, inflight := none, wrpErr := t.regs.wrpErr, arr := t.regs.arr } } ∧
        Memory.wf t.regs.arr = true ∧
        (p ∈ s.cfg.wp → t.regs.wrpErr = true ∧ t.regs.arr = s.regs.arr) ∧
        (p ∉ s.cfg.wp → t.regs.wrpErr = s.regs.wrpErr ∧
          ∀ m, Memory.read t.regs.arr m =
            if p * s.cfg.pageSize ≤ m ∧ m < p * s.cfg.pageSize + s.cfg.pageSize then 0xFF#8
            else Memory.read s.regs.arr m)) ∧
    (f = .eraseAll →
      ∃ t, step s = .next t ∧
        t = { s with
              sched := s.sched.tail, draws := s.draws + 1
              regs := { s.regs with
                bsy := false, inflight := none, wrpErr := t.regs.wrpErr, arr := t.regs.arr } } ∧
        Memory.wf t.regs.arr = true ∧
        (s.cfg.wp ≠ [] → t.regs.wrpErr = true ∧ t.regs.arr = s.regs.arr) ∧
        (s.cfg.wp = [] → t.regs.wrpErr = s.regs.wrpErr ∧
          ∀ m, Memory.read t.regs.arr m =
            if m < s.cfg.flashBytes then 0xFF#8 else Memory.read s.regs.arr m))

/-- ERASE_PAGE of an unprotected page, unlocked, under a guard, from a clean entry (45_erase R210, R208, 70_reset R279; the last
read's mapping is D22): whatever number of POLL reads finds BSY = 1, the command answers `Ok`, the page reads 0xFF and no other
byte changes, PER is clear again and PNB holds the page index. -/
def Obligations.ErasePageErasesThePage : Prop :=
  ∀ (s : State) (c : CmdArgs) (b : Bool) (k : Nat) (rest : List Agent), s.cfg.Valid → s.CleanEntry →
    s.regs.lock = false → s.eng.guard = .held b → c.a.toNat < s.cfg.pageCount → c.a.toNat ∉ s.cfg.wp →
    Affordable s.cfg k →
    exec (.erasePage c) s = .next (accepted 0x09#8 .ep0 c s) ∧
      ∃ t, runSteps (4 + k + 4) (scheduled (fopAfter (4 + k) 3 ++ rest) (accepted 0x09#8 .ep0 c s)) = .next t ∧
        t = { answered 0x09#8 .ok c s with
              reply := .data (srWord s.cfg s.regs), sched := rest, draws := s.draws + 1
              eng := { (answered 0x09#8 .ok c s).eng with polls := k }
              regs := { s.regs with pnb := c.a, arr := t.regs.arr } } ∧
        ∀ m, Memory.read t.regs.arr m =
          if c.a.toNat * s.cfg.pageSize ≤ m ∧ m < c.a.toNat * s.cfg.pageSize + s.cfg.pageSize then 0xFF#8
          else Memory.read s.regs.arr m

/-- ERASE_ALL with no protected page, unlocked, under a guard, from a clean entry (45_erase R211, R209, 70_reset R279; D22):
whatever number of POLL reads finds BSY = 1, the command answers `Ok`, every byte of the array reads 0xFF, MER1 is clear again
and PNB is as it was. -/
def Obligations.EraseAllErasesTheArray : Prop :=
  ∀ (s : State) (c : CmdArgs) (b : Bool) (k : Nat) (rest : List Agent), s.cfg.Valid → s.CleanEntry →
    s.regs.lock = false → s.eng.guard = .held b → s.cfg.wp = [] → Affordable s.cfg k →
    exec (.eraseAll c) s = .next (accepted 0x0A#8 .ea0 c s) ∧
      ∃ t, runSteps (3 + k + 4) (scheduled (fopAfter (3 + k) 3 ++ rest) (accepted 0x0A#8 .ea0 c s)) = .next t ∧
        t = { answered 0x0A#8 .ok c s with
              reply := .data (srWord s.cfg s.regs), sched := rest, draws := s.draws + 1
              eng := { (answered 0x0A#8 .ok c s).eng with polls := k }
              regs := { s.regs with arr := t.regs.arr } } ∧
        ∀ m, Memory.read t.regs.arr m = if m < s.cfg.flashBytes then 0xFF#8 else Memory.read s.regs.arr m

/-- An erase command that the protection stops, whatever the key checker's state (45_erase R205, R208 to R211; D12, D18, D22):
locked, no operation starts; unlocked with the target protected, FOP refuses it; either way the answer is
`Err(WriteProtectionError)`, WRPERR is set, the enable bit is clear again and no byte of the array changes. -/
def Obligations.ProtectedEraseIsReported : Prop :=
  ∀ (s : State) (c : CmdArgs) (b : Bool) (k : Nat) (rest : List Agent), s.cfg.Valid → s.QuietEntry →
    s.eng.guard = .held b → Affordable s.cfg k →
    (s.regs.lock = true →
      (c.a.toNat < s.cfg.pageCount →
        ∃ t, runSteps 7 (scheduled (engTurns 7 ++ rest) (accepted 0x09#8 .ep0 c s)) = .next t ∧
          t.eng.rsp = 0x04#8 ∧ t.eng.phase = .idle ∧ t.eng.guard = .held b ∧
          t.regs = { s.regs with wrpErr := true, pnb := c.a }) ∧
      ∃ t, runSteps 6 (scheduled (engTurns 6 ++ rest) (accepted 0x0A#8 .ea0 c s)) = .next t ∧
        t.eng.rsp = 0x04#8 ∧ t.eng.phase = .idle ∧ t.eng.guard = .held b ∧
        t.regs = { s.regs with wrpErr := true }) ∧
    (s.regs.lock = false →
      (c.a.toNat ∈ s.cfg.wp →
        ∃ t, runSteps (4 + k + 4) (scheduled (fopAfter (4 + k) 3 ++ rest) (accepted 0x09#8 .ep0 c s)) = .next t ∧
          t.eng.rsp = 0x04#8 ∧ t.eng.phase = .idle ∧ t.eng.guard = .held b ∧
          t.regs = { s.regs with wrpErr := true, pnb := c.a }) ∧
      (s.cfg.wp ≠ [] →
        ∃ t, runSteps (3 + k + 4) (scheduled (fopAfter (3 + k) 3 ++ rest) (accepted 0x0A#8 .ea0 c s)) = .next t ∧
          t.eng.rsp = 0x04#8 ∧ t.eng.phase = .idle ∧ t.eng.guard = .held b ∧
          t.regs = { s.regs with wrpErr := true }))

/-! ### The whole machine -/

/-- Every step of every agent keeps the invariant of the block: BSY is 1 exactly while an operation is in flight (10_state R30),
PNB keeps its width, the write buffer its bounds and the array its canonical form (R26, R36, R38), the engine's operands and
counters are in range in every phase (R49), the key protocol is safe (40_lock_unlock R129), and with `POLL_BUDGET = INF` the
control bits are set only inside the command that sets them (41_status R145). -/
def Obligations.StepKeepsTheInvariant : Prop :=
  ∀ s t : State, s.Inv → step s = .next t → t.Inv

/-- From a state that meets the invariant, with `POLL_BUDGET = INF`, no step is ever refused: the engine reaches none of 93 U2
to U8, U11 and U17 (as 93 says of it; derived there), and where the two keys differ or nothing relocks from outside it is
never stuck in a key write (60_exceptions R239). -/
def Obligations.EngineIsNeverRefused : Prop :=
  ∀ s : State, s.Inv → s.cfg.pollBudget = none →
    (∀ r, step s ≠ .refused r) ∧
      (KeysApart s.cfg → s.reply ≠ .stalled ∧ ∀ t, step s = .next t → t.reply ≠ .stalled)

/-- The array changes only in a step of FOP with work to do, or in a Reset during an operation (10_state R38, 43_native_access
R161, 70_reset R261): no command and no transaction changes a byte of it. -/
def Obligations.ArrayChangesOnlyByOperations : Prop :=
  (∀ (i : Instr) (s t : State), exec i s = .next t → t.regs.arr = s.regs.arr) ∧
    ∀ s t : State, step s = .next t → t.regs.arr ≠ s.regs.arr →
      (agentOf s = .fop ∨ agentOf s = .reset) ∧ s.regs.inflight ≠ none

/-- An error flag that is set stays set until Reset, whoever steps (10_state R31, R32; D19). -/
def Obligations.ErrorFlagsAreSticky : Prop :=
  ∀ s t : State, step s = .next t → agentOf s ≠ .reset →
    (s.regs.progErr = true → t.regs.progErr = true) ∧ (s.regs.wrpErr = true → t.regs.wrpErr = true) ∧
      (s.regs.progErr = false → t.regs.progErr = true →
        agentOf s = .fop ∧ ∃ o ws, s.regs.inflight = some (.prog o ws))

/-- BSY goes from 0 to 1 only in a step of ENG, and from 1 to 0 only in a step of FOP or in a Reset (20_memory R70 c, derived
there from 10_state R30). -/
def Obligations.BusyRisesAndFallsByRule : Prop :=
  ∀ s t : State, step s = .next t →
    (s.regs.bsy = false → t.regs.bsy = true → agentOf s = .eng ∧ t.regs.inflight ≠ none) ∧
      (s.regs.bsy = true → t.regs.bsy = false → agentOf s = .fop ∨ agentOf s = .reset)

/-- The parameters never change, a step consumes one schedule entry, and a command leaves HOST's queue only when HOST presents it
in `IDLE` (10_state R47, 30_encoding R91; the queue and the schedule are the model's, log 4 and 5). -/
def Obligations.ParametersAreFixed : Prop :=
  ∀ s t : State, step s = .next t →
    t.cfg = s.cfg ∧ t.sched = s.sched.tail ∧
      (t.cmds = s.cmds ∨ agentOf s = .host ∧ s.eng.phase = .idle ∧ ∃ c, s.cmds = c :: t.cmds)

/-- The frame of the eleven bus transactions: none touches the engine, the parameters, the queue, the schedule, the array or
PROGERR; the reads touch no register at all (20_memory R66); a control write touches its own field, `kstate` with LOCK and
`wcnt` with PG; a key write touches LOCK and `kstate` alone. -/
def Obligations.TransactionsKeepTheRest : Prop :=
  ∀ (i : Instr) (s t : State), i.format = .bus → exec i s = .next t →
    t = { s with regs := t.regs, reply := t.reply } ∧ t.regs.progErr = s.regs.progErr ∧
      (∀ m, Memory.read t.regs.arr m = Memory.read s.regs.arr m) ∧
      (∀ x v, i = .rdCr x v ∨ i = .rdSr x v ∨ i = .ld32 x v → t.regs = s.regs) ∧
      (∀ v, i = .modCrLock v → t.regs = { s.regs with lock := t.regs.lock, kstate := t.regs.kstate }) ∧
      (∀ v, i = .modCrPg v → t.regs = { s.regs with pg := t.regs.pg, wcnt := t.regs.wcnt }) ∧
      (∀ v, i = .modCrPer v → t.regs = { s.regs with per := t.regs.per }) ∧
      (∀ v, i = .modCrMer1 v → t.regs = { s.regs with mer1 := t.regs.mer1 }) ∧
      (∀ v, i = .modCrPnb v → t.regs = { s.regs with pnb := t.regs.pnb }) ∧
      (∀ v, i = .modCrStart v →
        t.regs = { s.regs with wrpErr := t.regs.wrpErr, bsy := t.regs.bsy, inflight := t.regs.inflight }) ∧
      (∀ x v, i = .wrKeyr x v → t.regs = { s.regs with lock := t.regs.lock, kstate := t.regs.kstate }) ∧
      ∀ x v, i = .st32 x v →
        t.regs = { s.regs with
          wrpErr := t.regs.wrpErr, bsy := t.regs.bsy, inflight := t.regs.inflight
          wcnt := t.regs.wcnt, wbase := t.regs.wbase, wbuf := t.regs.wbuf }

/-- The frame of the twelve commands: presenting one touches no register of the register layer, no byte of the array, no
parameter and neither queue; of the engine it leaves the guard and RSP as they are, and `carry` but for a contract violation
(30_encoding R91). -/
def Obligations.AcceptanceKeepsTheRest : Prop :=
  ∀ (i : Instr) (s t : State), i.format = .cmd → exec i s = .next t →
    t.cfg = s.cfg ∧ t.regs = s.regs ∧ t.cmds = s.cmds ∧ t.sched = s.sched ∧ t.draws = s.draws ∧
      t.eng.guard = s.eng.guard ∧ t.eng.rsp = s.eng.rsp ∧ (t.eng.carry = s.eng.carry ∨ t.eng.phase = .ab0) ∧
      (∀ m, Memory.read t.regs.arr m = Memory.read s.regs.arr m) ∧
      (s.eng.phase = .idle → t.eng.pay = i.payload)
end

