-- ==== Sys2Proof/Laws/Address.lean ====
section
/-! SUPPORT. Address arithmetic under the constraints of the parameters: units, words of a unit, strides of a range (spec
20_memory R61, R64, R67; 43_native_access section 1; 10_state R49). -/

namespace Sys2Proof.Machine

theorem unitWords_pos {c : Config} (hv : c.Valid) : 0 < unitWords c := by
  have := hv.nu_pos; have := hv.nu_words; unfold unitWords; omega

theorem unitWords_mul {c : Config} (hv : c.Valid) : 4 * unitWords c = c.nu := by
  have := hv.nu_words; unfold unitWords; omega

/-- The origin is a multiple of the unit. -/
theorem nu_dvd_origin {c : Config} (hv : c.Valid) : c.nu ∣ c.origin :=
  Nat.dvd_trans (Nat.dvd_of_mod_eq_zero hv.page_units) (Nat.dvd_of_mod_eq_zero hv.origin_aligned)

/-- The unit of an offset of the array lies in the array, and the word index inside it is a word's. -/
theorem unit_of_offset {c : Config} (hv : c.Valid) {o : Nat} (ho : o < c.flashBytes) :
    UnitOffset c (unitOf c o) ∧ wordIndex c o < unitWords c := by
  have hn := hv.nu_pos
  have hn4 := hv.nu_words
  obtain ⟨q, hq⟩ : c.nu ∣ c.flashBytes := Dvd.dvd.mul_left (Nat.dvd_of_mod_eq_zero hv.page_units) _
  have hm := Nat.mod_lt o hn
  refine ⟨⟨Nat.mod_eq_zero_of_dvd (Nat.dvd_sub_mod o), ?_⟩, ?_⟩
  · have hd : o - o % c.nu = c.nu * (o / c.nu) := by have := Nat.div_add_mod o c.nu; omega
    have hlt : o / c.nu < q := by rw [Nat.div_lt_iff_lt_mul hn, Nat.mul_comm, ← hq]; exact ho
    rw [unitOf, hd, hq]
    calc c.nu * (o / c.nu) + c.nu = c.nu * (o / c.nu + 1) := by ring
      _ ≤ c.nu * q := Nat.mul_le_mul_left _ hlt
  · unfold wordIndex unitWords; omega

theorem offsetOf_lt {c : Config} {x : Word} (h : busAddressOk c x = true) : offsetOf c x + 4 ≤ c.flashBytes := by
  simp only [busAddressOk, inFlash, Bool.and_eq_true, decide_eq_true_eq] at h
  unfold offsetOf; omega

/-- What the address of word `j` of the unit at address `b` is to the bus. -/
structure WordAddress (c : Config) (b j : Nat) : Prop where
  fits : b + 4 * j < 2 ^ 32
  ok : busAddressOk c (BitVec.ofNat 32 (b + 4 * j)) = true
  offset : offsetOf c (BitVec.ofNat 32 (b + 4 * j)) = b - c.origin + 4 * j
  unit : unitOf c (offsetOf c (BitVec.ofNat 32 (b + 4 * j))) = b - c.origin
  index : wordIndex c (offsetOf c (BitVec.ofNat 32 (b + 4 * j))) = j
  base : UnitOffset c (b - c.origin)

theorem wordAddress {c : Config} (hv : c.Valid) {b j : Nat} (ha : b % c.nu = 0) (hlo : c.origin ≤ b)
    (hhi : b + c.nu ≤ c.origin + c.flashBytes) (hj : j < unitWords c) : WordAddress c b j := by
  have hu := unitWords_mul hv
  have hn := hv.nu_pos
  have hf := hv.flash_fits
  have hfit : b + 4 * j < 2 ^ 32 := by omega
  have hnat : (BitVec.ofNat 32 (b + 4 * j)).toNat = b + 4 * j := by
    rw [BitVec.toNat_ofNat, Nat.mod_eq_of_lt hfit]
  have hoff : offsetOf c (BitVec.ofNat 32 (b + 4 * j)) = b - c.origin + 4 * j := by
    rw [offsetOf, hnat]; omega
  have hbase : (b - c.origin) % c.nu = 0 :=
    Nat.mod_eq_zero_of_dvd (Nat.dvd_sub (Nat.dvd_of_mod_eq_zero ha) (nu_dvd_origin hv))
  have hmod : (b - c.origin + 4 * j) % c.nu = 4 * j := by
    rw [Nat.add_mod, hbase, Nat.zero_add, Nat.mod_mod, Nat.mod_eq_of_lt (by omega)]
  have h4 : b % 4 = 0 :=
    Nat.mod_eq_zero_of_dvd (Nat.dvd_trans (Nat.dvd_of_mod_eq_zero hv.nu_words) (Nat.dvd_of_mod_eq_zero ha))
  refine ⟨hfit, ?_, hoff, ?_, ?_, hbase, by omega⟩
  · simp only [busAddressOk, inFlash, hnat, Bool.and_eq_true, decide_eq_true_eq]
    omega
  · rw [hoff, unitOf, hmod]; omega
  · rw [hoff, wordIndex, hmod]; omega

/-- The base address of stride `i` of an accepted range. -/
theorem stride_base {c : Config} {a n : Word} {i : Nat} (ha : addressAligned c a = true)
    (hn : lengthAligned c n = true) (hf : inFlash c a n.toNat = true) (hi : i < n.toNat / c.nu) :
    (a.toNat + i * c.nu) % c.nu = 0 ∧ c.origin ≤ a.toNat + i * c.nu ∧
      a.toNat + i * c.nu + c.nu ≤ c.origin + c.flashBytes := by
  simp only [addressAligned, lengthAligned, inFlash, Bool.and_eq_true, decide_eq_true_eq] at ha hn hf
  have hle : i * c.nu + c.nu ≤ n.toNat := by
    have h1 : (i + 1) * c.nu ≤ n.toNat / c.nu * c.nu := Nat.mul_le_mul_right _ hi
    rw [Nat.div_mul_cancel (Nat.dvd_of_mod_eq_zero hn)] at h1
    rw [Nat.succ_mul] at h1; exact h1
  exact ⟨by rw [Nat.add_mul_mod_self_right]; exact ha, by omega, by omega⟩

/-- The address of an accepted native access. -/
theorem unit_base {c : Config} {a : Word} (ha : addressAligned c a = true) (hf : inFlash c a c.nu = true) :
    a.toNat % c.nu = 0 ∧ c.origin ≤ a.toNat ∧ a.toNat + c.nu ≤ c.origin + c.flashBytes := by
  simpa only [addressAligned, inFlash, Bool.and_eq_true, decide_eq_true_eq] using And.intro ha hf

end Sys2Proof.Machine
end

