-- ==== Sys2Proof/Laws/Bytes.lean ====
section
/-! SUPPORT. `bytes` and `word` are inverse under either byte order (spec 20_memory R63). -/

namespace Sys2Proof.Machine

@[simp] theorem length_bytesOf (e : Endian) (w : Word) : (bytesOf e w).length = 4 := by cases e <;> rfl

/-- The four bytes of a word, from the least significant. -/
theorem extract_append4 (w3 w2 w1 w0 : Byte) :
    ((w3 ++ w2 ++ w1 ++ w0 : Word).extractLsb' 0 8 = w0 ∧ (w3 ++ w2 ++ w1 ++ w0 : Word).extractLsb' 8 8 = w1) ∧
      (w3 ++ w2 ++ w1 ++ w0 : Word).extractLsb' 16 8 = w2 ∧ (w3 ++ w2 ++ w1 ++ w0 : Word).extractLsb' 24 8 = w3 := by
  refine ⟨⟨?_, ?_⟩, ?_, ?_⟩ <;> refine BitVec.eq_of_getLsbD_eq fun k hk => ?_ <;>
    simp only [BitVec.getLsbD_extractLsb', BitVec.getLsbD_append, hk, decide_true, Bool.true_and]
  · rw [if_pos (by omega), Nat.zero_add]
  · rw [if_neg (by omega), if_pos (by omega), Nat.add_sub_cancel_left]
  · rw [if_neg (by omega), if_neg (by omega), if_pos (by omega)]; congr 1; omega
  · rw [if_neg (by omega), if_neg (by omega), if_neg (by omega)]; congr 1; omega

/-- A word is its four bytes put together. -/
theorem append4_extract (w : Word) :
    (w.extractLsb' 24 8 ++ w.extractLsb' 16 8 ++ w.extractLsb' 8 8 ++ w.extractLsb' 0 8 : Word) = w := by
  refine BitVec.eq_of_getLsbD_eq fun k hk => ?_
  simp only [BitVec.getLsbD_extractLsb', BitVec.getLsbD_append]
  by_cases h0 : k < 8
  · simp [h0]
  · by_cases h1 : k < 16
    · have : k - 8 < 8 := by omega
      simp [h0, this]; congr 1; omega
    · by_cases h2 : k < 24
      · have e1 : ¬ k - 8 < 8 := by omega
        have e2 : k - 8 - 8 < 8 := by omega
        simp [h0, e1, e2]; congr 1; omega
      · have e1 : ¬ k - 8 < 8 := by omega
        have e2 : ¬ k - 8 - 8 < 8 := by omega
        have e3 : k - 8 - 8 - 8 < 8 := by omega
        simp [h0, e1, e2, e3]; congr 1; omega

/-- Bytes put together and cut apart again. -/
theorem bytesOf_wordOf (e : Endian) (b0 b1 b2 b3 : Byte) : bytesOf e (wordOf e b0 b1 b2 b3) = [b0, b1, b2, b3] := by
  cases e
  · obtain ⟨⟨h0, h1⟩, h2, h3⟩ := extract_append4 b3 b2 b1 b0
    simp only [bytesOf, wordOf, h0, h1, h2, h3]
  · obtain ⟨⟨h0, h1⟩, h2, h3⟩ := extract_append4 b0 b1 b2 b3
    simp only [bytesOf, wordOf, h0, h1, h2, h3]

/-- A word cut apart and put together again. -/
theorem wordOf_bytesOf (e : Endian) (w : Word) :
    wordOf e ((bytesOf e w).getD 0 0#8) ((bytesOf e w).getD 1 0#8) ((bytesOf e w).getD 2 0#8)
      ((bytesOf e w).getD 3 0#8) = w := by
  cases e <;> exact append4_extract w

/-- The bytes of the loaded word are the bytes of the array (43_native_access R160). -/
theorem bytesOf_loadWord (c : Config) (m : Memory) (o : Nat) :
    bytesOf c.endian (loadWord c m o) = Memory.readBytes m o 4 := by
  rw [loadWord, bytesOf_wordOf]
  simp [Memory.readBytes, List.range_succ]

/-- A unit's bytes are four a word. -/
theorem length_unitBytes (c : Config) (ws : List Word) : (unitBytes c ws).length = 4 * unitWords c := by
  unfold unitBytes
  induction unitWords c with
  | zero => rfl
  | succ n ih => rw [List.range_succ, List.flatMap_append, List.length_append, ih]; simp; omega

end Sys2Proof.Machine
end

