-- ==== Sys2Proof/Laws/Encoding.lean ====
section
/-! SUPPORT. The fields of a framed word, and the bus word of a transaction reaching the register layer as that transaction
(spec 30_encoding R91, R97, R98). -/

namespace Sys2Proof

@[simp] theorem fieldOp_frame (op : BitVec 8) (a n : Word) : fieldOp (frame op a n) = op := by
  ext k hk
  simp only [fieldOp, frame, BitVec.getElem_extractLsb', BitVec.getLsbD_append]
  have h1 : ¬ 64 + k < 32 := by omega
  have h2 : ¬ 64 + k - 32 < 32 := by omega
  have h3 : 64 + k - 32 - 32 = k := by omega
  simp only [h1, h2, h3, if_false]
  exact BitVec.getLsbD_eq_getElem hk

@[simp] theorem fieldA_frame (op : BitVec 8) (a n : Word) : fieldA (frame op a n) = a := by
  ext k hk
  simp only [fieldA, frame, BitVec.getElem_extractLsb', BitVec.getLsbD_append]
  have h1 : ¬ 32 + k < 32 := by omega
  have h3 : 32 + k - 32 = k := by omega
  simp only [h1, h3, hk, if_false, if_true]
  exact BitVec.getLsbD_eq_getElem hk

@[simp] theorem fieldN_frame (op : BitVec 8) (a n : Word) : fieldN (frame op a n) = n := by
  ext k hk
  simp only [fieldN, frame, BitVec.getElem_extractLsb', BitVec.getLsbD_append]
  have h3 : 0 + k = k := by omega
  simp only [h3, hk, if_true]
  exact BitVec.getLsbD_eq_getElem hk

namespace Machine

/-- The word of a transaction is decoded back to it, so it runs as it. -/
theorem busWord_encode (i : Instr) (s : State) (h : i.format = .bus) : busWord (encode i) s = exec i s := by
  cases i <;> simp [Instr.format] at h <;>
    simp [busWord, decode, decodeBus, decodeSelector, encode, Instr.code]

end Machine
end Sys2Proof
end

