-- ==== Sys2Proof/Laws/Flags.lean ====
section
/-! SUPPORT. The fields read back from the CR and SR words are the fields of the registers, for every register layout the
spec allows, and the decoder's answers (spec 10_state R21 to R29, 41_status R141). -/

namespace Sys2Proof.Machine

theorem getLsbD_bitAt (b : Bool) {p : Nat} (k : Nat) (hp : p < 32) :
    (bitAt b p).getLsbD k = (b && decide (k = p)) := by
  unfold bitAt
  cases b
  · simp
  · simp only [if_true, BitVec.getLsbD_shiftLeft, Bool.true_and]
    by_cases h : k = p
    · subst h; simp [hp]
    · by_cases hlt : k < p
      · simp [h, hlt]
      · have hk : ¬ k - p = 0 := by omega
        have : (1#32 : BitVec 32).getLsbD (k - p) = false := by
          simp [BitVec.getLsbD_one, hk]
        simp [h, this]

/-- A bit of the CR word. -/
theorem getLsbD_crWord {c : Config} (h : c.Valid) (r : Regs) {k : Nat} (hk : k < 32) :
    (crWord c r).getLsbD k =
      (r.lock && decide (k = c.lockBit) || r.pg && decide (k = c.pgBit) || r.per && decide (k = c.perBit)
        || r.mer1 && decide (k = c.mer1Bit) || (!decide (k < c.pnbLsb) && r.pnb.getLsbD (k - c.pnbLsb))) := by
  have hw := h.cr_width
  simp only [Config.crBits, List.cons_append, List.nil_append, List.mem_cons, forall_eq_or_imp] at hw
  obtain ⟨h1, h2, h3, h4, -, -⟩ := hw
  simp only [crWord, BitVec.getLsbD_or, getLsbD_bitAt _ _ h1, getLsbD_bitAt _ _ h2, getLsbD_bitAt _ _ h3,
    getLsbD_bitAt _ _ h4, BitVec.getLsbD_shiftLeft, hk, decide_true, Bool.true_and]

/-- A bit number that no bit of PNB has gets nothing from PNB. -/
theorem pnb_bit_outside {c : Config} {r : Regs} (hp : r.pnb.toNat < 2 ^ c.pnbWidth) {k : Nat}
    (hk : k ∉ (List.range c.pnbWidth).map (c.pnbLsb + ·)) :
    (!decide (k < c.pnbLsb) && r.pnb.getLsbD (k - c.pnbLsb)) = false := by
  by_cases hlt : k < c.pnbLsb
  · simp [hlt]
  · have hge : c.pnbWidth ≤ k - c.pnbLsb := by
      by_contra hc
      exact hk (List.mem_map.2 ⟨k - c.pnbLsb, List.mem_range.2 (by omega), by omega⟩)
    have hb : r.pnb.getLsbD (k - c.pnbLsb) = false := by
      rw [BitVec.getLsbD, Nat.testBit_lt_two_pow]
      exact Nat.lt_of_lt_of_le hp (Nat.pow_le_pow_right (by omega) hge)
    simp [hb]

/-- The LOCK field of the CR word is `CR.LOCK`. -/
theorem crLock_crWord {c : Config} {r : Regs} (h : c.Valid) (hp : r.pnb.toNat < 2 ^ c.pnbWidth) :
    crLock c (crWord c r) = r.lock := by
  have hn := h.cr_nodup
  have hl : c.lockBit < 32 := h.cr_width _ (by simp)
  simp only [Config.crBits, List.cons_append, List.nil_append, List.nodup_cons, List.mem_cons, not_or] at hn
  obtain ⟨⟨n1, n2, n3, -, n5⟩, -⟩ := hn
  rw [crLock, getLsbD_crWord h r hl, pnb_bit_outside hp n5]
  simp [n1, n2, n3]

/-- A bit of the SR word. -/
theorem getLsbD_srWord {c : Config} (h : c.Valid) (r : Regs) (k : Nat) :
    (srWord c r).getLsbD k =
      (r.bsy && decide (k = c.bsyBit) || r.progErr && decide (k = c.progErrBit)
        || r.wrpErr && decide (k = c.wrpErrBit)) := by
  have hw := h.sr_width
  simp only [Config.srBits, List.mem_cons, List.not_mem_nil, forall_eq_or_imp, false_implies, implies_true,
    and_true] at hw
  obtain ⟨h1, h2, h3⟩ := hw
  simp only [srWord, BitVec.getLsbD_or, getLsbD_bitAt _ _ h1, getLsbD_bitAt _ _ h2, getLsbD_bitAt _ _ h3]

theorem srBsy_srWord {c : Config} (h : c.Valid) (r : Regs) : srBsy c (srWord c r) = r.bsy := by
  have hn := h.sr_nodup
  simp only [Config.srBits, List.nodup_cons, List.mem_cons, List.not_mem_nil, or_false, not_or] at hn
  simp [srBsy, getLsbD_srWord h, hn.1.1, hn.1.2]

theorem srProgErr_srWord {c : Config} (h : c.Valid) (r : Regs) : srProgErr c (srWord c r) = r.progErr := by
  have hn := h.sr_nodup
  simp only [Config.srBits, List.nodup_cons, List.mem_cons, List.not_mem_nil, or_false, not_or] at hn
  simp [srProgErr, getLsbD_srWord h, Ne.symm hn.1.1, hn.2.1]

theorem srWrpErr_srWord {c : Config} (h : c.Valid) (r : Regs) : srWrpErr c (srWord c r) = r.wrpErr := by
  have hn := h.sr_nodup
  simp only [Config.srBits, List.nodup_cons, List.mem_cons, List.not_mem_nil, or_false, not_or] at hn
  simp [srWrpErr, getLsbD_srWord h, Ne.symm hn.1.2, Ne.symm hn.2.1]

/-- The decoder on the SR word is the decoder on the flags. -/
theorem decodeStatus_srWord {c : Config} (h : c.Valid) (r : Regs) :
    decodeStatus c (srWord c r) = decodeFlags r.bsy r.progErr r.wrpErr := by
  rw [decodeStatus, srBsy_srWord h, srProgErr_srWord h, srWrpErr_srWord h]

/-- The residual check on the SR word. -/
theorem residualFlags_srWord {c : Config} (h : c.Valid) (r : Regs) :
    residualFlags c (srWord c r) = (r.bsy || r.progErr || r.wrpErr) := by
  rw [residualFlags, srBsy_srWord h, srProgErr_srWord h, srWrpErr_srWord h]

@[simp] theorem decodeFlags_clear : decodeFlags false false false = .ok := rfl

theorem decodeFlags_ok {b p w : Bool} : decodeFlags b p w = .ok ↔ b = false ∧ p = false ∧ w = false := by
  cases b <;> cases p <;> cases w <;> simp [decodeFlags]

@[simp] theorem fieldBit_bitWord (b : Bool) : fieldBit (bitWord b) = b := by cases b <;> rfl

end Sys2Proof.Machine
end

