-- ==== Sys2Proof/Laws/Memory.lean ====
section
/-! SUPPORT. The laws of the flash array: what is read after a write, an erase or a scramble, that each keeps the canonical
form, and that each lists no offset but those it had and those it wrote. -/

namespace Sys2Proof.Machine

/-! ### Reading -/

@[simp] theorem read_nil (o : Nat) : Memory.read [] o = erasedByte := rfl

@[simp] theorem read_cons (cell : Host.Cell) (m : Memory) (o : Nat) :
    Memory.read (cell :: m) o = if cell.1 = o then cell.2 else Memory.read m o := rfl

/-- An offset that is not listed reads as erased. -/
theorem read_unlisted {m : Memory} {o : Nat} (h : ∀ cell ∈ m, cell.1 ≠ o) : Memory.read m o = erasedByte := by
  induction m with
  | nil => rfl
  | cons cell m ih =>
    simp only [List.mem_cons, forall_eq_or_imp] at h
    simp [h.1, ih h.2]

theorem wf_cons {cell : Host.Cell} {m : Memory} :
    Memory.wf (cell :: m) = true ↔
      cell.2 ≠ erasedByte ∧ (∀ other ∈ m, cell.1 < other.1) ∧ Memory.wf m = true := by
  simp [Memory.wf, and_assoc]

@[simp] theorem wf_nil : Memory.wf [] = true := rfl

/-! ### Writing one byte -/

/-- A cell of the written memory was there before or is the one written. -/
theorem mem_write {m : Memory} {o : Nat} {b : Byte} {cell : Host.Cell} (h : cell ∈ Memory.write m o b) :
    cell ∈ m ∨ cell = (o, b) := by
  induction m with
  | nil =>
    simp only [Memory.write] at h
    split at h <;> simp_all
  | cons c m ih =>
    simp only [Memory.write] at h
    split at h
    · split at h <;> (simp_all; try tauto)
    · split at h
      · split at h <;> (simp_all; try tauto)
      · simp only [List.mem_cons] at h ⊢
        rcases h with rfl | h
        · exact .inl (.inl rfl)
        · rcases ih h with h | h
          · exact .inl (.inr h)
          · exact .inr h

theorem wf_write {m : Memory} (o : Nat) (b : Byte) (h : Memory.wf m = true) : Memory.wf (Memory.write m o b) = true := by
  induction m with
  | nil =>
    simp only [Memory.write]
    split <;> simp_all [Memory.wf]
  | cons c m ih =>
    obtain ⟨hc, hlt, hm⟩ := wf_cons.1 h
    simp only [Memory.write]
    split
    · split
      · exact h
      · rename_i hlo hb
        refine wf_cons.2 ⟨hb, ?_, h⟩
        intro other ho
        rcases List.mem_cons.1 ho with rfl | ho
        · exact hlo
        · exact Nat.lt_trans hlo (hlt other ho)
    · split
      · split
        · exact hm
        · rename_i hb
          refine wf_cons.2 ⟨hb, fun other ho => ?_, hm⟩
          have := hlt other ho
          simp only; omega
      · refine wf_cons.2 ⟨hc, ?_, ih hm⟩
        intro other ho
        rcases mem_write ho with ho | rfl
        · exact hlt other ho
        · simp only; omega

/-- Read after write, at the same offset and at any other. -/
theorem read_write {m : Memory} (o : Nat) (b : Byte) (o' : Nat) (h : Memory.wf m = true) :
    Memory.read (Memory.write m o b) o' = if o' = o then b else Memory.read m o' := by
  induction m with
  | nil =>
    simp only [Memory.write]
    split <;> split <;> simp_all [eq_comm]
  | cons c m ih =>
    obtain ⟨hc, hlt, hm⟩ := wf_cons.1 h
    simp only [Memory.write]
    split
    · rename_i hlo
      have hun : Memory.read (c :: m) o = erasedByte := by
        refine read_unlisted fun cell hcell => ?_
        rcases List.mem_cons.1 hcell with rfl | hcell
        · omega
        · have := hlt cell hcell; omega
      split
      · split
        · rename_i hb ho; rw [ho, hun, hb]
        · rfl
      · rw [read_cons]
        simp only [eq_comm]
    · split
      · rename_i hne heq
        have hun : Memory.read m o = erasedByte := by
          refine read_unlisted fun cell hcell => ?_
          have := hlt cell hcell; omega
        split
        · rename_i hb
          by_cases ho : o' = o
          · simp [ho, hun, hb]
          · have : c.1 ≠ o' := by omega
            simp [ho, this]
        · by_cases ho : o' = o
          · simp [ho]
          · have h1 : c.1 ≠ o' := by omega
            have h2 : o ≠ o' := Ne.symm ho
            simp [h1, h2, ho]
      · rename_i hne hne'
        rw [read_cons, read_cons, ih hm]
        by_cases hc' : c.1 = o'
        · have : o' ≠ o := by omega
          simp [hc', this]
        · simp [hc']

/-! ### Writing a range -/

@[simp] theorem writeBytes_nil (m : Memory) (o : Nat) : Memory.writeBytes m o [] = m := by
  cases m <;> rfl

@[simp] theorem writeBytes_cons (m : Memory) (o : Nat) (b : Byte) (bs : List Byte) :
    Memory.writeBytes m o (b :: bs) = Memory.writeBytes (Memory.write m o b) (o + 1) bs := by
  cases m <;> rfl

theorem wf_writeBytes {m : Memory} (o : Nat) (bs : List Byte) (h : Memory.wf m = true) :
    Memory.wf (Memory.writeBytes m o bs) = true := by
  induction bs generalizing m o with
  | nil => simpa using h
  | cons b bs ih => simpa using ih (o + 1) (wf_write o b h)

/-- Every offset of the written range reads the byte written there, every other one reads as before. -/
theorem read_writeBytes {m : Memory} (o : Nat) (bs : List Byte) (o' : Nat) (h : Memory.wf m = true) :
    Memory.read (Memory.writeBytes m o bs) o' =
      if o ≤ o' ∧ o' < o + bs.length then bs.getD (o' - o) 0#8 else Memory.read m o' := by
  induction bs generalizing m o with
  | nil =>
    rw [writeBytes_nil, if_neg]
    simp only [List.length_nil]; omega
  | cons b bs ih =>
    rw [writeBytes_cons, ih (o + 1) (wf_write o b h), read_write o b o' h]
    simp only [List.length_cons]
    by_cases h1 : o' = o
    · subst h1; simp
    · by_cases h2 : o + 1 ≤ o' ∧ o' < o + 1 + bs.length
      · have h3 : o ≤ o' ∧ o' < o + (bs.length + 1) := by omega
        obtain ⟨d, rfl⟩ : ∃ d, o' = o + 1 + d := ⟨o' - (o + 1), by omega⟩
        have e1 : o + 1 + d - o = d + 1 := by omega
        have e2 : o + 1 + d - (o + 1) = d := by omega
        simp only [h2, h3, and_self, if_true, e1, e2, List.getD_cons_succ]
      · have h3 : ¬(o ≤ o' ∧ o' < o + (bs.length + 1)) := by omega
        rw [if_neg h2, if_neg h1, if_neg h3]

/-- A cell of the written memory was there before or lies in the written range. -/
theorem mem_writeBytes {m : Memory} {o : Nat} {bs : List Byte} {cell : Host.Cell}
    (h : cell ∈ Memory.writeBytes m o bs) : cell ∈ m ∨ (o ≤ cell.1 ∧ cell.1 < o + bs.length) := by
  induction bs generalizing m o with
  | nil => left; simpa using h
  | cons b bs ih =>
    rw [writeBytes_cons] at h
    simp only [List.length_cons]
    rcases ih h with h | h
    · rcases mem_write h with h | rfl
      · exact .inl h
      · right; simp
    · right; omega

/-! ### Erasing a range -/

theorem mem_erase {m : Memory} {o len : Nat} {cell : Host.Cell} :
    cell ∈ Memory.erase m o len ↔ cell ∈ m ∧ ¬(o ≤ cell.1 ∧ cell.1 < o + len) := by
  simp only [Memory.erase, List.mem_filter, Bool.not_eq_true', Bool.and_eq_false_iff, decide_eq_false_iff_not,
    and_congr_right_iff]
  intro _
  omega

theorem erase_cons (cell : Host.Cell) (m : Memory) (o len : Nat) :
    Memory.erase (cell :: m) o len =
      if o ≤ cell.1 ∧ cell.1 < o + len then Memory.erase m o len else cell :: Memory.erase m o len := by
  simp only [Memory.erase, List.filter_cons]
  by_cases h : o ≤ cell.1 ∧ cell.1 < o + len
  · simp [h]
  · have : (decide (o ≤ cell.1) && decide (cell.1 < o + len)) = false := by
      simp only [Bool.and_eq_false_iff, decide_eq_false_iff_not]; omega
    rw [if_neg h, this]; rfl

theorem wf_erase {m : Memory} (o len : Nat) (h : Memory.wf m = true) : Memory.wf (Memory.erase m o len) = true := by
  induction m with
  | nil => rfl
  | cons c m ih =>
    obtain ⟨hc, hlt, hm⟩ := wf_cons.1 h
    rw [erase_cons]
    split
    · exact ih hm
    · exact wf_cons.2 ⟨hc, fun other ho => hlt other (mem_erase.1 ho).1, ih hm⟩

/-- Every offset of an erased range reads as erased, every other one reads as before. -/
theorem read_erase (m : Memory) (o len o' : Nat) :
    Memory.read (Memory.erase m o len) o' = if o ≤ o' ∧ o' < o + len then erasedByte else Memory.read m o' := by
  induction m with
  | nil => simp [Memory.erase]
  | cons c m ih =>
    rw [erase_cons]
    by_cases hc : o ≤ c.1 ∧ c.1 < o + len
    · rw [if_pos hc, ih]
      by_cases ho : o ≤ o' ∧ o' < o + len
      · simp [ho]
      · have : c.1 ≠ o' := by rintro rfl; exact ho hc
        rw [if_neg ho, if_neg ho, read_cons, if_neg this]
    · rw [if_neg hc, read_cons, read_cons, ih]
      by_cases hco : c.1 = o'
      · subst hco; rw [if_pos rfl, if_neg hc, if_pos rfl]
      · rw [if_neg hco, if_neg hco]

/-! ### Scrambling a range -/

theorem wf_scramble {m : Memory} (d o len : Nat) (h : Memory.wf m = true) :
    Memory.wf (Memory.scramble m d o len) = true := wf_writeBytes _ _ h

theorem mem_scramble {m : Memory} {d o len : Nat} {cell : Host.Cell} (h : cell ∈ Memory.scramble m d o len) :
    cell ∈ m ∨ (o ≤ cell.1 ∧ cell.1 < o + len) := by
  simpa using mem_writeBytes h

/-- A scrambled range reads the free values of its draw, every other offset reads as before. -/
theorem read_scramble {m : Memory} (d o len o' : Nat) (h : Memory.wf m = true) :
    Memory.read (Memory.scramble m d o len) o' =
      if o ≤ o' ∧ o' < o + len then Config.freeByte d o' else Memory.read m o' := by
  rw [Memory.scramble, read_writeBytes _ _ _ h]
  simp only [List.length_map, List.length_range]
  by_cases ho : o ≤ o' ∧ o' < o + len
  · have h1 : o' - o < len := by omega
    have h2 : o + (o' - o) = o' := by omega
    simp [ho, List.getD, h1, h2]
  · rw [if_neg ho, if_neg ho]

/-! ### Reading a range -/

@[simp] theorem length_readBytes (m : Memory) (o len : Nat) : (Memory.readBytes m o len).length = len := by
  simp [Memory.readBytes]

theorem unitErased_iff (c : Config) (m : Memory) (o : Nat) :
    unitErased c m o = true ↔ ∀ k < c.nu, Memory.read m (o + k) = erasedByte := by
  simp [unitErased, Memory.readBytes]

/-- Two reads of a range that agree byte by byte are equal. -/
theorem readBytes_congr {m m' : Memory} {o o' len : Nat}
    (h : ∀ k < len, Memory.read m (o + k) = Memory.read m' (o' + k)) :
    Memory.readBytes m o len = Memory.readBytes m' o' len := by
  simp only [Memory.readBytes]
  exact List.map_congr_left fun k hk => h k (List.mem_range.1 hk)

theorem readBytes_add (m : Memory) (o a b : Nat) :
    Memory.readBytes m o (a + b) = Memory.readBytes m o a ++ Memory.readBytes m (o + a) b := by
  simp [Memory.readBytes, List.range_add, List.map_append, Function.comp_def, Nat.add_assoc]

end Sys2Proof.Machine
end

