-- ==== Sys2Proof/Laws/State.lean ====
section
/-! SUPPORT. One lemma per field of State per named update, each true by definition, so that no later proof unfolds an
update. -/

namespace Sys2Proof.Machine

variable (s : State)

/-! ### completed -/

@[simp] theorem completed_cfg : (completed s).cfg = s.cfg := rfl
@[simp] theorem completed_regs : (completed s).regs = s.regs := rfl
@[simp] theorem completed_eng : (completed s).eng = s.eng := rfl
@[simp] theorem completed_reply : (completed s).reply = .done := rfl
@[simp] theorem completed_cmds : (completed s).cmds = s.cmds := rfl
@[simp] theorem completed_sched : (completed s).sched = s.sched := rfl
@[simp] theorem completed_draws : (completed s).draws = s.draws := rfl

/-! ### returned -/

@[simp] theorem returned_cfg (w : Word) : (returned w s).cfg = s.cfg := rfl
@[simp] theorem returned_regs (w : Word) : (returned w s).regs = s.regs := rfl
@[simp] theorem returned_eng (w : Word) : (returned w s).eng = s.eng := rfl
@[simp] theorem returned_reply (w : Word) : (returned w s).reply = .data w := rfl
@[simp] theorem returned_cmds (w : Word) : (returned w s).cmds = s.cmds := rfl
@[simp] theorem returned_sched (w : Word) : (returned w s).sched = s.sched := rfl
@[simp] theorem returned_draws (w : Word) : (returned w s).draws = s.draws := rfl

/-! ### waits -/

@[simp] theorem waits_cfg : (waits s).cfg = s.cfg := rfl
@[simp] theorem waits_regs : (waits s).regs = s.regs := rfl
@[simp] theorem waits_eng : (waits s).eng = s.eng := rfl
@[simp] theorem waits_reply : (waits s).reply = .waiting := rfl
@[simp] theorem waits_cmds : (waits s).cmds = s.cmds := rfl
@[simp] theorem waits_sched : (waits s).sched = s.sched := rfl
@[simp] theorem waits_draws : (waits s).draws = s.draws := rfl

/-! ### stalls -/

@[simp] theorem stalls_cfg : (stalls s).cfg = s.cfg := rfl
@[simp] theorem stalls_regs : (stalls s).regs = s.regs := rfl
@[simp] theorem stalls_eng : (stalls s).eng = s.eng := rfl
@[simp] theorem stalls_reply : (stalls s).reply = .stalled := rfl
@[simp] theorem stalls_cmds : (stalls s).cmds = s.cmds := rfl
@[simp] theorem stalls_sched : (stalls s).sched = s.sched := rfl
@[simp] theorem stalls_draws : (stalls s).draws = s.draws := rfl

/-! ### withRegs -/

@[simp] theorem withRegs_cfg (r : Regs) : (withRegs r s).cfg = s.cfg := rfl
@[simp] theorem withRegs_regs (r : Regs) : (withRegs r s).regs = r := rfl
@[simp] theorem withRegs_eng (r : Regs) : (withRegs r s).eng = s.eng := rfl
@[simp] theorem withRegs_reply (r : Regs) : (withRegs r s).reply = s.reply := rfl
@[simp] theorem withRegs_cmds (r : Regs) : (withRegs r s).cmds = s.cmds := rfl
@[simp] theorem withRegs_sched (r : Regs) : (withRegs r s).sched = s.sched := rfl
@[simp] theorem withRegs_draws (r : Regs) : (withRegs r s).draws = s.draws := rfl

/-! ### wrote -/

@[simp] theorem wrote_cfg (r : Regs) : (wrote r s).cfg = s.cfg := rfl
@[simp] theorem wrote_regs (r : Regs) : (wrote r s).regs = r := rfl
@[simp] theorem wrote_eng (r : Regs) : (wrote r s).eng = s.eng := rfl
@[simp] theorem wrote_reply (r : Regs) : (wrote r s).reply = .done := rfl
@[simp] theorem wrote_cmds (r : Regs) : (wrote r s).cmds = s.cmds := rfl
@[simp] theorem wrote_sched (r : Regs) : (wrote r s).sched = s.sched := rfl
@[simp] theorem wrote_draws (r : Regs) : (wrote r s).draws = s.draws := rfl

/-! ### goto -/

@[simp] theorem goto_cfg (p : Phase) : (goto p s).cfg = s.cfg := rfl
@[simp] theorem goto_regs (p : Phase) : (goto p s).regs = s.regs := rfl
@[simp] theorem goto_eng (p : Phase) : (goto p s).eng = { s.eng with phase := p } := rfl
@[simp] theorem goto_reply (p : Phase) : (goto p s).reply = s.reply := rfl
@[simp] theorem goto_cmds (p : Phase) : (goto p s).cmds = s.cmds := rfl
@[simp] theorem goto_sched (p : Phase) : (goto p s).sched = s.sched := rfl
@[simp] theorem goto_draws (p : Phase) : (goto p s).draws = s.draws := rfl

/-! ### setGuard -/

@[simp] theorem setGuard_cfg (g : Guard) : (setGuard g s).cfg = s.cfg := rfl
@[simp] theorem setGuard_regs (g : Guard) : (setGuard g s).regs = s.regs := rfl
@[simp] theorem setGuard_eng (g : Guard) : (setGuard g s).eng = { s.eng with guard := g } := rfl
@[simp] theorem setGuard_reply (g : Guard) : (setGuard g s).reply = s.reply := rfl
@[simp] theorem setGuard_cmds (g : Guard) : (setGuard g s).cmds = s.cmds := rfl
@[simp] theorem setGuard_sched (g : Guard) : (setGuard g s).sched = s.sched := rfl
@[simp] theorem setGuard_draws (g : Guard) : (setGuard g s).draws = s.draws := rfl

/-! ### respond -/

@[simp] theorem respond_cfg (r : Response) : (respond r s).cfg = s.cfg := rfl
@[simp] theorem respond_regs (r : Response) : (respond r s).regs = s.regs := rfl
@[simp] theorem respond_eng (r : Response) : (respond r s).eng = { s.eng with rsp := rspWord r, phase := .idle } := rfl
@[simp] theorem respond_reply (r : Response) : (respond r s).reply = s.reply := rfl
@[simp] theorem respond_cmds (r : Response) : (respond r s).cmds = s.cmds := rfl
@[simp] theorem respond_sched (r : Response) : (respond r s).sched = s.sched := rfl
@[simp] theorem respond_draws (r : Response) : (respond r s).draws = s.draws := rfl

/-! ### loadCommand -/

@[simp] theorem loadCommand_cfg (op : BitVec 8) (c : CmdArgs) : (loadCommand op c s).cfg = s.cfg := rfl
@[simp] theorem loadCommand_regs (op : BitVec 8) (c : CmdArgs) : (loadCommand op c s).regs = s.regs := rfl
@[simp] theorem loadCommand_eng (op : BitVec 8) (c : CmdArgs) : (loadCommand op c s).eng = 
      { s.eng with op := op, a := c.a, n := c.n, pay := c.pay, i := 0, j := 0, polls := 0, out := [] } := rfl
@[simp] theorem loadCommand_reply (op : BitVec 8) (c : CmdArgs) : (loadCommand op c s).reply = .none := rfl
@[simp] theorem loadCommand_cmds (op : BitVec 8) (c : CmdArgs) : (loadCommand op c s).cmds = s.cmds := rfl
@[simp] theorem loadCommand_sched (op : BitVec 8) (c : CmdArgs) : (loadCommand op c s).sched = s.sched := rfl
@[simp] theorem loadCommand_draws (op : BitVec 8) (c : CmdArgs) : (loadCommand op c s).draws = s.draws := rfl

/-! ### contractViolation -/

@[simp] theorem contractViolation_cfg : (contractViolation s).cfg = s.cfg := rfl
@[simp] theorem contractViolation_regs : (contractViolation s).regs = s.regs := rfl
@[simp] theorem contractViolation_eng : (contractViolation s).eng = { s.eng with carry := .abort, phase := .ab0 } := rfl
@[simp] theorem contractViolation_reply : (contractViolation s).reply = s.reply := rfl
@[simp] theorem contractViolation_cmds : (contractViolation s).cmds = s.cmds := rfl
@[simp] theorem contractViolation_sched : (contractViolation s).sched = s.sched := rfl
@[simp] theorem contractViolation_draws : (contractViolation s).draws = s.draws := rfl

/-! ### endAbort -/

@[simp] theorem endAbort_cfg : (endAbort s).cfg = s.cfg := rfl
@[simp] theorem endAbort_regs : (endAbort s).regs = s.regs := rfl
@[simp] theorem endAbort_eng : (endAbort s).eng = 
      { s.eng with guard := .none, rsp := rspWord .abort, phase := .aborted } := rfl
@[simp] theorem endAbort_reply : (endAbort s).reply = s.reply := rfl
@[simp] theorem endAbort_cmds : (endAbort s).cmds = s.cmds := rfl
@[simp] theorem endAbort_sched : (endAbort s).sched = s.sched := rfl
@[simp] theorem endAbort_draws : (endAbort s).draws = s.draws := rfl

/-! ### takeWord -/

@[simp] theorem takeWord_cfg (w : Word) : (takeWord w s).cfg = s.cfg := rfl
@[simp] theorem takeWord_regs (w : Word) : (takeWord w s).regs = s.regs := rfl
@[simp] theorem takeWord_eng (w : Word) : (takeWord w s).eng = 
      { s.eng with out := s.eng.out ++ bytesOf s.cfg.endian w, j := s.eng.j + 1 } := rfl
@[simp] theorem takeWord_reply (w : Word) : (takeWord w s).reply = s.reply := rfl
@[simp] theorem takeWord_cmds (w : Word) : (takeWord w s).cmds = s.cmds := rfl
@[simp] theorem takeWord_sched (w : Word) : (takeWord w s).sched = s.sched := rfl
@[simp] theorem takeWord_draws (w : Word) : (takeWord w s).draws = s.draws := rfl

/-! ### setJ -/

@[simp] theorem setJ_cfg (k : Nat) : (setJ k s).cfg = s.cfg := rfl
@[simp] theorem setJ_regs (k : Nat) : (setJ k s).regs = s.regs := rfl
@[simp] theorem setJ_eng (k : Nat) : (setJ k s).eng = { s.eng with j := k } := rfl
@[simp] theorem setJ_reply (k : Nat) : (setJ k s).reply = s.reply := rfl
@[simp] theorem setJ_cmds (k : Nat) : (setJ k s).cmds = s.cmds := rfl
@[simp] theorem setJ_sched (k : Nat) : (setJ k s).sched = s.sched := rfl
@[simp] theorem setJ_draws (k : Nat) : (setJ k s).draws = s.draws := rfl

/-! ### setI -/

@[simp] theorem setI_cfg (k : Nat) : (setI k s).cfg = s.cfg := rfl
@[simp] theorem setI_regs (k : Nat) : (setI k s).regs = s.regs := rfl
@[simp] theorem setI_eng (k : Nat) : (setI k s).eng = { s.eng with i := k } := rfl
@[simp] theorem setI_reply (k : Nat) : (setI k s).reply = s.reply := rfl
@[simp] theorem setI_cmds (k : Nat) : (setI k s).cmds = s.cmds := rfl
@[simp] theorem setI_sched (k : Nat) : (setI k s).sched = s.sched := rfl
@[simp] theorem setI_draws (k : Nat) : (setI k s).draws = s.draws := rfl

/-! ### setPolls -/

@[simp] theorem setPolls_cfg (k : Nat) : (setPolls k s).cfg = s.cfg := rfl
@[simp] theorem setPolls_regs (k : Nat) : (setPolls k s).regs = s.regs := rfl
@[simp] theorem setPolls_eng (k : Nat) : (setPolls k s).eng = { s.eng with polls := k } := rfl
@[simp] theorem setPolls_reply (k : Nat) : (setPolls k s).reply = s.reply := rfl
@[simp] theorem setPolls_cmds (k : Nat) : (setPolls k s).cmds = s.cmds := rfl
@[simp] theorem setPolls_sched (k : Nat) : (setPolls k s).sched = s.sched := rfl
@[simp] theorem setPolls_draws (k : Nat) : (setPolls k s).draws = s.draws := rfl

/-! ### setCarry -/

@[simp] theorem setCarry_cfg (r : Response) : (setCarry r s).cfg = s.cfg := rfl
@[simp] theorem setCarry_regs (r : Response) : (setCarry r s).regs = s.regs := rfl
@[simp] theorem setCarry_eng (r : Response) : (setCarry r s).eng = { s.eng with carry := r } := rfl
@[simp] theorem setCarry_reply (r : Response) : (setCarry r s).reply = s.reply := rfl
@[simp] theorem setCarry_cmds (r : Response) : (setCarry r s).cmds = s.cmds := rfl
@[simp] theorem setCarry_sched (r : Response) : (setCarry r s).sched = s.sched := rfl
@[simp] theorem setCarry_draws (r : Response) : (setCarry r s).draws = s.draws := rfl

/-! ### popTurn -/

@[simp] theorem popTurn_cfg : (popTurn s).cfg = s.cfg := rfl
@[simp] theorem popTurn_regs : (popTurn s).regs = s.regs := rfl
@[simp] theorem popTurn_eng : (popTurn s).eng = s.eng := rfl
@[simp] theorem popTurn_reply : (popTurn s).reply = s.reply := rfl
@[simp] theorem popTurn_cmds : (popTurn s).cmds = s.cmds := rfl
@[simp] theorem popTurn_sched : (popTurn s).sched = s.sched.tail := rfl
@[simp] theorem popTurn_draws : (popTurn s).draws = s.draws := rfl

/-! ### placeCommand -/

@[simp] theorem placeCommand_cfg (c : HostCmd) : (placeCommand c s).cfg = s.cfg := rfl
@[simp] theorem placeCommand_regs (c : HostCmd) : (placeCommand c s).regs = s.regs := rfl
@[simp] theorem placeCommand_eng (c : HostCmd) : (placeCommand c s).eng = { s.eng with phase := .idle } := rfl
@[simp] theorem placeCommand_reply (c : HostCmd) : (placeCommand c s).reply = s.reply := rfl
@[simp] theorem placeCommand_cmds (c : HostCmd) : (placeCommand c s).cmds = c :: s.cmds := rfl
@[simp] theorem placeCommand_sched (c : HostCmd) : (placeCommand c s).sched = .host :: s.sched := rfl
@[simp] theorem placeCommand_draws (c : HostCmd) : (placeCommand c s).draws = s.draws := rfl

/-! ### The answer of a transaction -/

@[simp] theorem ret_data (w : Word) : (BusReply.data w).ret = w := rfl
@[simp] theorem pending_none : BusReply.none.pending = false := rfl
@[simp] theorem pending_done : BusReply.done.pending = false := rfl
@[simp] theorem pending_data (w : Word) : (BusReply.data w).pending = false := rfl
@[simp] theorem pending_waiting : BusReply.waiting.pending = true := rfl
@[simp] theorem pending_stalled : BusReply.stalled.pending = true := rfl

end Sys2Proof.Machine
end

