-- ==== Sys2Proof/Laws/Ops.lean ====
section
/-! SUPPORT. What each shared operation can do, said once: the command port, the key checker, the write buffer, the completion
of an operation, the engine's step and the step of the machine. -/

namespace Sys2Proof.Machine

/-! ### The command port -/

/-- An accepted command (30_encoding R91). -/
theorem present_pass {op : BitVec 8} {c : CmdArgs} {pass : Bool} {p : Phase} {s : State} (hi : s.eng.phase = .idle)
    (hp : pass = true) : present op c pass p s = .next (goto p (loadCommand op c s)) := by
  simp [present, hi, hp]

/-- A contract violation (30_encoding R91). -/
theorem present_fail {op : BitVec 8} {c : CmdArgs} {pass : Bool} {p : Phase} {s : State} (hi : s.eng.phase = .idle)
    (hp : pass = false) : present op c pass p s = .next (contractViolation (loadCommand op c s)) := by
  simp [present, hi, hp]

/-- Everything the port can do when it answers a next state. -/
theorem present_next {op : BitVec 8} {c : CmdArgs} {pass : Bool} {p : Phase} {s t : State}
    (h : present op c pass p s = .next t) :
    (s.eng.phase = .idle ∧ pass = true ∧ t = goto p (loadCommand op c s)) ∨
      (s.eng.phase = .idle ∧ pass = false ∧ t = contractViolation (loadCommand op c s)) ∨
      (s.eng.phase ≠ .idle ∧ s.eng.phase ≠ .aborted ∧ t = s) := by
  unfold present at h
  split at h
  · split at h <;> simp_all
  · cases h
  · right; right; simp_all

/-- The port never refuses. -/
theorem present_not_refused {op : BitVec 8} {c : CmdArgs} {pass : Bool} {p : Phase} {s : State} (r : Refusal) :
    present op c pass p s ≠ .refused r := by
  unfold present
  split
  · split <;> simp
  · simp
  · simp

/-- K2: no guard is held. -/
theorem isHeld_eq_false {g : Guard} : g.isHeld = false ↔ g = .none := by cases g <;> simp [Guard.isHeld]

/-- K3: some guard is held. -/
theorem isHeld_eq_true {g : Guard} : g.isHeld = true ↔ ∃ b, g = .held b := by cases g <;> simp [Guard.isHeld]

/-! ### The key checker and the lock -/

@[simp] theorem relock_lock (r : Regs) : (relock r).lock = true := rfl
@[simp] theorem relock_arr (r : Regs) : (relock r).arr = r.arr := rfl
@[simp] theorem relock_pg (r : Regs) : (relock r).pg = r.pg := rfl
@[simp] theorem relock_per (r : Regs) : (relock r).per = r.per := rfl
@[simp] theorem relock_mer1 (r : Regs) : (relock r).mer1 = r.mer1 := rfl
@[simp] theorem relock_pnb (r : Regs) : (relock r).pnb = r.pnb := rfl
@[simp] theorem relock_bsy (r : Regs) : (relock r).bsy = r.bsy := rfl
@[simp] theorem relock_wcnt (r : Regs) : (relock r).wcnt = r.wcnt := rfl
@[simp] theorem relock_wbase (r : Regs) : (relock r).wbase = r.wbase := rfl
@[simp] theorem relock_wbuf (r : Regs) : (relock r).wbuf = r.wbuf := rfl
@[simp] theorem relock_progErr (r : Regs) : (relock r).progErr = r.progErr := rfl
@[simp] theorem relock_wrpErr (r : Regs) : (relock r).wrpErr = r.wrpErr := rfl
@[simp] theorem relock_inflight (r : Regs) : (relock r).inflight = r.inflight := rfl

/-- A half-entered key sequence is forgotten. -/
theorem relock_not_half (r : Regs) : (relock r).kstate ≠ .half := by
  unfold relock; cases r.kstate <;> simp

/-- What a key write changes: `kstate`, and `LOCK` only when it clears it. -/
theorem keyWrite_cases (c : Config) (v : Word) (r : Regs) :
    (∃ k, keyWrite c v r = { r with kstate := k } ∧
        (k = .half → (r.kstate = .idle ∧ v = c.key1))) ∨
      (r.kstate = .half ∧ v = c.key2 ∧ keyWrite c v r = { r with lock := false, kstate := .idle }) := by
  unfold keyWrite
  have hm : mismatchState c ≠ .half := by unfold mismatchState; split <;> simp
  split
  · rename_i hk
    split
    · rename_i hv; exact .inl ⟨.half, rfl, fun _ => ⟨hk, hv⟩⟩
    · exact .inl ⟨mismatchState c, rfl, fun h => absurd h hm⟩
  · rename_i hk
    split
    · rename_i hv; exact .inr ⟨hk, hv, rfl⟩
    · exact .inl ⟨mismatchState c, rfl, fun h => absurd h hm⟩
  · rename_i hk
    exact .inl ⟨r.kstate, rfl, fun h => absurd h (by simp [hk])⟩

/-- A key write changes `LOCK` and `kstate` alone (40_lock_unlock R124 to R127). -/
theorem keyWrite_frame (c : Config) (v : Word) (r : Regs) :
    keyWrite c v r = { r with lock := (keyWrite c v r).lock, kstate := (keyWrite c v r).kstate } := by
  rcases keyWrite_cases c v r with ⟨k, h, -⟩ | ⟨-, -, h⟩ <;> rw [h]

@[simp] theorem keyWrite_pg (c : Config) (v : Word) (r : Regs) : (keyWrite c v r).pg = r.pg := by rw [keyWrite_frame]
@[simp] theorem keyWrite_per (c : Config) (v : Word) (r : Regs) : (keyWrite c v r).per = r.per := by rw [keyWrite_frame]
@[simp] theorem keyWrite_mer1 (c : Config) (v : Word) (r : Regs) : (keyWrite c v r).mer1 = r.mer1 := by rw [keyWrite_frame]
@[simp] theorem keyWrite_pnb (c : Config) (v : Word) (r : Regs) : (keyWrite c v r).pnb = r.pnb := by rw [keyWrite_frame]
@[simp] theorem keyWrite_bsy (c : Config) (v : Word) (r : Regs) : (keyWrite c v r).bsy = r.bsy := by rw [keyWrite_frame]
@[simp] theorem keyWrite_progErr (c : Config) (v : Word) (r : Regs) : (keyWrite c v r).progErr = r.progErr := by rw [keyWrite_frame]
@[simp] theorem keyWrite_wrpErr (c : Config) (v : Word) (r : Regs) : (keyWrite c v r).wrpErr = r.wrpErr := by rw [keyWrite_frame]
@[simp] theorem keyWrite_wcnt (c : Config) (v : Word) (r : Regs) : (keyWrite c v r).wcnt = r.wcnt := by rw [keyWrite_frame]
@[simp] theorem keyWrite_wbase (c : Config) (v : Word) (r : Regs) : (keyWrite c v r).wbase = r.wbase := by rw [keyWrite_frame]
@[simp] theorem keyWrite_wbuf (c : Config) (v : Word) (r : Regs) : (keyWrite c v r).wbuf = r.wbuf := by rw [keyWrite_frame]
@[simp] theorem keyWrite_inflight (c : Config) (v : Word) (r : Regs) : (keyWrite c v r).inflight = r.inflight := by rw [keyWrite_frame]
@[simp] theorem keyWrite_arr (c : Config) (v : Word) (r : Regs) : (keyWrite c v r).arr = r.arr := by rw [keyWrite_frame]

/-! ### The array transactions -/

/-- Everything a store can do when it answers a next state (43_native_access R161 to R164). -/
theorem execSt32_next {x v : Word} {s t : State} (h : execSt32 x v s = .next t) :
    busAddressOk s.cfg x = true ∧ s.regs.bsy = false ∧
      ((s.regs.lock = true ∧ t = wrote { s.regs with wrpErr := true } s) ∨
        (s.regs.lock = false ∧ s.regs.pg = true ∧ s.regs.per = false ∧ s.regs.mer1 = false ∧
          storeInOrder s.cfg s.regs (offsetOf s.cfg x) = true ∧
          t = wrote (acceptStore s.cfg (offsetOf s.cfg x) v s.regs) s)) := by
  unfold execSt32 at h
  repeat' split at h
  all_goals simp_all

/-- A store on a locked flash (43_native_access R164). -/
theorem execSt32_locked {x v : Word} {s : State} (hx : busAddressOk s.cfg x = true) (hb : s.regs.bsy = false)
    (hl : s.regs.lock = true) : execSt32 x v s = .next (wrote { s.regs with wrpErr := true } s) := by
  simp [execSt32, hx, hb, hl]

/-- A store the write buffer accepts (43_native_access R162, R163). -/
theorem execSt32_accepted {x v : Word} {s : State} (hx : busAddressOk s.cfg x = true) (hb : s.regs.bsy = false)
    (hl : s.regs.lock = false) (hg : s.regs.pg = true) (hp : s.regs.per = false) (hm : s.regs.mer1 = false)
    (ho : storeInOrder s.cfg s.regs (offsetOf s.cfg x) = true) :
    execSt32 x v s = .next (wrote (acceptStore s.cfg (offsetOf s.cfg x) v s.regs) s) := by
  simp [execSt32, hx, hb, hl, hg, hp, hm, ho]

/-- A load that completes (43_native_access R160). -/
theorem execLd32_ready {x v : Word} {s : State} (hx : busAddressOk s.cfg x = true) (hb : s.regs.bsy = false) :
    execLd32 x v s = .next (returned (loadWord s.cfg s.regs.arr (offsetOf s.cfg x)) s) := by
  simp [execLd32, hx, hb]

/-! ### FOP -/

/-- FOP has nothing to do. -/
theorem fopStep_none {s : State} (h : s.regs.inflight = none) : fopStep s = s := by simp [fopStep, h]

/-- FOP completes the operation in flight. -/
theorem fopStep_some {s : State} {f : Operation} (h : s.regs.inflight = some f) :
    fopStep s = { withRegs (complete s.cfg s.draws f s.regs) s with draws := s.draws + 1 } := by
  simp [fopStep, h]

/-- Completing an operation changes BSY, `inflight`, the two error flags and the array, nothing else. -/
theorem complete_frame (c : Config) (d : Nat) (f : Operation) (r : Regs) :
    complete c d f r =
      { r with
        bsy := false, inflight := none
        progErr := (complete c d f r).progErr, wrpErr := (complete c d f r).wrpErr, arr := (complete c d f r).arr } := by
  cases f <;> simp only [complete, endOperation, completeProg, completeErasePage, completeEraseAll] <;>
    split <;> (try split) <;> rfl

/-! ### The engine -/

/-- Outside `IDLE` and `ABORTED`, the engine's step issues the transaction of its phase and advances. -/
theorem engStep_issue {s : State} {i : Instr} (h1 : s.eng.phase ≠ .idle) (h2 : s.eng.phase ≠ .aborted)
    (h3 : s.reply ≠ .stalled) (h4 : addressFits s = true) (h5 : transaction s = some i) (h6 : i.format = .bus) :
    engStep s = match exec i s with
      | .next t => .next (advance t)
      | .fault r => .fault r
      | .refused r => .refused r := by
  unfold engStep
  split
  · contradiction
  · contradiction
  · simp only [h3, h4, h5, busWord_encode i s h6, if_true, if_false]
    rfl

/-- The engine's step where its phase issues no transaction. -/
theorem engStep_silent {s : State} (h1 : s.eng.phase ≠ .idle) (h2 : s.eng.phase ≠ .aborted)
    (h3 : s.reply ≠ .stalled) (h4 : addressFits s = true) (h5 : transaction s = none) :
    engStep s = .next (advance { s with reply := .none }) := by
  unfold engStep
  split
  · contradiction
  · contradiction
  · simp only [h3, h4, h5, if_true, if_false]

@[simp] theorem advance_completed {s : State} (h : s.reply.pending = false) : advance s = afterTransaction s := by
  simp [advance, h]

theorem relockTransaction_cases (g : Guard) :
    (g = .held true ∧ relockTransaction g = some (.modCrLock (bitWord true))) ∨
      (g ≠ .held true ∧ relockTransaction g = none) := by
  rcases g with _ | _ | _ <;> simp [relockTransaction]

/-- Every transaction the engine issues is a bus transaction. -/
theorem transaction_bus {s : State} {i : Instr} (h : transaction s = some i) : i.format = .bus := by
  unfold transaction at h
  have hr : ∀ g, relockTransaction g = some i → i.format = .bus := by
    intro g hg
    rcases relockTransaction_cases g with ⟨-, h'⟩ | ⟨-, h'⟩ <;> rw [h'] at hg <;> cases hg
    rfl
  split at h <;>
    first
      | exact hr _ h
      | (cases h; rfl)
      | (cases h)
      | (split at h <;> cases h; rfl)

/-! ### The step -/

/-- One step is the turn of the agent whose turn it is. -/
theorem step_turn {s : State} {g : Agent} (h : agentOf s = g) : step s = turn g (popTurn s) := by
  rw [step, h]

theorem step_scheduled {s : State} {g : Agent} {rest : List Agent} (h : s.sched = g :: rest) :
    step s = turn g { s with sched := rest } := by
  simp [step, agentOf, popTurn, h]

theorem runSteps_add (a b : Nat) (s : State) :
    runSteps (a + b) s = match runSteps a s with
      | .next t => runSteps b t
      | .fault r => .fault r
      | .refused r => .refused r := by
  induction a generalizing s with
  | zero => simp [runSteps]
  | succ a ih =>
    rw [Nat.add_right_comm, runSteps, runSteps]
    split <;> simp_all

end Sys2Proof.Machine
end

