-- ==== Sys2Proof/Laws/PerInstr.lean ====
section
/-! SUPPORT. Statements made of every instruction, one lemma per constructor. `TableRow`: the word an instruction is encoded
to has, under its row's mask, its row's match in spec/opcode_table.json (30_encoding R93, R98). -/

namespace Sys2Proof.Laws

/-- A word whose masked fields are a row's and whose other fields are free matches the row. -/
theorem frame_and_op (op : BitVec 8) (a n : Word) :
    frame op a n &&& 0xFF0000000000000000#72 = frame op 0#32 0#32 := by
  refine BitVec.eq_of_getLsbD_eq fun k hk => ?_
  have hm : (0xFF0000000000000000#72 : FrameWord) = frame (BitVec.allOnes 8) 0#32 0#32 := rfl
  rw [hm]
  simp only [frame, BitVec.getLsbD_and, BitVec.getLsbD_append]
  split
  · simp
  · split
    · simp
    · rename_i h1 h2
      have h3 : k - 32 - 32 < 8 := by omega
      rw [BitVec.getLsbD_allOnes]; simp [h3]

/-- The same where the selector is fixed too. -/
theorem frame_and_selector (op : BitVec 8) (x n : Word) :
    frame op x n &&& 0xFFFFFFFFFF00000000#72 = frame op x 0#32 := by
  refine BitVec.eq_of_getLsbD_eq fun k hk => ?_
  have hm : (0xFFFFFFFFFF00000000#72 : FrameWord) = frame (BitVec.allOnes 8) (BitVec.allOnes 32) 0#32 := rfl
  rw [hm]
  simp only [frame, BitVec.getLsbD_and, BitVec.getLsbD_append]
  split
  · simp
  · split
    · rename_i h1 h2
      have h3 : k - 32 < 32 := by omega
      rw [BitVec.getLsbD_allOnes]; simp [h3]
    · rename_i h1 h2
      have h3 : k - 32 - 32 < 8 := by omega
      rw [BitVec.getLsbD_allOnes]; simp [h3]

namespace TableRow

/-- The encoding of an instruction lies in its row of the opcode table. -/
def Statement (i : Instr) : Prop := encode i &&& i.tableMask = i.tableMatch

theorem isLocked (c : CmdArgs) : Statement (.isLocked c) :=
  (frame_and_op 0x01#8 c.a c.n).trans rfl
theorem unlock (c : CmdArgs) : Statement (.unlock c) :=
  (frame_and_op 0x02#8 c.a c.n).trans rfl
theorem lock (c : CmdArgs) : Statement (.lock c) :=
  (frame_and_op 0x03#8 c.a c.n).trans rfl
theorem status (c : CmdArgs) : Statement (.status c) :=
  (frame_and_op 0x04#8 c.a c.n).trans rfl
theorem readNative (c : CmdArgs) : Statement (.readNative c) :=
  (frame_and_op 0x05#8 c.a c.n).trans rfl
theorem writeNative (c : CmdArgs) : Statement (.writeNative c) :=
  (frame_and_op 0x06#8 c.a c.n).trans rfl
theorem read (c : CmdArgs) : Statement (.read c) :=
  (frame_and_op 0x07#8 c.a c.n).trans rfl
theorem write (c : CmdArgs) : Statement (.write c) :=
  (frame_and_op 0x08#8 c.a c.n).trans rfl
theorem erasePage (c : CmdArgs) : Statement (.erasePage c) :=
  (frame_and_op 0x09#8 c.a c.n).trans rfl
theorem eraseAll (c : CmdArgs) : Statement (.eraseAll c) :=
  (frame_and_op 0x0A#8 c.a c.n).trans rfl
theorem acquire (c : CmdArgs) : Statement (.acquire c) :=
  (frame_and_op 0x0B#8 c.a c.n).trans rfl
theorem release (c : CmdArgs) : Statement (.release c) :=
  (frame_and_op 0x0C#8 c.a c.n).trans rfl
theorem rdCr (x v : Word) : Statement (.rdCr x v) :=
  (frame_and_op 0x01#8 x v).trans rfl
theorem modCrLock (v : Word) : Statement (.modCrLock v) :=
  (frame_and_selector 0x02#8 0#32 v).trans rfl
theorem modCrPg (v : Word) : Statement (.modCrPg v) :=
  (frame_and_selector 0x02#8 1#32 v).trans rfl
theorem modCrPer (v : Word) : Statement (.modCrPer v) :=
  (frame_and_selector 0x02#8 2#32 v).trans rfl
theorem modCrMer1 (v : Word) : Statement (.modCrMer1 v) :=
  (frame_and_selector 0x02#8 3#32 v).trans rfl
theorem modCrPnb (v : Word) : Statement (.modCrPnb v) :=
  (frame_and_selector 0x02#8 4#32 v).trans rfl
theorem modCrStart (v : Word) : Statement (.modCrStart v) :=
  (frame_and_selector 0x02#8 5#32 v).trans rfl
theorem rdSr (x v : Word) : Statement (.rdSr x v) :=
  (frame_and_op 0x03#8 x v).trans rfl
theorem wrKeyr (x v : Word) : Statement (.wrKeyr x v) :=
  (frame_and_op 0x04#8 x v).trans rfl
theorem ld32 (x v : Word) : Statement (.ld32 x v) :=
  (frame_and_op 0x05#8 x v).trans rfl
theorem st32 (x v : Word) : Statement (.st32 x v) :=
  (frame_and_op 0x06#8 x v).trans rfl

end TableRow
end Sys2Proof.Laws
end

