-- ==== Sys2Proof/Laws/Registers.lean ====
section
/-! SUPPORT. Every operation on the register layer keeps its invariant `RegsInv` (spec 10_state R30, R36, R37, R38). -/

namespace Sys2Proof.Machine

variable {c : Config} {r : Regs}

/-- Re-locking keeps the register layer's promises. -/
theorem regs_relock (h : RegsInv c r) : RegsInv c (relock r) :=
  ⟨h.busy, h.pnb_width, h.wcnt_lt, h.wbuf_words, h.wbase_unit, h.inflight_ok, h.arr_wf, h.arr_range⟩

/-- So does a key write. -/
theorem regs_keyWrite (v : Word) (h : RegsInv c r) : RegsInv c (keyWrite c v r) := by
  rcases keyWrite_cases c v r with ⟨k, hk, -⟩ | ⟨-, -, hk⟩ <;> rw [hk] <;>
  exact ⟨h.busy, h.pnb_width, h.wcnt_lt, h.wbuf_words, h.wbase_unit, h.inflight_ok, h.arr_wf, h.arr_range⟩

/-- So does setting WRPERR. -/
theorem regs_wrp (h : RegsInv c r) : RegsInv c { r with wrpErr := true } :=
  ⟨h.busy, h.pnb_width, h.wcnt_lt, h.wbuf_words, h.wbase_unit, h.inflight_ok, h.arr_wf, h.arr_range⟩

/-- So does writing PG, with the write buffer emptied where PG is cleared. -/
theorem regs_pg (hv : c.Valid) (b : Bool) (h : RegsInv c r) :
    RegsInv c { r with pg := b, wcnt := if b then r.wcnt else 0 } := by
  refine ⟨h.busy, h.pnb_width, ?_, h.wbuf_words, ?_, h.inflight_ok, h.arr_wf, h.arr_range⟩
  · cases b
    · exact unitWords_pos hv
    · exact h.wcnt_lt
  · cases b
    · simp
    · exact h.wbase_unit

/-- So does writing PNB. -/
theorem regs_pnb (v : Word) (h : RegsInv c r) : RegsInv c { r with pnb := pnbField c v } := by
  refine ⟨h.busy, ?_, h.wcnt_lt, h.wbuf_words, h.wbase_unit, h.inflight_ok, h.arr_wf, h.arr_range⟩
  simp only [pnbField, BitVec.toNat_ofNat]
  exact Nat.lt_of_le_of_lt (Nat.mod_le _ _) (Nat.mod_lt _ (by positivity))

/-- So does starting an operation FOP can complete. -/
theorem regs_start {f : Operation} (hf : OperationOk c f) (h : RegsInv c r) : RegsInv c (startOperation f r) :=
  ⟨rfl, h.pnb_width, h.wcnt_lt, h.wbuf_words, h.wbase_unit, by rintro _ ⟨⟩; exact hf, h.arr_wf, h.arr_range⟩

/-- So does a store the write buffer accepts. -/
theorem regs_accept (hv : c.Valid) {o : Nat} (v : Word) (ho : o < c.flashBytes) (hin : storeInOrder c r o = true)
    (h : RegsInv c r) : RegsInv c (acceptStore c o v r) := by
  obtain ⟨hu, hk⟩ := unit_of_offset hv ho
  simp only [storeInOrder, Bool.and_eq_true, Bool.or_eq_true, decide_eq_true_eq] at hin
  obtain ⟨hkw, hb⟩ := hin
  have hbase : UnitOffset c (if r.wcnt = 0 then unitOf c o else r.wbase) := by
    split
    · exact hu
    · rename_i h0; exact h.wbase_unit (by omega)
  unfold acceptStore
  split
  · refine ⟨rfl, h.pnb_width, unitWords_pos hv, ?_, ?_, ?_, h.arr_wf, h.arr_range⟩
    · simp [startProgram, startOperation, bufferWord, h.wbuf_words]
    · simp [startProgram]
    · rintro _ ⟨⟩
      refine ⟨hbase, ?_⟩
      simp [bufferWord, h.wbuf_words]
  · refine ⟨h.busy, h.pnb_width, ?_, ?_, fun _ => hbase, h.inflight_ok, h.arr_wf, h.arr_range⟩
    · simp only; omega
    · simp [bufferWord, h.wbuf_words]

/-- A unit has `NU` bytes. -/
theorem length_unitBytes_nu (hv : c.Valid) (ws : List Word) : (unitBytes c ws).length = c.nu := by
  rw [length_unitBytes, unitWords_mul hv]

/-- So does completing the operation in flight. -/
theorem regs_complete (hv : c.Valid) (d : Nat) {f : Operation} (hf : OperationOk c f) (h : RegsInv c r) :
    RegsInv c (complete c d f r) := by
  have key : ∀ (pe we : Bool) (m : Memory), Memory.wf m = true → (∀ cell ∈ m, cell.1 < c.flashBytes) →
      RegsInv c (endOperation { r with progErr := pe, wrpErr := we, arr := m }) := fun pe we m h1 h2 =>
    ⟨rfl, h.pnb_width, h.wcnt_lt, h.wbuf_words, h.wbase_unit, by rintro _ ⟨⟩, h1, h2⟩
  cases f with
  | prog o ws =>
    obtain ⟨⟨h0, hend⟩, hl⟩ := hf
    simp only [complete, completeProg]
    split
    · exact key _ _ _ h.arr_wf h.arr_range
    · split
      · refine key _ _ _ (wf_writeBytes _ _ h.arr_wf) fun cell hc => ?_
        rcases mem_writeBytes hc with hc | ⟨-, hc⟩
        · exact h.arr_range _ hc
        · rw [length_unitBytes_nu hv] at hc; omega
      · refine key _ _ _ (wf_scramble _ _ _ h.arr_wf) fun cell hc => ?_
        rcases mem_scramble hc with hc | ⟨-, hc⟩
        · exact h.arr_range _ hc
        · omega
  | erasePage p =>
    simp only [complete, completeErasePage]
    split
    · exact key _ _ _ h.arr_wf h.arr_range
    · exact key _ _ _ (wf_erase _ _ h.arr_wf) fun cell hc => h.arr_range _ (mem_erase.1 hc).1
  | eraseAll =>
    simp only [complete, completeEraseAll]
    split
    · exact key _ _ _ (wf_erase _ _ h.arr_wf) fun cell hc => h.arr_range _ (mem_erase.1 hc).1
    · exact key _ _ _ h.arr_wf h.arr_range

/-- `Reset` establishes them. -/
theorem regs_reset (hv : c.Valid) {m : Memory} (h1 : Memory.wf m = true) (h2 : ∀ cell ∈ m, cell.1 < c.flashBytes) :
    RegsInv c (State.resetOf c m).regs := by
  refine ⟨rfl, ?_, unitWords_pos hv, ?_, ?_, ?_, h1, h2⟩
  · simp [State.resetOf]
  · simp [State.resetOf]
  · simp [State.resetOf]
  · rintro _ ⟨⟩

/-- What an operation cut short can spoil lies in the array. -/
theorem lost_ok {f : Operation} (hf : OperationOk c f) :
    (lostRange c f).1 + (lostRange c f).2 ≤ c.flashBytes := by
  cases f with
  | prog o ws => exact hf.1.2
  | erasePage p =>
    have : p < c.pageCount := hf
    show p * c.pageSize + c.pageSize ≤ c.pageCount * c.pageSize
    calc p * c.pageSize + c.pageSize = (p + 1) * c.pageSize := by ring
      _ ≤ _ := Nat.mul_le_mul_right _ this
  | eraseAll => simp [lostRange]

end Sys2Proof.Machine
end

