-- ==== Sys2Proof/Tests/Slice0.lean ====
section
/-! SUPPORT. The model's own tests. Expected values are from spec 95_test_vectors: section 2.1 for the words, sections 2.2 to
2.8 for the register layer and the commands. The last part shows, for each obligation that has hypotheses, a state and
operands that meet all of them together, clause by clause. -/

namespace Sys2Proof.Tests
open Sys2Proof.Machine

/-! ### Small states -/

/-- No operands. -/
def c0 : CmdArgs := ⟨0#32, 0#32, []⟩

/-- The eight bytes of 95 S2. -/
def eight : List Byte := [1#8, 2#8, 3#8, 4#8, 10#8, 11#8, 12#8, 13#8]

/-- A state with other registers. -/
def regs (f : Regs → Regs) (s : State) : State := { s with regs := f s.regs }

/-- A state with `LOCK = 0`. -/
def unlocked : State := regs (fun r => { r with lock := false }) State.reset

/-- A state with other parameters. -/
def cfg (f : Config → Config) (s : State) : State := { s with cfg := f s.cfg }

/-- `s` under a guard. -/
def guarded (b : Bool) (s : State) : State := { s with eng := { s.eng with guard := .held b } }

/-- `s` in another phase. -/
def inPhase (p : Phase) (s : State) : State := { s with eng := { s.eng with phase := p } }

/-- `s` with an operation in flight. -/
def running (f : Operation) (s : State) : State := regs (fun r => { r with bsy := true, inflight := some f }) s

/-- `s` with the turn of `g` next. -/
def due (g : Agent) (s : State) : State := { s with sched := [g] }

/-- Unlocked, idle, under a guard: the entry of 95 S4. -/
def ready : State := guarded true unlocked

/-- `CR.PG = 1` and nothing stored yet. -/
def storing : State := regs (fun r => { r with pg := true }) unlocked

/-- One word of the unit at offset 0x32000 stored. -/
def halfStored : State :=
  regs (fun r => { r with wcnt := 1, wbase := 0x32000, wbuf := [0x04030201#32, 0#32] }) storing

/-! ### Well-formed terms: one ill-formed term for each check -/

theorem test_wf_no_operands : Instr.wellFormed (.isLocked ⟨1#32, 0#32, []⟩) = false ∧
    Instr.wellFormed (.release ⟨0#32, 0#32, [0#8]⟩) = false ∧ Instr.wellFormed (.eraseAll ⟨0#32, 1#32, []⟩) = false ∧
    Instr.wellFormed (.acquire c0) = true := by decide
theorem test_wf_address_only : Instr.wellFormed (.readNative ⟨8#32, 8#32, []⟩) = false ∧
    Instr.wellFormed (.erasePage ⟨8#32, 0#32, [0#8]⟩) = false ∧
    Instr.wellFormed (.erasePage ⟨255#32, 0#32, []⟩) = true := by decide
theorem test_wf_address_and_payload : Instr.wellFormed (.writeNative ⟨8#32, 0#32, []⟩) = false ∧
    Instr.wellFormed (.writeNative ⟨8#32, 0#32, eight⟩) = true := by decide
theorem test_wf_address_and_length : Instr.wellFormed (.read ⟨8#32, 8#32, [0#8]⟩) = false ∧
    Instr.wellFormed (.read ⟨8#32, 8#32, []⟩) = true := by decide
theorem test_wf_length_of_payload : Instr.wellFormed (.write ⟨8#32, 8#32, [0#8]⟩) = false ∧
    Instr.wellFormed (.write ⟨8#32, 8#32, eight⟩) = true := by decide
theorem test_wf_bus_reads : Instr.wellFormed (.rdCr 1#32 0#32) = false ∧
    Instr.wellFormed (.rdSr 0#32 1#32) = false := by decide
theorem test_wf_one_bit : Instr.wellFormed (.modCrStart 2#32) = false ∧ Instr.wellFormed (.modCrPg 1#32) = true ∧
    Instr.wellFormed (.modCrPnb 100#32) = true := by decide
theorem test_wf_key : Instr.wellFormed (.wrKeyr 1#32 0#32) = false := by decide
theorem test_wf_array_address : Instr.wellFormed (.ld32 2#32 0#32) = false ∧
    Instr.wellFormed (.ld32 4#32 1#32) = false ∧ Instr.wellFormed (.st32 3#32 0#32) = false := by decide

/-! ### Words written out from 30_encoding R93 and R98 -/

theorem test_decode_IS_LOCKED : decode .cmd 0x010000000000000000#72 [] = .ok (.isLocked c0) := rfl
theorem test_decode_UNLOCK : decode .cmd 0x020000000000000000#72 [] = .ok (.unlock c0) := rfl
theorem test_decode_LOCK : decode .cmd 0x030000000000000000#72 [] = .ok (.lock c0) := rfl
theorem test_decode_STATUS : decode .cmd 0x040000000000000000#72 [] = .ok (.status c0) := rfl
theorem test_decode_READ_NATIVE :
    decode .cmd 0x050803200000000000#72 [] = .ok (.readNative ⟨0x08032000#32, 0#32, []⟩) := rfl
theorem test_decode_WRITE_NATIVE :
    decode .cmd 0x060803200000000000#72 eight = .ok (.writeNative ⟨0x08032000#32, 0#32, eight⟩) := rfl
theorem test_decode_READ :
    decode .cmd 0x070803200000000008#72 [] = .ok (.read ⟨0x08032000#32, 8#32, []⟩) := rfl
theorem test_decode_WRITE :
    decode .cmd 0x080803200000000008#72 eight = .ok (.write ⟨0x08032000#32, 8#32, eight⟩) := rfl
theorem test_decode_ERASE_PAGE :
    decode .cmd 0x090000006400000000#72 [] = .ok (.erasePage ⟨100#32, 0#32, []⟩) := rfl
theorem test_decode_ERASE_ALL : decode .cmd 0x0A0000000000000000#72 [] = .ok (.eraseAll c0) := rfl
theorem test_decode_ACQUIRE : decode .cmd 0x0B0000000000000000#72 [] = .ok (.acquire c0) := rfl
theorem test_decode_RELEASE : decode .cmd 0x0C0000000000000000#72 [] = .ok (.release c0) := rfl
theorem test_decode_RD_CR : decode .bus 0x010000000000000000#72 [] = .ok (.rdCr 0#32 0#32) := rfl
theorem test_decode_MOD_CR_LOCK : decode .bus 0x020000000000000001#72 [] = .ok (.modCrLock 1#32) := rfl
theorem test_decode_MOD_CR_PG : decode .bus 0x020000000100000001#72 [] = .ok (.modCrPg 1#32) ∧
    decode .bus 0x020000000100000000#72 [] = .ok (.modCrPg 0#32) := ⟨rfl, rfl⟩
theorem test_decode_MOD_CR_PER : decode .bus 0x020000000200000001#72 [] = .ok (.modCrPer 1#32) := rfl
theorem test_decode_MOD_CR_MER1 : decode .bus 0x020000000300000001#72 [] = .ok (.modCrMer1 1#32) := rfl
theorem test_decode_MOD_CR_PNB : decode .bus 0x020000000400000064#72 [] = .ok (.modCrPnb 100#32) := rfl
theorem test_decode_MOD_CR_START : decode .bus 0x020000000500000001#72 [] = .ok (.modCrStart 1#32) := rfl
theorem test_decode_RD_SR : decode .bus 0x030000000000000000#72 [] = .ok (.rdSr 0#32 0#32) := rfl
theorem test_decode_WR_KEYR :
    decode .bus 0x040000000045670123#72 [] = .ok (.wrKeyr 0#32 0x45670123#32) := rfl
theorem test_decode_LD32 : decode .bus 0x050803200000000000#72 [] = .ok (.ld32 0x08032000#32 0#32) := rfl
theorem test_decode_ST32 :
    decode .bus 0x060803200004030201#72 [] = .ok (.st32 0x08032000#32 0x04030201#32) := rfl

/-- The ignored fields and the reserved opcodes of 95 section 2.1, and the reserved rows of R99. -/
theorem test_decode_reserved :
    decode .cmd 0x03DEADBEEF12345678#72 [] = .ok (.lock ⟨0xDEADBEEF#32, 0x12345678#32, []⟩) ∧
    decode .cmd 0x000000000000000000#72 [] = .error (.reservedOpcode 0x00#8) ∧
    decode .cmd 0x0D0000000000000000#72 [] = .error (.reservedOpcode 0x0D#8) ∧
    decode .cmd 0xFF0000000000000000#72 [] = .error (.reservedOpcode 0xFF#8) ∧
    decode .bus 0x000000000000000000#72 [] = .error (.reservedTransaction 0x00#8) ∧
    decode .bus 0x070000000000000000#72 [] = .error (.reservedTransaction 0x07#8) ∧
    decode .bus 0x020000000600000000#72 [] = .error (.reservedSelector 6#32) := ⟨rfl, rfl, rfl, rfl, rfl, rfl, rfl⟩

theorem test_encode :
    encode (.write ⟨0x08032000#32, 16#32, []⟩) = 0x080803200000000010#72 ∧
    encode (.modCrPnb 100#32) = 0x020000000400000064#72 ∧
    encode (.st32 0x08032004#32 0x0D0C0B0A#32) = 0x06080320040D0C0B0A#72 := by decide

/-- The host's table word runs the row's command as the first instruction. -/
theorem test_fetch_word : decodeTableWord 72 0x0B0000000000000000 = some (.acquire c0) ∧
    step (State.reset.withFetchWord 72 0x0B0000000000000000) = exec (.acquire c0) State.reset := ⟨rfl, rfl⟩

/-! ### One step of each transaction (95 sections 2.2, 2.3, 2.5, 2.7) -/

/-- REF's CR word after Reset has LOCK, at bit 31, alone. -/
theorem test_RD_CR : exec (.rdCr 0#32 0#32) State.reset = .next { State.reset with reply := .data 0x80000000#32 } := rfl
theorem test_RD_CR_pnb : crWord Config.ref { State.reset.regs with lock := false, per := true, pnb := 100#32 } =
    0x00000322#32 := by decide
/-- `WR_KEYR(K1); MOD_CR(LOCK,1); WR_KEYR(K2)`: the middle step. -/
theorem test_MOD_CR_LOCK : exec (.modCrLock 1#32) (regs (fun r => { r with kstate := .half }) State.reset) =
    .next { State.reset with reply := .done } := rfl
theorem test_MOD_CR_LOCK_zero : exec (.modCrLock 0#32) unlocked = .next { unlocked with reply := .done } := rfl
theorem test_MOD_CR_PG : exec (.modCrPg 0#32) halfStored = .next { regs (fun r => { r with
    wbase := 0x32000, wbuf := [0x04030201#32, 0#32] }) unlocked with reply := .done } := rfl
theorem test_MOD_CR_PG_busy : exec (.modCrPg 1#32) (running .eraseAll unlocked) = .refused .controlWhileBusy := rfl
/-- Writable while locked (D12). -/
theorem test_MOD_CR_PER : exec (.modCrPer 1#32) State.reset =
    .next { regs (fun r => { r with per := true }) State.reset with reply := .done } := rfl
theorem test_MOD_CR_MER1 : exec (.modCrMer1 1#32) unlocked =
    .next { regs (fun r => { r with mer1 := true }) unlocked with reply := .done } := rfl
theorem test_MOD_CR_PNB : exec (.modCrPnb 7#32) State.reset =
    .next { regs (fun r => { r with pnb := 7#32 }) State.reset with reply := .done } := rfl
theorem test_MOD_CR_START_page :
    exec (.modCrStart 1#32) (regs (fun r => { r with per := true, pnb := 100#32 }) unlocked) =
      .next { running (.erasePage 100) (regs (fun r => { r with per := true, pnb := 100#32 }) unlocked) with
        reply := .done } := rfl
theorem test_MOD_CR_START_stops : exec (.modCrStart 1#32) unlocked = .refused .startNotArmed ∧
    exec (.modCrStart 1#32) (regs (fun r => { r with per := true, mer1 := true }) unlocked) =
      .refused .startNotArmed ∧
    exec (.modCrStart 1#32) State.reset =
      .next { regs (fun r => { r with wrpErr := true }) State.reset with reply := .done } := ⟨rfl, rfl, rfl⟩
theorem test_RD_SR : exec (.rdSr 0#32 0#32) (running .eraseAll (regs (fun r => { r with wrpErr := true }) unlocked)) =
    .next { running .eraseAll (regs (fun r => { r with wrpErr := true }) unlocked) with
      reply := .data 0x00010010#32 } := rfl
/-- A first key in the second place kills the checker under Lockout and restarts it under Restart, not half-entered. -/
theorem test_WR_KEYR_wrong :
    exec (.wrKeyr 0#32 0x45670123#32) (regs (fun r => { r with kstate := .half }) State.reset) =
      .next { regs (fun r => { r with kstate := .dead }) State.reset with reply := .done } ∧
    exec (.wrKeyr 0#32 0x45670123#32)
        (cfg (fun c => { c with keyMismatch := .restart }) (regs (fun r => { r with kstate := .half }) State.reset)) =
      .next { cfg (fun c => { c with keyMismatch := .restart }) State.reset with reply := .done } := ⟨rfl, rfl⟩
theorem test_WR_KEYR_unlocks :
    exec (.wrKeyr 0#32 0xCDEF89AB#32) (regs (fun r => { r with kstate := .half }) State.reset) =
      .next { unlocked with reply := .done } := rfl
theorem test_LD32 : loadWord Config.ref [(0x32000, 1#8), (0x32001, 2#8), (0x32002, 3#8), (0x32003, 4#8)] 0x32000 =
      0x04030201#32 ∧
    loadWord { Config.ref with endian := .big } [(0x32000, 1#8), (0x32001, 2#8), (0x32002, 3#8), (0x32003, 4#8)] 0x32000 =
      0x01020304#32 := by decide
theorem test_LD32_busy : exec (.ld32 0x08032000#32 0#32) (running .eraseAll unlocked) =
    .next { running .eraseAll unlocked with reply := .waiting } := rfl
theorem test_ST32_fills : exec (.st32 0x08032000#32 0x04030201#32) storing =
      .next { halfStored with reply := .done } ∧
    exec (.st32 0x08032004#32 0x0D0C0B0A#32) halfStored = .next { running
      (.prog 0x32000 [0x04030201#32, 0x0D0C0B0A#32]) (regs (fun r => { r with
        wbase := 0x32000, wbuf := [0x04030201#32, 0x0D0C0B0A#32] }) storing) with reply := .done } := ⟨rfl, rfl⟩
theorem test_ST32_stops : exec (.st32 0x08032004#32 0#32) storing = .refused .storeOutOfOrder ∧
    exec (.st32 0x0803200C#32 0#32) halfStored = .refused .storeOutOfOrder ∧
    exec (.st32 0x08032000#32 0#32) unlocked = .refused .storeNotEnabled ∧
    exec (.st32 0x08032000#32 0#32) State.reset =
      .next { regs (fun r => { r with wrpErr := true }) State.reset with reply := .done } := ⟨rfl, rfl, rfl, rfl⟩

/-! ### FOP and the free bytes -/

theorem test_program_completes : unitBytes Config.ref [0x04030201#32, 0x0D0C0B0A#32] = eight ∧
    unitBytes { Config.ref with endian := .big } [0x01020304#32, 0x0A0B0C0D#32] = eight := by decide
/-- The protected page comes before the unit that is not erased. -/
theorem test_protected_program_first :
    (complete { Config.ref with wp := [100] } 0 (.prog 0x32000 [0#32, 0#32])
      { State.reset.regs with arr := [(0x32007, 0xFE#8)] }).wrpErr = true ∧
    (complete { Config.ref with wp := [100] } 0 (.prog 0x32000 [0#32, 0#32])
      { State.reset.regs with arr := [(0x32007, 0xFE#8)] }).progErr = false ∧
    (complete Config.ref 0 (.prog 0x32000 [0#32, 0#32])
      { State.reset.regs with arr := [(0x32007, 0xFE#8)] }).progErr = true := by decide
theorem test_erase_completes :
    complete Config.ref 0 (.erasePage 100)
      { State.reset.regs with bsy := true, inflight := some (.erasePage 100), arr := [(0x31FFF, 0#8), (0x32000, 0#8), (0x327FF, 0#8), (0x32800, 0#8)] } =
    { State.reset.regs with arr := [(0x31FFF, 0#8), (0x32800, 0#8)] } := by decide

/-! ### One step of each command (95 sections 2.2 to 2.8) -/

/-- After RESET, `IS_LOCKED -> Ok(1)`. -/
theorem test_IS_LOCKED : step (due .eng (accepted 0x01#8 .il0 c0 State.reset)) =
    .next { answered 0x01#8 (.okBit true) c0 State.reset with reply := .data 0x80000000#32 } := rfl
/-- An unlocked `UNLOCK` is one `RD_CR`. -/
theorem test_UNLOCK : step (due .eng (accepted 0x02#8 .ul0 c0 unlocked)) =
    .next { answered 0x02#8 .ok c0 unlocked with reply := .data 0#32 } := rfl
theorem test_LOCK : step (due .eng (accepted 0x03#8 .lk0 c0 unlocked)) =
    .next { answered 0x03#8 .ok c0 State.reset with reply := .done } := rfl
theorem test_STATUS : step (due .eng (accepted 0x04#8 .st0 c0 (regs (fun r => { r with progErr := true, wrpErr := true }) unlocked))) =
    .next { answered 0x04#8 (.err .programmingError) c0 (regs (fun r => { r with progErr := true, wrpErr := true }) unlocked)
      with reply := .data 0x18#32 } := rfl
theorem test_READ_NATIVE_unaligned :
    exec (.readNative ⟨0x08032004#32, 0#32, []⟩) State.reset =
      .next (violated 0x05#8 ⟨0x08032004#32, 0#32, []⟩ State.reset) := rfl
theorem test_WRITE_NATIVE_payload :
    exec (.writeNative ⟨0x08032000#32, 0#32, eight.take 7⟩) ready =
      .next (violated 0x06#8 ⟨0x08032000#32, 0#32, eight.take 7⟩ ready) := rfl
theorem test_WRITE_NATIVE_store : payloadWord (accepted 0x06#8 .wn2 ⟨0x08032000#32, 0#32, eight⟩ ready) = 0x04030201#32 := by
  decide
/-- The last unit, one unit past it, a length that passes 2^32, and the empty read at the top (95 section 2.6). -/
theorem test_READ_range :
    exec (.read ⟨0x0807FFF8#32, 8#32, []⟩) State.reset =
      .next (accepted 0x07#8 .rd0 ⟨0x0807FFF8#32, 8#32, []⟩ State.reset) ∧
    exec (.read ⟨0x0807FFF8#32, 16#32, []⟩) State.reset =
      .next (violated 0x07#8 ⟨0x0807FFF8#32, 16#32, []⟩ State.reset) ∧
    exec (.read ⟨0xFFFFFFF8#32, 16#32, []⟩) State.reset =
      .next (violated 0x07#8 ⟨0xFFFFFFF8#32, 16#32, []⟩ State.reset) ∧
    exec (.read ⟨0x08080000#32, 0#32, []⟩) State.reset =
      .next (accepted 0x07#8 .rd0 ⟨0x08080000#32, 0#32, []⟩ State.reset) := ⟨rfl, rfl, rfl, rfl⟩
/-- 95 S9: five bytes. -/
theorem test_WRITE_five_bytes : exec (.write ⟨0x08032000#32, 5#32, eight.take 5⟩) ready =
    .next (violated 0x08#8 ⟨0x08032000#32, 5#32, eight.take 5⟩ ready) := rfl
theorem test_ERASE_PAGE_range : exec (.erasePage ⟨255#32, 0#32, []⟩) ready =
      .next (accepted 0x09#8 .ep0 ⟨255#32, 0#32, []⟩ ready) ∧
    exec (.erasePage ⟨256#32, 0#32, []⟩) ready = .next (violated 0x09#8 ⟨256#32, 0#32, []⟩ ready) := ⟨rfl, rfl⟩
theorem test_ERASE_ALL_guard : exec (.eraseAll c0) unlocked = .next (violated 0x0A#8 c0 unlocked) := rfl
theorem test_ACQUIRE : step (due .eng (accepted 0x0B#8 .aq0 c0 unlocked)) =
    .next { answered 0x0B#8 .ok c0 (guarded false unlocked) with reply := .data 0#32 } := rfl
theorem test_RELEASE : step (due .eng (accepted 0x0C#8 .rl0 c0 ready)) =
    .next { answered 0x0C#8 .ok c0 State.reset with reply := .done } := rfl
/-- The abort sequence under `Held(true)` re-locks, and a later command is not accepted. -/
theorem test_abort : step (due .eng (violated 0x09#8 c0 ready)) =
      .next { inPhase .aborted { violated 0x09#8 c0 State.reset with reply := .done } with
        eng := { (violated 0x09#8 c0 State.reset).eng with phase := .aborted, rsp := 0x0F#8 } } ∧
    exec (.isLocked c0) (inPhase .aborted State.reset) = .fault .aborted := ⟨rfl, rfl⟩

/-! ### The end of a run (70_reset R277) -/

/-- An IS_LOCKED from reset ends well after its two steps, and not after one. -/
theorem test_ended_well :
    State.endedWell { State.reset with cmds := [⟨0x010000000000000000#72, []⟩] } 2 ∧
    ¬State.endedWell { State.reset with cmds := [⟨0x010000000000000000#72, []⟩] } 1 := by
  refine ⟨⟨⟨_, rfl, ⟨rfl, rfl, rfl⟩, rfl⟩, fun m hm t ht => ?_⟩, fun h => ?_⟩
  · rcases m with _ | _ | _ | m
    · cases ht; decide
    · cases ht; decide
    · cases ht; decide
    · omega
  · obtain ⟨⟨t, ht, hi, -⟩, -⟩ := h
    cases ht
    exact absurd hi.1 (by decide)

/-- A RELEASE without a guard aborts; a `Reset` after it leads to a state that is an end, but the run has not ended well. -/
theorem test_aborted_run_not_ended_well (s : State)
    (hs : s = { State.reset with cmds := [⟨0x0C0000000000000000#72, []⟩], sched := [.host, .eng, .reset] }) :
    (∃ t, runSteps 3 s = .next t ∧ t.ended ∧ t.eng.guard = .none) ∧ ¬s.endedWell 3 := by
  subst hs
  exact ⟨⟨_, rfl, ⟨rfl, rfl, rfl⟩, rfl⟩, fun h => h.2 2 (by decide) _ rfl rfl⟩

/-! ### Witnesses: the hypotheses of the obligations, met together

Each is named after its obligation. A clause with its own premises has its own part, at the ends of the ranges it names. -/

theorem ref_valid : Config.ref.Valid := by constructor <;> decide

/-- REF with page 100 protected. -/
def protectedRef : Config := { Config.ref with wp := [100] }

theorem protected_valid : protectedRef.Valid := by constructor <;> decide

/-- REF with a finite poll budget. -/
def boundedRef : Config := { Config.ref with pollBudget := some 3 }

theorem bounded_valid : boundedRef.Valid := by constructor <;> decide

/-- The state of 95 S4's entry keeps the register layer's promises, for any of the parameters above. -/
theorem ready_regs (b : Bool) : RegsInv Config.ref { State.reset.regs with lock := b } := by
  have h := regs_reset ref_valid (m := []) rfl (by simp)
  exact ⟨h.busy, h.pnb_width, h.wcnt_lt, h.wbuf_words, h.wbase_unit, h.inflight_ok, h.arr_wf, h.arr_range⟩

theorem ready_clean : ready.CleanEntry := ⟨by constructor <;> rfl, rfl⟩

/-- The entry with page 100 protected. -/
def readyProtected : State := cfg (fun _ => protectedRef) ready

theorem readyProtected_clean : readyProtected.CleanEntry := ⟨by constructor <;> rfl, rfl⟩

theorem readyProtected_regs : RegsInv protectedRef readyProtected.regs := by
  have h := regs_reset protected_valid (m := []) rfl (by simp)
  exact ⟨h.busy, h.pnb_width, h.wcnt_lt, h.wbuf_words, h.wbase_unit, h.inflight_ok, h.arr_wf, h.arr_range⟩

/-- The locked entry, under a guard. -/
def locked : State := guarded true State.reset

theorem locked_clean : locked.CleanEntry := ⟨by constructor <;> rfl, rfl⟩

/-- The locked entry after a failed key sequence: the key checker is dead. -/
def lockedDead : State := regs (fun r => { r with kstate := .dead }) locked

theorem lockedDead_quiet : lockedDead.QuietEntry := by constructor <;> rfl

/-- The entry with a finite poll budget. -/
def readyBounded : State := cfg (fun _ => boundedRef) ready

theorem readyBounded_clean : readyBounded.CleanEntry := ⟨by constructor <;> rfl, rfl⟩

theorem readyBounded_regs : RegsInv boundedRef readyBounded.regs := by
  have h := regs_reset bounded_valid (m := []) rfl (by simp)
  exact ⟨h.busy, h.pnb_width, h.wcnt_lt, h.wbuf_words, h.wbase_unit, h.inflight_ok, h.arr_wf, h.arr_range⟩

/-- Any number of busy reads is affordable without a budget, and the largest below a budget of 3 is 2. -/
theorem test_affordable : Affordable Config.ref 1000 ∧ Affordable boundedRef 2 ∧ ¬Affordable boundedRef 3 := by
  refine ⟨fun b hb => by (cases hb), fun b hb => by (cases hb; decide), fun h => ?_⟩
  exact absurd (h 3 rfl) (by decide)

theorem test_witness_ResetMeetsTheInvariant : Config.ref.Valid ∧
    Memory.wf [(0, 0#8), (0x7FFFF, 0xFE#8)] = true ∧
    ∀ cell ∈ ([(0, 0#8), (0x7FFFF, 0xFE#8)] : Memory), cell.1 < Config.ref.flashBytes := ⟨ref_valid, by decide, by decide⟩

theorem test_witness_ResetMoveAbandonsTheCommand :
    agentOf (due .reset State.reset) = .reset ∧ Memory.wf State.reset.regs.arr = true ∧
    (due .reset State.reset).regs.inflight = none ∧
    agentOf (due .reset (running (.prog 0x7FFF8 [0#32, 0#32]) unlocked)) = .reset ∧
    ¬(0x7FFF8 ≤ 0x7FFF7 ∧ 0x7FFF7 < 0x7FFF8 + Config.ref.nu) ∧
    agentOf (due .reset (running (.erasePage 0) unlocked)) = .reset ∧
    ¬(0 * Config.ref.pageSize ≤ 2048 ∧ 2048 < 0 * Config.ref.pageSize + Config.ref.pageSize) ∧
    agentOf (due .reset (running .eraseAll unlocked)) = .reset ∧ Config.ref.flashBytes ≤ 0x80000 := by decide

theorem test_witness_DecodingInvertsEncoding : decode .cmd 0x0C0000000000000000#72 [] = .ok (.release c0) ∧
    decode .bus 0x0600000000FFFFFFFF#72 [] = .ok (.st32 0#32 0xFFFFFFFF#32) := ⟨rfl, rfl⟩

theorem test_witness_ReservedWordsAreRejected : ∀ i, decode .bus 0x070000000000000000#72 [] ≠ .ok i := by
  intro i h
  have : decode .bus 0x070000000000000000#72 [] = .error (.reservedTransaction 0x07#8) := rfl
  rw [this] at h
  cases h

theorem test_witness_HostStepRunsTheDecodedCommand :
    agentOf (due .host State.reset) = .host ∧ (due .host State.reset).eng.phase = .idle ∧
    (due .host State.reset).cmds = [] ∧
    agentOf (State.reset.withFetchWord 72 0x0B0000000000000000) = .host ∧
    (State.reset.withFetchWord 72 0x0B0000000000000000).cmds = [⟨0x0B0000000000000000#72, []⟩] ∧
    decode .cmd 0x0B0000000000000000#72 [] = .ok (.acquire c0) ∧
    decode .cmd 0x0D0000000000000000#72 [] = .error (.reservedOpcode 0x0D#8) := by
  refine ⟨rfl, rfl, rfl, rfl, rfl, rfl, rfl⟩

/-- A phase without a transaction, a transaction that completes, one that waits and one that is refused. -/
theorem test_witness_EngineStepRunsItsTransaction :
    (agentOf (due .eng (inPhase .wr0 ready)) = .eng ∧ addressFits (due .eng (inPhase .wr0 ready)) = true ∧
      transaction (due .eng (inPhase .wr0 ready)) = none) ∧
    (transaction (due .eng (inPhase .il0 ready)) = some (.rdCr 0#32 0#32) ∧
      exec (.rdCr 0#32 0#32) (inPhase .il0 ready) =
        .next { inPhase .il0 ready with reply := .data 0#32 } ∧ (BusReply.data 0#32).pending = false) ∧
    (transaction (due .eng (inPhase .ul1 ready)) = some (.wrKeyr 0#32 0x45670123#32) ∧
      exec (.wrKeyr 0#32 0x45670123#32) (inPhase .ul1 ready) = .next { inPhase .ul1 ready with reply := .stalled } ∧
      BusReply.stalled.pending = true) ∧
    addressFits (due .eng (accepted 0x06#8 .wn2 ⟨0x08032000#32, 0#32, eight⟩ ready)) = true ∧
    transaction (due .eng (accepted 0x06#8 .wn2 ⟨0x08032000#32, 0#32, eight⟩ ready)) =
      some (.st32 0x08032000#32 0x04030201#32) ∧
    exec (.st32 0x08032000#32 0x04030201#32) (accepted 0x06#8 .wn2 ⟨0x08032000#32, 0#32, eight⟩ ready) =
      .refused .storeNotEnabled := by
  refine ⟨⟨rfl, rfl, rfl⟩, ⟨rfl, rfl, rfl⟩, ⟨rfl, rfl, rfl⟩, rfl, rfl, rfl⟩

/-- A turn in `IDLE`, one whose key write stalls, and one that completes. -/
theorem test_witness_PhaseMovesAlongTheTable :
    (agentOf (due .eng State.reset) = .eng ∧ State.reset.eng.phase = .idle ∧ ∃ t, step (due .eng State.reset) = .next t) ∧
    (∃ t, step (due .eng (inPhase .ul1 unlocked)) = .next t ∧ t.reply.pending = true) ∧
    ∃ t, step (due .eng (inPhase .ul1 State.reset)) = .next t ∧ t.reply.pending = false :=
  ⟨⟨rfl, rfl, _, rfl⟩, ⟨_, rfl, rfl⟩, _, rfl, rfl⟩

theorem test_witness_BusyPortBlocks : (inPhase .il0 State.reset).eng.phase ≠ .idle ∧
    (inPhase .il0 State.reset).eng.phase ≠ .aborted ∧ Instr.format (.release c0) = .cmd ∧
    agentOf (due .host (inPhase .il0 State.reset)) = .host := by decide

/-- Each pair of clauses at the two sides of its check. -/
theorem test_witness_AcceptanceChecksTheContract :
    State.reset.eng.phase = .idle ∧ State.reset.eng.guard = .none ∧ ready.eng.phase = .idle ∧
    ready.eng.guard = .held true ∧ (255#32).toNat < Config.ref.pageCount ∧ Config.ref.pageCount ≤ (256#32).toNat ∧
    ((0x0807FFF8#32).toNat % Config.ref.nu = 0 ∧ Config.ref.origin ≤ (0x0807FFF8#32).toNat ∧
      (0x0807FFF8#32).toNat + Config.ref.nu ≤ Config.ref.origin + Config.ref.flashBytes ∧
      eight.length = Config.ref.nu) ∧
    ¬((0x08080000#32).toNat + Config.ref.nu ≤ Config.ref.origin + Config.ref.flashBytes) ∧
    ((0x08080000#32).toNat % Config.ref.nu = 0 ∧ (0#32).toNat % Config.ref.nu = 0 ∧
      (0x08080000#32).toNat + (0#32).toNat ≤ Config.ref.origin + Config.ref.flashBytes ∧
      ([] : List Byte).length = (0#32).toNat) ∧
    ¬((5#32).toNat % Config.ref.nu = 0) := by decide

theorem test_witness_AbortSequenceEndsInAborted :
    agentOf (due .eng (inPhase .ab0 ready)) = .eng ∧ (inPhase .ab0 ready).eng.guard = .held true ∧
    (inPhase .ab0 ready).reply ≠ .stalled ∧ (inPhase .ab0 State.reset).eng.guard ≠ .held true ∧
    (inPhase .ab0 (guarded false ready)).eng.guard ≠ .held true := by decide

theorem test_witness_AbortedIsTerminal :
    (inPhase .aborted ready).eng.phase = .aborted ∧ agentOf (due .host (inPhase .aborted ready)) = .host ∧
    agentOf (due .eng (inPhase .aborted ready)) = .eng ∧ agentOf (due .reset (inPhase .aborted ready)) = .reset ∧
    ∃ t, step (due .fop (inPhase .aborted ready)) = .next t := ⟨rfl, rfl, rfl, rfl, _, rfl⟩

theorem test_witness_ControlWordHoldsItsFields : Config.ref.Valid ∧ (255#32).toNat < 2 ^ Config.ref.pnbWidth ∧
    crLock Config.ref 0x80000000#32 = State.reset.regs.lock ∧
    (inPhase .aq1 State.reset).eng.phase = .aq1 := ⟨ref_valid, by decide, by decide, rfl⟩

theorem test_witness_LockFieldOnlyLocks :
    (0xFFFFFFFF#32).getLsbD 0 = true ∧ (0xFFFFFFFE#32).getLsbD 0 = false := by decide

theorem test_witness_FirstKeyHalfEnters : State.reset.regs.lock = true ∧ State.reset.regs.kstate = .idle ∧
    0x45670123#32 = State.reset.cfg.key1 := by decide

theorem test_witness_SecondKeyAloneUnlocks :
    (regs (fun r => { r with kstate := .half }) State.reset).regs.lock = true ∧
    (regs (fun r => { r with kstate := .half }) State.reset).regs.kstate = .half ∧
    0xCDEF89AB#32 = State.reset.cfg.key2 ∧
    ∃ t, step (due .eng (inPhase .ul2 (regs (fun r => { r with kstate := .half }) State.reset))) = .next t ∧
      t.regs.lock = false := ⟨rfl, rfl, rfl, _, rfl, rfl⟩

theorem test_witness_WrongKeyLeavesItLocked :
    (State.reset.regs.lock = true ∧ State.reset.regs.kstate = .idle ∧ 0xCDEF89AB#32 ≠ State.reset.cfg.key1) ∧
    ((regs (fun r => { r with kstate := .half }) State.reset).regs.kstate = .half ∧
      0x45670123#32 ≠ State.reset.cfg.key2) ∧
    (regs (fun r => { r with kstate := .dead }) State.reset).regs.kstate = .dead := by decide

theorem test_witness_KeyWriteWhileUnlockedStalls :
    unlocked.regs.lock = false ∧
    (∃ t, step (due .fop { inPhase .ul1 unlocked with reply := .stalled }) = .next t) ∧
    (agentOf (due .eng (inPhase .aq3 unlocked)) = .eng ∧ (inPhase .aq3 unlocked).reply ≠ .stalled) := by
  refine ⟨rfl, ⟨_, rfl⟩, by decide⟩

theorem test_witness_IsLockedAnswersTheLockBit : State.reset.cfg.Valid ∧
    State.reset.regs.pnb.toNat < 2 ^ State.reset.cfg.pnbWidth ∧ State.reset.eng.phase = .idle :=
  ⟨ref_valid, by decide, rfl⟩

theorem test_witness_UnlockRunsTheKeySequence : State.reset.cfg.Valid ∧
    State.reset.regs.pnb.toNat < 2 ^ State.reset.cfg.pnbWidth ∧ State.reset.eng.phase = .idle ∧
    unlocked.regs.lock = false ∧ (State.reset.regs.lock = true ∧ State.reset.regs.kstate = .idle) ∧
    (regs (fun r => { r with kstate := .dead }) State.reset).regs.lock = true :=
  ⟨ref_valid, by decide, rfl, rfl, ⟨rfl, rfl⟩, rfl⟩

theorem test_witness_LockCommandLocks : unlocked.eng.phase = .idle := rfl

theorem test_witness_ExternalRelockLocks : agentOf (due .extRelock unlocked) = .extRelock ∧
    (cfg (fun c => { c with extRelock := true }) unlocked).cfg.extRelock = true ∧
    unlocked.cfg.extRelock = false := by decide

theorem test_witness_StatusWordHoldsItsFields : State.reset.cfg.Valid := ref_valid

/-- One word of REF for each of the four answers. -/
theorem test_witness_StatusDecoderHasPriorities :
    (srBsy Config.ref 0#32 = false ∧ srProgErr Config.ref 0#32 = false ∧ srWrpErr Config.ref 0#32 = false) ∧
    (srBsy Config.ref 0x10#32 = false ∧ srProgErr Config.ref 0x10#32 = false ∧
      srWrpErr Config.ref 0x10#32 = true) ∧
    (srBsy Config.ref 0x18#32 = false ∧ srProgErr Config.ref 0x18#32 = true) ∧
    srBsy Config.ref 0x10018#32 = true := by decide

theorem test_witness_StatusAnswersTheDecoder : ready.cfg.Valid ∧ ready.eng.phase = .idle ∧
    (running .eraseAll ready).regs.bsy = true ∧ ready.regs.bsy = false ∧ ready.regs.progErr = false ∧
    ready.regs.wrpErr = false ∧ (regs (fun r => { r with progErr := true }) ready).regs.progErr = true ∧
    (regs (fun r => { r with wrpErr := true }) ready).regs.wrpErr = true :=
  ⟨ref_valid, rfl, rfl, rfl, rfl, rfl, rfl, rfl⟩

/-- With a budget of 3: the second busy read is not the last, the third is. -/
theorem test_witness_PollCountsBusyReads : boundedRef.Valid ∧ agentOf (due .eng (inPhase .ep4 ready)) = .eng ∧
    (inPhase .ep4 ready).reply ≠ .stalled ∧
    (Phase.ep4, Phase.ep5) ∈ [(Phase.wn3, Phase.wn4), (Phase.ep4, Phase.ep5), (Phase.ea3, Phase.ea4)] ∧
    (inPhase .ep4 ready).regs.bsy = false ∧ (inPhase .ep4 (running (.erasePage 0) ready)).regs.bsy = true ∧
    boundedRef.pollBudget ≠ some (1 + 1) ∧ boundedRef.pollBudget = some (2 + 1) :=
  ⟨bounded_valid, by decide, by decide, by decide, rfl, rfl, by decide, rfl⟩

theorem test_witness_PrecheckFailureChangesNothing : ready.cfg.Valid ∧
    (running .eraseAll ready).eng.phase = .idle ∧ (running .eraseAll ready).eng.guard = .held true ∧
    (running .eraseAll ready).regs.bsy = true ∧
    (regs (fun r => { r with progErr := true }) ready).regs.bsy = false ∧
    (regs (fun r => { r with wrpErr := true }) ready).regs.progErr = false ∧
    (255#32).toNat < ready.cfg.pageCount ∧ (0x0807FFF8#32).toNat % ready.cfg.nu = 0 ∧
    ready.cfg.origin ≤ (0x0807FFF8#32).toNat ∧
    (0x0807FFF8#32).toNat + (8#32).toNat ≤ ready.cfg.origin + ready.cfg.flashBytes ∧
    eight.length = (8#32).toNat ∧ (8#32).toNat = ready.cfg.nu ∧ 0 < (8#32).toNat :=
  ⟨ref_valid, by decide⟩

theorem test_witness_AcquireRecordsTheLockBit : State.reset.cfg.Valid ∧
    State.reset.regs.pnb.toNat < 2 ^ State.reset.cfg.pnbWidth ∧ State.reset.eng.phase = .idle ∧
    State.reset.eng.guard = .none ∧ unlocked.eng.guard = .none ∧ unlocked.regs.lock = false ∧
    (State.reset.regs.lock = true ∧ State.reset.regs.kstate = .idle) ∧
    (regs (fun r => { r with kstate := .dead }) State.reset).regs.lock = true := ⟨ref_valid, by decide⟩

theorem test_witness_ReleaseRestoresTheLock : ready.eng.phase = .idle ∧ ready.eng.guard = .held true ∧
    (guarded false ready).eng.guard = .held false := by decide

theorem acquiring_inv : (due .eng (accepted 0x0B#8 .aq0 c0 State.reset)).Inv := by
  refine ⟨ref_valid, ready_regs true, ?_, fun _ => ?_, fun _ => ?_⟩
  · constructor <;> simp [due, accepted, State.reset, State.resetOf, Phase.isWrite, Phase.isErasePage,
      Phase.isEraseAll, Phase.isPoll]
  · constructor <;> simp [due, accepted, State.reset, State.resetOf]
  · constructor <;> simp [due, accepted, State.reset, State.resetOf]

theorem releasing_inv (g : Agent) : (due g (accepted 0x0C#8 .rl0 c0 ready)).Inv := by
  refine ⟨ref_valid, ready_regs false, ?_, fun _ => ?_, fun _ => ?_⟩
  · constructor <;> simp [due, accepted, ready, guarded, unlocked, regs, State.reset, State.resetOf, Phase.isWrite,
      Phase.isErasePage, Phase.isEraseAll, Phase.isPoll, Guard.isHeld]
  · constructor <;> simp [due, accepted, ready, guarded, unlocked, regs, State.reset, State.resetOf]
  · constructor <;> simp [due, accepted, ready, guarded, unlocked, regs, State.reset, State.resetOf]

theorem test_witness_GuardBeginsAndEndsByRule :
    ((due .eng (accepted 0x0B#8 .aq0 c0 State.reset)).Inv ∧
      ∃ t, step (due .eng (accepted 0x0B#8 .aq0 c0 State.reset)) = .next t ∧
        (accepted 0x0B#8 .aq0 c0 State.reset).eng.guard = .none ∧ t.eng.guard ≠ .none) ∧
    ((due .eng (accepted 0x0C#8 .rl0 c0 ready)).Inv ∧
      ∃ t, step (due .eng (accepted 0x0C#8 .rl0 c0 ready)) = .next t) ∧
    (due .reset (accepted 0x0C#8 .rl0 c0 ready)).Inv ∧
      ∃ t, step (due .reset (accepted 0x0C#8 .rl0 c0 ready)) = .next t :=
  ⟨⟨acquiring_inv, _, rfl, rfl, fun h => by cases h⟩, ⟨releasing_inv .eng, _, rfl⟩, releasing_inv .reset, _, rfl⟩

/-- The last word of the array, the first address past it, the one below it and an unaligned one. -/
theorem test_witness_LoadReturnsTheArrayWord :
    ((0x0807FFFC#32).toNat % 4 = 0 ∧ Config.ref.origin ≤ (0x0807FFFC#32).toNat ∧
      (0x0807FFFC#32).toNat + 4 ≤ Config.ref.origin + Config.ref.flashBytes) ∧
    ¬((0x08080000#32).toNat + 4 ≤ Config.ref.origin + Config.ref.flashBytes) ∧
    ¬(Config.ref.origin ≤ (0x07FFFFFC#32).toNat) ∧ ¬((0x08000002#32).toNat % 4 = 0) ∧
    (running .eraseAll unlocked).regs.bsy = true ∧ unlocked.regs.bsy = false ∧ unlocked.cfg.endian = .little ∧
    (cfg (fun c => { c with endian := .big }) unlocked).cfg.endian = .big := by decide

theorem test_witness_ProgramEnableIsWritten : unlocked.regs.bsy = false ∧
    (running .eraseAll unlocked).regs.bsy = true := by decide

theorem halfStored_regs : RegsInv Config.ref halfStored.regs := by
  have h := ready_regs false
  exact ⟨h.busy, h.pnb_width, by decide, by decide, fun _ => ⟨by decide, by decide⟩, h.inflight_ok, h.arr_wf, h.arr_range⟩

theorem storing_regs : RegsInv Config.ref storing.regs := by
  have h := ready_regs false
  exact ⟨h.busy, h.pnb_width, h.wcnt_lt, h.wbuf_words, h.wbase_unit, h.inflight_ok, h.arr_wf, h.arr_range⟩

/-- The first word of a unit, the last word of it, and a locked flash. -/
theorem test_witness_StoreFillsTheWriteBuffer : Config.ref.Valid ∧ RegsInv Config.ref storing.regs ∧
    RegsInv Config.ref halfStored.regs ∧ RegsInv Config.ref State.reset.regs ∧ State.reset.regs.lock = true ∧
    storing.regs.bsy = false ∧ storing.regs.lock = false ∧ storing.regs.pg = true ∧ storing.regs.per = false ∧
    storing.regs.mer1 = false ∧
    ((0x32000 % Config.ref.nu) / 4 = storing.regs.wcnt ∧ storing.regs.wcnt = 0 ∧
      (0x32000 % Config.ref.nu) / 4 + 1 < Config.ref.nu / 4) ∧
    ((0x32004 % Config.ref.nu) / 4 = halfStored.regs.wcnt ∧ 0x32004 - 0x32004 % Config.ref.nu = halfStored.regs.wbase ∧
      (0x32004 % Config.ref.nu) / 4 + 1 = Config.ref.nu / 4) ∧
    (0x08032004#32).toNat - Config.ref.origin = 0x32004 ∧ (0x08032004#32).toNat % 4 = 0 ∧
    (0x08032004#32).toNat + 4 ≤ Config.ref.origin + Config.ref.flashBytes :=
  ⟨ref_valid, storing_regs, halfStored_regs, ready_regs true, by decide⟩

theorem test_witness_StoreIsRefusedWhereUndefined :
    ¬((0x08080000#32).toNat + 4 ≤ Config.ref.origin + Config.ref.flashBytes) ∧
    (running .eraseAll storing).regs.bsy = true ∧ (unlocked.regs.lock = false ∧ unlocked.regs.pg = false) ∧
    (regs (fun r => { r with per := true }) storing).regs.per = true ∧
    (storing.regs.pg = true ∧ storing.regs.per = false ∧ storing.regs.mer1 = false) ∧
    (0x32004 % Config.ref.nu) / 4 ≠ storing.regs.wcnt ∧
    (0 < halfStored.regs.wcnt ∧ 0x3200C - 0x3200C % Config.ref.nu ≠ halfStored.regs.wbase) := by decide

/-- The last unit erased, not erased, and on a protected page. -/
theorem test_witness_ProgrammingCompletes : Config.ref.Valid ∧ protectedRef.Valid ∧
    Memory.wf [(0x7FFFF, 0#8)] = true ∧
    agentOf (due .fop (running (.prog 0x7FFF8 [0#32, 0#32]) unlocked)) = .fop ∧
    (running (.prog 0x7FFF8 [0#32, 0#32]) unlocked).regs.inflight = some (.prog 0x7FFF8 [0#32, 0#32]) ∧
    0x7FFF8 / Config.ref.pageSize ∉ Config.ref.wp ∧ 0x32000 / protectedRef.pageSize ∈ protectedRef.wp ∧
    (∀ m < Config.ref.nu, Memory.read [] (0x7FFF8 + m) = 0xFF#8) ∧
    (∃ m < Config.ref.nu, Memory.read [(0x7FFFF, 0#8)] (0x7FFF8 + m) ≠ 0xFF#8) :=
  ⟨ref_valid, protected_valid, by decide, rfl, rfl, by decide, by decide, fun _ _ => rfl, 7, by decide, by decide⟩

theorem test_witness_ReadNativeReturnsTheUnit : State.reset.cfg.Valid ∧ State.reset.eng.phase = .idle ∧
    ¬((0x08080000#32).toNat + Config.ref.nu ≤ Config.ref.origin + Config.ref.flashBytes) ∧
    (0x0807FFF8#32).toNat % Config.ref.nu = 0 ∧ Config.ref.origin ≤ (0x0807FFF8#32).toNat ∧
    (0x0807FFF8#32).toNat + Config.ref.nu ≤ Config.ref.origin + Config.ref.flashBytes ∧
    State.reset.regs.bsy = false ∧ (running .eraseAll State.reset).regs.bsy = true := ⟨ref_valid, by decide⟩

/-- The last unit of the array, written from the entry of 95 S4. -/
theorem test_witness_WriteNativeProgramsTheUnit : ready.cfg.Valid ∧ RegsInv ready.cfg ready.regs ∧
    ready.CleanEntry ∧ ready.regs.lock = false ∧ ready.eng.guard = .held true ∧
    (0x0807FFF8#32).toNat % ready.cfg.nu = 0 ∧ ready.cfg.origin ≤ (0x0807FFF8#32).toNat ∧
    (0x0807FFF8#32).toNat + ready.cfg.nu ≤ ready.cfg.origin + ready.cfg.flashBytes ∧
    eight.length = ready.cfg.nu ∧ 0x7FFF8 = (0x0807FFF8#32).toNat - ready.cfg.origin ∧
    0x7FFF8 / ready.cfg.pageSize ∉ ready.cfg.wp ∧ Affordable ready.cfg 5 ∧
    ∀ m < ready.cfg.nu, Memory.read ready.regs.arr (0x7FFF8 + m) = 0xFF#8 :=
  ⟨ref_valid, ready_regs false, ready_clean, rfl, rfl, by decide, by decide, by decide, by decide, by decide,
    by decide, (fun b hb => by (cases hb)), fun _ _ => rfl⟩

/-- The first unit, and the last two units, of a flash that a failed key sequence left locked. -/
theorem test_witness_WritesOnLockedFlashFail : lockedDead.cfg.Valid ∧ lockedDead.QuietEntry ∧
    lockedDead.regs.kstate = .dead ∧ locked.QuietEntry ∧ lockedDead.regs.lock = true ∧
    lockedDead.eng.guard = .held true ∧
    ((0x08000000#32).toNat % lockedDead.cfg.nu = 0 ∧ lockedDead.cfg.origin ≤ (0x08000000#32).toNat ∧
      (0x08000000#32).toNat + lockedDead.cfg.nu ≤ lockedDead.cfg.origin + lockedDead.cfg.flashBytes ∧
      eight.length = lockedDead.cfg.nu) ∧
    (0x0807FFF0#32).toNat % lockedDead.cfg.nu = 0 ∧ lockedDead.cfg.origin ≤ (0x0807FFF0#32).toNat ∧
    (16#32).toNat % lockedDead.cfg.nu = 0 ∧ 0 < (16#32).toNat ∧
    (0x0807FFF0#32).toNat + (16#32).toNat ≤ lockedDead.cfg.origin + lockedDead.cfg.flashBytes ∧
    (eight ++ eight).length = (16#32).toNat :=
  ⟨ref_valid, lockedDead_quiet, rfl, locked_clean.toQuietEntry, rfl, rfl, by decide⟩

/-- A unit of the protected page, and a unit whose last byte is not erased. -/
theorem test_witness_WritesReportFailure : readyProtected.cfg.Valid ∧
    RegsInv readyProtected.cfg readyProtected.regs ∧ readyProtected.CleanEntry ∧ readyProtected.regs.lock = false ∧
    readyProtected.eng.guard = .held true ∧ (0x08032000#32).toNat % readyProtected.cfg.nu = 0 ∧
    readyProtected.cfg.origin ≤ (0x08032000#32).toNat ∧
    (0x08032000#32).toNat + readyProtected.cfg.nu ≤ readyProtected.cfg.origin + readyProtected.cfg.flashBytes ∧
    eight.length = readyProtected.cfg.nu ∧ 0x32000 = (0x08032000#32).toNat - readyProtected.cfg.origin ∧
    Affordable readyProtected.cfg 0 ∧ 0x32000 / readyProtected.cfg.pageSize ∈ readyProtected.cfg.wp ∧
    0x7FFF8 / readyProtected.cfg.pageSize ∉ readyProtected.cfg.wp ∧
    Memory.read [(0x7FFFF, 0#8)] (0x7FFF8 + 7) ≠ 0xFF#8 :=
  ⟨protected_valid, readyProtected_regs, readyProtected_clean, rfl, rfl, by decide, by decide, by decide, by decide,
    by decide, (fun b hb => by (cases hb)), by decide, by decide, by decide⟩

/-- The WRITE clauses: the last unit before the protected page succeeds and the page's first unit fails; and, as in 95 P3,
the second of two units is not erased. -/
theorem test_witness_WritesReportFailure_stride :
    ((0x08031FF8#32).toNat % readyProtected.cfg.nu = 0 ∧ readyProtected.cfg.origin ≤ (0x08031FF8#32).toNat ∧
      0x31FF8 = (0x08031FF8#32).toNat - readyProtected.cfg.origin ∧ (16#32).toNat % readyProtected.cfg.nu = 0 ∧
      (0x08031FF8#32).toNat + (16#32).toNat ≤ readyProtected.cfg.origin + readyProtected.cfg.flashBytes ∧
      (eight ++ eight).length = (16#32).toNat ∧ 0x32000 = 0x31FF8 + [5].length * readyProtected.cfg.nu ∧
      [5].length < (16#32).toNat / readyProtected.cfg.nu) ∧
    (∀ m < [5].length * readyProtected.cfg.nu, (0x31FF8 + m) / readyProtected.cfg.pageSize ∉ readyProtected.cfg.wp ∧
      Memory.read readyProtected.regs.arr (0x31FF8 + m) = 0xFF#8) ∧
    (∀ q ∈ [5], Affordable readyProtected.cfg q) ∧ 0x32000 / readyProtected.cfg.pageSize ∈ readyProtected.cfg.wp ∧
    0x32008 / Config.ref.pageSize ∉ Config.ref.wp ∧
    (∀ m < Config.ref.nu, Memory.read [(0x32008, 0#8)] (0x32000 + m) = 0xFF#8) ∧
    Memory.read [(0x32008, 0#8)] (0x32008 + 0) ≠ 0xFF#8 :=
  ⟨by decide, by decide, (fun q _ b hb => by (cases hb)), by decide, by decide, by decide, by decide⟩

/-- The last clause: the second stride spends a budget of 3, after a first one that made the 2 busy reads it affords. -/
theorem test_witness_WritesReportFailure_timeout : readyBounded.cfg.Valid ∧
    RegsInv readyBounded.cfg readyBounded.regs ∧ readyBounded.CleanEntry ∧ readyBounded.regs.lock = false ∧
    readyBounded.eng.guard = .held true ∧
    ((0x0807FFF0#32).toNat % readyBounded.cfg.nu = 0 ∧ readyBounded.cfg.origin ≤ (0x0807FFF0#32).toNat ∧
      0x7FFF0 = (0x0807FFF0#32).toNat - readyBounded.cfg.origin ∧ (16#32).toNat % readyBounded.cfg.nu = 0 ∧
      (0x0807FFF0#32).toNat + (16#32).toNat ≤ readyBounded.cfg.origin + readyBounded.cfg.flashBytes ∧
      (eight ++ eight).length = (16#32).toNat ∧ 0x7FFF8 = 0x7FFF0 + [2].length * readyBounded.cfg.nu ∧
      [2].length < (16#32).toNat / readyBounded.cfg.nu ∧ readyBounded.cfg.pollBudget = some 3) ∧
    (∀ m < [2].length * readyBounded.cfg.nu, (0x7FFF0 + m) / readyBounded.cfg.pageSize ∉ readyBounded.cfg.wp ∧
      Memory.read readyBounded.regs.arr (0x7FFF0 + m) = 0xFF#8) ∧
    ∀ q ∈ [2], Affordable readyBounded.cfg q :=
  ⟨bounded_valid, readyBounded_regs, readyBounded_clean, rfl, rfl, by decide, by decide,
    fun q hq b hb => by cases hb; simp_all⟩

theorem test_witness_ReadReturnsTheRange : State.reset.cfg.Valid ∧ State.reset.eng.phase = .idle ∧
    ¬((0x0807FFF8#32).toNat + (16#32).toNat ≤ Config.ref.origin + Config.ref.flashBytes) ∧
    ((0x0807FFF8#32).toNat % Config.ref.nu = 0 ∧ (8#32).toNat % Config.ref.nu = 0 ∧
      Config.ref.origin ≤ (0x0807FFF8#32).toNat ∧
      (0x0807FFF8#32).toNat + (8#32).toNat ≤ Config.ref.origin + Config.ref.flashBytes) ∧
    (0x08080000#32).toNat + (0#32).toNat ≤ Config.ref.origin + Config.ref.flashBytes ∧
    State.reset.regs.bsy = false ∧ (running .eraseAll State.reset).regs.bsy = true ∧ 8#32 ≠ 0#32 :=
  ⟨ref_valid, by decide⟩

/-- The last two units of the array, each polled another number of times. -/
theorem test_witness_WriteProgramsTheRange : ready.cfg.Valid ∧ RegsInv ready.cfg ready.regs ∧ ready.CleanEntry ∧
    ready.regs.lock = false ∧ ready.eng.guard = .held true ∧ (0x0807FFF0#32).toNat % ready.cfg.nu = 0 ∧
    (16#32).toNat % ready.cfg.nu = 0 ∧ ready.cfg.origin ≤ (0x0807FFF0#32).toNat ∧
    (0x0807FFF0#32).toNat + (16#32).toNat ≤ ready.cfg.origin + ready.cfg.flashBytes ∧
    (eight ++ eight).length = (16#32).toNat ∧ 0x7FFF0 = (0x0807FFF0#32).toNat - ready.cfg.origin ∧
    (∀ m < (16#32).toNat, (0x7FFF0 + m) / ready.cfg.pageSize ∉ ready.cfg.wp ∧
      Memory.read ready.regs.arr (0x7FFF0 + m) = 0xFF#8) ∧
    [0, 3].length = (16#32).toNat / ready.cfg.nu ∧ ∀ k ∈ [0, 3], Affordable ready.cfg k :=
  ⟨ref_valid, ready_regs false, ready_clean, rfl, rfl, by decide, by decide, by decide, by decide, by decide,
    by decide, (fun _ _ => ⟨List.not_mem_nil, rfl⟩), by decide, fun k _ b hb => by (cases hb)⟩

/-- The same range, read again. -/
theorem test_witness_WriteThenReadReturnsTheBytes :
    (⟨0x0807FFF0#32, 16#32, []⟩ : CmdArgs).a = (⟨0x0807FFF0#32, 16#32, eight ++ eight⟩ : CmdArgs).a ∧
    (⟨0x0807FFF0#32, 16#32, []⟩ : CmdArgs).n = (⟨0x0807FFF0#32, 16#32, eight ++ eight⟩ : CmdArgs).n ∧
    ready.cfg.Valid ∧ RegsInv ready.cfg ready.regs ∧ ready.CleanEntry ∧ ready.regs.lock = false ∧
    ready.eng.guard = .held true ∧ [0, 3].length = (16#32).toNat / ready.cfg.nu :=
  ⟨rfl, rfl, ref_valid, ready_regs false, ready_clean, rfl, rfl, by decide⟩

/-- The top of the flash space. -/
theorem test_witness_EmptyRangeTouchesNothing : ready.eng.phase = .idle ∧
    (0x08080000#32).toNat % ready.cfg.nu = 0 ∧ ready.cfg.origin ≤ (0x08080000#32).toNat ∧
    (0x08080000#32).toNat ≤ ready.cfg.origin + ready.cfg.flashBytes ∧ ready.eng.guard = .held true := by decide

theorem test_witness_EraseControlsAreWritten : unlocked.regs.bsy = false ∧
    (running .eraseAll unlocked).regs.bsy = true := by decide

/-- `CR` with PER, or with MER1, armed for page `p`. -/
def armed (per mer1 : Bool) (p : Word) : State :=
  regs (fun r => { r with per := per, mer1 := mer1, pnb := p }) unlocked

theorem test_witness_StartTriggersWhatIsArmed : (0#32).getLsbD 0 = false ∧ (1#32).getLsbD 0 = true ∧
    State.reset.regs.lock = true ∧ State.reset.regs.bsy = false ∧
    ((armed true false 255#32).regs.lock = false ∧ (armed true false 255#32).regs.pg = false ∧
      (armed true false 255#32).regs.per = true ∧ (armed true false 255#32).regs.mer1 = false ∧
      (armed true false 255#32).regs.pnb.toNat < Config.ref.pageCount) ∧
    (armed false true 0#32).regs.mer1 = true ∧ (armed false true 0#32).regs.per = false := by decide

theorem test_witness_StartIsRefusedWhereUndefined : (1#32).getLsbD 0 = true ∧
    (running .eraseAll unlocked).regs.bsy = true ∧ (unlocked.regs.bsy = false ∧ unlocked.regs.lock = false) ∧
    storing.regs.pg = true ∧ (armed true true 0#32).regs.per = (armed true true 0#32).regs.mer1 ∧
    (armed false false 0#32).regs.per = (armed false false 0#32).regs.mer1 ∧
    ((armed true false 256#32).regs.per = true ∧ Config.ref.pageCount ≤ (armed true false 256#32).regs.pnb.toNat) := by
  decide

/-- The last page and the whole array, unprotected and protected. -/
theorem test_witness_ErasingCompletes :
    agentOf (due .fop (running (.erasePage 255) unlocked)) = .fop ∧ Memory.wf unlocked.regs.arr = true ∧
    (running (.erasePage 255) unlocked).regs.inflight = some (.erasePage 255) ∧
    (running .eraseAll unlocked).regs.inflight = some .eraseAll ∧ 100 ∈ readyProtected.cfg.wp ∧
    255 ∉ readyProtected.cfg.wp ∧ readyProtected.cfg.wp ≠ [] ∧ unlocked.cfg.wp = [] := by decide

theorem test_witness_ErasePageErasesThePage : ready.cfg.Valid ∧ ready.CleanEntry ∧ ready.regs.lock = false ∧
    ready.eng.guard = .held true ∧ (255#32).toNat < ready.cfg.pageCount ∧ (255#32).toNat ∉ ready.cfg.wp ∧
    Affordable ready.cfg 4 :=
  ⟨ref_valid, ready_clean, rfl, rfl, by decide, by decide, fun b hb => by (cases hb)⟩

theorem test_witness_EraseAllErasesTheArray : ready.cfg.Valid ∧ ready.CleanEntry ∧ ready.regs.lock = false ∧
    ready.eng.guard = .held true ∧ ready.cfg.wp = [] ∧ Affordable ready.cfg 4 :=
  ⟨ref_valid, ready_clean, rfl, rfl, rfl, fun b hb => by (cases hb)⟩

theorem test_witness_ProtectedEraseIsReported :
    (lockedDead.cfg.Valid ∧ lockedDead.QuietEntry ∧ lockedDead.regs.kstate = .dead ∧
      lockedDead.eng.guard = .held true ∧ lockedDead.regs.lock = true ∧
      (255#32).toNat < lockedDead.cfg.pageCount ∧ Affordable lockedDead.cfg 0) ∧
    readyProtected.cfg.Valid ∧ readyProtected.QuietEntry ∧ readyProtected.eng.guard = .held true ∧
    readyProtected.regs.lock = false ∧ (100#32).toNat ∈ readyProtected.cfg.wp ∧ readyProtected.cfg.wp ≠ [] ∧
    Affordable readyProtected.cfg 1 :=
  ⟨⟨ref_valid, lockedDead_quiet, rfl, rfl, rfl, by decide, fun b hb => by (cases hb)⟩, protected_valid,
    readyProtected_clean.toQuietEntry, rfl, rfl, by decide, by decide, fun b hb => by (cases hb)⟩

theorem test_witness_StepKeepsTheInvariant : (due .eng (accepted 0x0C#8 .rl0 c0 ready)).Inv ∧
    ∃ t, step (due .eng (accepted 0x0C#8 .rl0 c0 ready)) = .next t := ⟨releasing_inv .eng, _, rfl⟩

/-- Both ways the keys can be apart. -/
theorem test_witness_EngineIsNeverRefused : (due .eng (accepted 0x0B#8 .aq0 c0 State.reset)).Inv ∧
    State.reset.cfg.pollBudget = none ∧ State.reset.cfg.key1 ≠ State.reset.cfg.key2 ∧ KeysApart State.reset.cfg ∧
    State.reset.cfg.extRelock = false ∧
    ∃ t, step (due .eng (accepted 0x0B#8 .aq0 c0 State.reset)) = .next t :=
  ⟨acquiring_inv, rfl, by decide, .inr rfl, rfl, _, rfl⟩

/-- FOP erasing a byte that was written. -/
theorem test_witness_ArrayChangesOnlyByOperations :
    (∃ t, exec (.st32 0x08032000#32 0#32) storing = .next t) ∧
    ∃ t, step (due .fop (running .eraseAll (regs (fun r => { r with arr := [(0, 0#8)] }) unlocked))) = .next t ∧
      t.regs.arr ≠ [(0, 0#8)] := ⟨⟨_, rfl⟩, _, rfl, by decide⟩

/-- FOP programming a unit that is not erased, and a step with both flags set. -/
theorem test_witness_ErrorFlagsAreSticky :
    (∃ t, step (due .fop (running (.prog 0 [0#32, 0#32]) (regs (fun r => { r with arr := [(0, 0#8)] }) unlocked))) =
        .next t ∧ t.regs.progErr = true) ∧ unlocked.regs.progErr = false ∧
    ∃ t, step (due .eng (inPhase .st0 (regs (fun r => { r with progErr := true, wrpErr := true }) unlocked))) =
      .next t := ⟨⟨_, rfl, rfl⟩, rfl, _, rfl⟩

theorem test_witness_BusyRisesAndFallsByRule :
    (∃ t, step (due .eng (inPhase .ep3 (armed true false 255#32))) = .next t ∧
      (armed true false 255#32).regs.bsy = false ∧ t.regs.bsy = true) ∧
    ∃ t, step (due .fop (running (.erasePage 255) unlocked)) = .next t ∧
      (running (.erasePage 255) unlocked).regs.bsy = true ∧ t.regs.bsy = false := by
  refine ⟨⟨_, rfl, rfl, rfl⟩, _, rfl, rfl, rfl⟩

theorem test_witness_ParametersAreFixed :
    ∃ t, step (State.reset.withFetchWord 72 0x0B0000000000000000) = .next t := ⟨_, rfl⟩

theorem test_witness_TransactionsKeepTheRest : Instr.format (.wrKeyr 0#32 0x45670123#32) = .bus ∧
    ∃ t, exec (.wrKeyr 0#32 0x45670123#32) State.reset = .next t := ⟨rfl, _, rfl⟩

theorem test_witness_AcceptanceKeepsTheRest : Instr.format (.write ⟨0x08032000#32, 8#32, eight⟩) = .cmd ∧
    ready.eng.phase = .idle ∧ ∃ t, exec (.write ⟨0x08032000#32, 8#32, eight⟩) ready = .next t := ⟨rfl, rfl, _, rfl⟩

end Sys2Proof.Tests
end

/-! PROOF. The lock family (spec 40_lock_unlock): the key checker on its two right keys, what alone clears LOCK, the CR word
read back, and IS_LOCKED. -/

namespace Sys2Proof.Machine

/-! ### The key checker on the right keys -/

/-- 40_lock_unlock R124. -/
theorem keyWrite_first {c : Config} {r : Regs} (h : r.kstate = .idle) :
    keyWrite c c.key1 r = { r with kstate := .half } := by
  simp [keyWrite, h]

/-- 40_lock_unlock R125. -/
theorem keyWrite_second {c : Config} {r : Regs} (h : r.kstate = .half) :
    keyWrite c c.key2 r = { r with lock := false, kstate := .idle } := by
  simp [keyWrite, h]

/-- A key write on a locked flash is the key checker's. -/
theorem execWrKeyr_locked {x v : Word} {s : State} (h : s.regs.lock = true) :
    execWrKeyr x v s = .next (wrote (keyWrite s.cfg v s.regs) s) := by
  simp [execWrKeyr, h]

/-- Settles O17: the key checker in `K_IDLE` moves to `K_HALF` on KEY1. -/
theorem firstKeyHalfEnters : Obligations.FirstKeyHalfEnters := by
  rintro s x v hl hk rfl
  change execWrKeyr x _ s = _
  rw [execWrKeyr_locked hl, keyWrite_first hk]
  rfl

/-! ### What each transaction can do to the register layer -/

/-- Everything a written control field can do when it answers a next state (45_erase R200 to R202). -/
theorem writeControl_next {r : Regs} {s t : State} (h : writeControl r s = .next t) :
    s.regs.bsy = false ∧ t = wrote r s := by
  unfold writeControl at h
  split at h
  · cases h
  · cases h; simp_all

/-- Everything `MOD_CR(PG, v)` can do when it answers a next state (43_native_access R166). -/
theorem execModCrPg_next {v : Word} {s t : State} (h : execModCrPg v s = .next t) :
    s.regs.bsy = false ∧
      t = wrote { s.regs with pg := fieldBit v, wcnt := if fieldBit v then s.regs.wcnt else 0 } s := by
  unfold execModCrPg at h
  split at h
  · cases h
  · cases h; simp_all

/-- Everything `MOD_CR(START, v)` can do when it answers a next state (45_erase R203 to R205, R207). -/
theorem execModCrStart_next {v : Word} {s t : State} (h : execModCrStart v s = .next t) :
    t = completed s ∨ t = wrote { s.regs with wrpErr := true } s ∨ ∃ f, t = wrote (startOperation f s.regs) s := by
  unfold execModCrStart at h
  repeat' split at h
  all_goals cases h
  · exact .inl rfl
  · exact .inr (.inl rfl)
  · exact .inr (.inr ⟨_, rfl⟩)
  · exact .inr (.inr ⟨_, rfl⟩)

/-- A load leaves the register layer as it is (43_native_access R160). -/
theorem execLd32_regs {x v : Word} {s t : State} (h : execLd32 x v s = .next t) : t.regs = s.regs := by
  unfold execLd32 at h
  repeat' split at h
  all_goals cases h
  all_goals rfl

/-- An accepted store leaves LOCK alone. -/
@[simp] theorem acceptStore_lock (c : Config) (o : Nat) (v : Word) (r : Regs) : (acceptStore c o v r).lock = r.lock := by
  unfold acceptStore
  split <;> rfl

/-- The command port leaves the register layer as it is (30_encoding R91). -/
theorem present_regs {op : BitVec 8} {c : CmdArgs} {pass : Bool} {p : Phase} {s t : State}
    (h : present op c pass p s = .next t) : t.regs = s.regs := by
  rcases present_next h with ⟨-, -, rfl⟩ | ⟨-, -, rfl⟩ | ⟨-, -, rfl⟩ <;> rfl

/-- So does every command. -/
theorem exec_cmd_regs {i : Instr} {s t : State} (hi : i.format = .cmd) (h : exec i s = .next t) : t.regs = s.regs := by
  cases i with
  | isLocked | unlock | lock | status | readNative | writeNative | read | write | erasePage | eraseAll | acquire
  | release => exact present_regs h
  | rdCr | modCrLock | modCrPg | modCrPer | modCrMer1 | modCrPnb | modCrStart | rdSr | wrKeyr | ld32 | st32 => cases hi

/-! ### What clears LOCK -/

/-- A key write that clears LOCK is KEY2 on a half-entered sequence (40_lock_unlock R125). -/
theorem execWrKeyr_lock {x v : Word} {s t : State} (h : execWrKeyr x v s = .next t) :
    t.regs.lock = s.regs.lock ∨ (s.regs.kstate = .half ∧ v = s.cfg.key2) := by
  unfold execWrKeyr at h
  split at h
  · cases h
    rcases keyWrite_cases s.cfg v s.regs with ⟨k, hk, -⟩ | ⟨hhalf, hv, -⟩
    · left; simp [hk]
    · exact .inr ⟨hhalf, hv⟩
  · cases h; exact .inl rfl

/-- `MOD_CR(LOCK, v)` sets LOCK or leaves it alone (40_lock_unlock R121, R122). -/
theorem execModCrLock_lock {v : Word} {s t : State} (h : execModCrLock v s = .next t) :
    t.regs.lock = s.regs.lock ∨ t.regs.lock = true := by
  unfold execModCrLock at h
  split at h <;> cases h
  · exact .inr rfl
  · exact .inl rfl

/-- An instruction leaves LOCK alone or sets it, but for KEY2 on a half-entered sequence (40_lock_unlock R125). -/
theorem exec_lock_cases {i : Instr} {s t : State} (h : exec i s = .next t) :
    t.regs.lock = s.regs.lock ∨ t.regs.lock = true ∨
      (s.regs.kstate = .half ∧ ∃ x v, i = .wrKeyr x v ∧ v = s.cfg.key2) := by
  cases i with
  | isLocked | unlock | lock | status | readNative | writeNative | read | write | erasePage | eraseAll | acquire
  | release => exact .inl (by rw [exec_cmd_regs rfl h])
  | rdCr | rdSr => cases h; exact .inl rfl
  | modCrLock => exact (execModCrLock_lock h).imp_right .inl
  | modCrPg => obtain ⟨-, rfl⟩ := execModCrPg_next h; exact .inl rfl
  | modCrPer | modCrMer1 | modCrPnb => obtain ⟨-, rfl⟩ := writeControl_next h; exact .inl rfl
  | modCrStart => obtain rfl | rfl | ⟨f, rfl⟩ := execModCrStart_next h <;> exact .inl rfl
  | wrKeyr x v => exact (execWrKeyr_lock (x := x) h).imp_right fun ⟨hk, hv⟩ => .inr ⟨hk, x, v, rfl, hv⟩
  | ld32 x v => exact .inl (by rw [execLd32_regs (x := x) (v := v) h])
  | st32 =>
    obtain ⟨-, -, ⟨-, rfl⟩ | ⟨-, -, -, -, -, rfl⟩⟩ := execSt32_next h
    · exact .inl rfl
    · left; simp

/-- The only instruction that takes LOCK from 1 to 0 (40_lock_unlock R125). -/
theorem exec_clears_lock {i : Instr} {s t : State} (h : exec i s = .next t) (hl : s.regs.lock = true)
    (ht : t.regs.lock = false) : s.regs.kstate = .half ∧ ∃ x v, i = .wrKeyr x v ∧ v = s.cfg.key2 := by
  obtain hsame | hset | hkey := exec_lock_cases h
  · simp [hsame, hl] at ht
  · simp [hset] at ht
  · exact hkey

/-! ### The engine's own update leaves the register layer alone -/

@[simp] theorem unlockIfLocked_regs (p : Phase) (s : State) : (unlockIfLocked p s).regs = s.regs := by
  unfold unlockIfLocked; split <;> rfl

@[simp] theorem takeGuard_regs (s : State) : (takeGuard s).regs = s.regs := by simp [takeGuard]

@[simp] theorem readNativeWord_regs (s : State) : (readNativeWord s).regs = s.regs := by
  unfold readNativeWord; split <;> rfl

@[simp] theorem readStep_regs (s : State) : (readStep s).regs = s.regs := by
  unfold readStep
  split
  · rfl
  · split <;> rfl

@[simp] theorem strideStep_regs (s : State) : (strideStep s).regs = s.regs := by
  unfold strideStep; split <;> rfl

@[simp] theorem storedWord_regs (s : State) : (storedWord s).regs = s.regs := by
  unfold storedWord; split <;> rfl

@[simp] theorem finishWrite_regs (r : Response) (s : State) : (finishWrite r s).regs = s.regs := by
  unfold finishWrite
  split
  · split <;> rfl
  · rfl

/-- PRECHECK leaves the register layer to its `finish`. -/
theorem precheck_regs {finish : Response → State → State} (hf : ∀ r s, (finish r s).regs = s.regs) (p : Phase)
    (s : State) : (precheck finish p s).regs = s.regs := by
  unfold precheck
  split
  · rfl
  · exact hf _ _

/-- POLL leaves the register layer to its `finish`. -/
theorem poll_regs {finish : Response → State → State} (hf : ∀ r s, (finish r s).regs = s.regs) (p : Phase)
    (s : State) : (poll finish p s).regs = s.regs := by
  unfold poll
  split
  · split
    · exact hf _ _
    · rfl
  · rfl

/-- The engine reaches the register layer through its transactions alone (10_state R40). -/
@[simp] theorem afterTransaction_regs (s : State) : (afterTransaction s).regs = s.regs := by
  have hrespond : ∀ (r : Response) (s : State), (respond r s).regs = s.regs := fun r s => respond_regs s r
  unfold afterTransaction
  split <;> simp [precheck_regs finishWrite_regs, precheck_regs hrespond, poll_regs finishWrite_regs,
    poll_regs hrespond]

@[simp] theorem advance_regs (s : State) : (advance s).regs = s.regs := by
  unfold advance; split <;> simp

/-! ### What the turn of each agent can do to LOCK -/

/-- Everything the engine's step can do when it answers a next state (10_state R40): nothing, the update of a phase that
issues no transaction, or the transaction of its phase and then the update. -/
theorem engStep_next {s t : State} (h : engStep s = .next t) :
    t = s ∨ (transaction s = none ∧ t = advance { s with reply := .none }) ∨
      ∃ i u, transaction s = some i ∧ exec i s = .next u ∧ t = advance u := by
  unfold engStep at h
  split at h
  · cases h; exact .inl rfl
  · cases h
  · split at h
    · cases h; exact .inl rfl
    · split at h
      · split at h
        · rename_i hi
          cases h
          exact .inr (.inl ⟨hi, rfl⟩)
        · rename_i i hi
          rw [busWord_encode i s (transaction_bus hi)] at h
          split at h <;> cases h
          rename_i u hu
          exact .inr (.inr ⟨i, u, hi, hu, rfl⟩)
      · cases h

/-- A CMD word decodes to a command (30_encoding R93). -/
theorem decodeCmd_format {w : FrameWord} {pay : List Byte} {i : Instr} (h : decode .cmd w pay = .ok i) :
    i.format = .cmd := by
  simp only [decode, decodeCmd] at h
  split at h <;> cases h <;> rfl

/-- A word at the command port leaves the register layer as it is (30_encoding R91). -/
theorem acceptWord_regs {c : HostCmd} {s t : State} (h : acceptWord c s = .next t) : t.regs = s.regs := by
  unfold acceptWord at h
  split at h
  · rename_i i hi; exact exec_cmd_regs (decodeCmd_format hi) h
  · exact present_regs h

/-- So does a turn of HOST. -/
theorem hostStep_regs {s t : State} (h : hostStep s = .next t) : t.regs = s.regs := by
  unfold hostStep at h
  split at h
  · split at h
    · cases h; rfl
    · rw [acceptWord_regs h]
  · cases h
  · cases h; rfl

/-- FOP leaves LOCK alone. -/
@[simp] theorem fopStep_lock (s : State) : (fopStep s).regs.lock = s.regs.lock := by
  cases hf : s.regs.inflight with
  | none => rw [fopStep_none hf]
  | some f => rw [fopStep_some hf, withRegs_regs, complete_frame]

/-- `ExtRelock` never clears LOCK (40_lock_unlock R131). -/
theorem extRelockMove_lock (s : State) :
    (extRelockMove s).regs.lock = s.regs.lock ∨ (extRelockMove s).regs.lock = true := by
  unfold extRelockMove
  split
  · exact .inr rfl
  · exact .inl rfl

/-- What the engine issues next does not depend on the schedule. -/
@[simp] theorem transaction_popTurn (s : State) : transaction (popTurn s) = transaction s := rfl

/-- A turn of ENG that takes LOCK from 1 to 0 issues KEY2 on a half-entered sequence. -/
theorem engStep_clears_lock {s t : State} (h : engStep s = .next t) (hl : s.regs.lock = true)
    (ht : t.regs.lock = false) :
    s.regs.kstate = .half ∧ ∃ x v, transaction s = some (.wrKeyr x v) ∧ v = s.cfg.key2 := by
  obtain rfl | ⟨-, rfl⟩ | ⟨i, u, hi, hu, rfl⟩ := engStep_next h
  · simp [hl] at ht
  · simp [hl] at ht
  · rw [advance_regs] at ht
    obtain ⟨hk, x, v, rfl, hv⟩ := exec_clears_lock hu hl ht
    exact ⟨hk, x, v, hi, hv⟩

/-- The only step that takes LOCK from 1 to 0 (40_lock_unlock R125). -/
theorem step_clears_lock {s t : State} (h : step s = .next t) (hl : s.regs.lock = true) (ht : t.regs.lock = false) :
    agentOf s = .eng ∧ s.regs.kstate = .half ∧ ∃ x v, transaction s = some (.wrKeyr x v) ∧ v = s.cfg.key2 := by
  cases hg : agentOf s <;> rw [step_turn hg] at h
  case eng => exact ⟨rfl, engStep_clears_lock (s := popTurn s) h hl ht⟩
  case host => simp [hostStep_regs h, hl] at ht
  case fop => cases h; simp [hl] at ht
  case reset => cases h; cases ht
  case extRelock =>
    cases h
    obtain hsame | hset := extRelockMove_lock (popTurn s)
    · simp [hsame, hl] at ht
    · simp [hset] at ht

/-- Settles O18: by what each instruction and each agent's turn can do to LOCK. -/
theorem secondKeyAloneUnlocks : Obligations.SecondKeyAloneUnlocks := by
  refine ⟨?_, fun i s t => exec_clears_lock, fun s t => step_clears_lock⟩
  rintro s x v hl hk rfl
  change execWrKeyr x _ s = _
  rw [execWrKeyr_locked hl, keyWrite_second hk]
  rfl

/-! ### The CR word read back -/

section CrWord

variable {c : Config} {r : Regs}

/-- The bits of the CR word outside PNB: the four control fields at their places (40_lock_unlock R120). -/
theorem getLsbD_crWord_outside_pnb (hv : c.Valid) (hp : r.pnb.toNat < 2 ^ c.pnbWidth) {k : Nat} (hk : k < 32)
    (hout : k ∉ (List.range c.pnbWidth).map (c.pnbLsb + ·)) :
    (crWord c r).getLsbD k =
      (r.lock && decide (k = c.lockBit) || r.pg && decide (k = c.pgBit) || r.per && decide (k = c.perBit)
        || r.mer1 && decide (k = c.mer1Bit)) := by
  rw [getLsbD_crWord hv r hk, pnb_bit_outside hp hout, Bool.or_false]

/-- No bit of the CR word is set outside the fields (40_lock_unlock R120). -/
theorem getLsbD_crWord_unused (hv : c.Valid) (hp : r.pnb.toNat < 2 ^ c.pnbWidth) {k : Nat} (hk : k ∉ c.crBits) :
    (crWord c r).getLsbD k = false := by
  by_cases hlt : k < 32
  · simp only [Config.crBits, List.cons_append, List.nil_append, List.mem_cons, not_or] at hk
    obtain ⟨h1, h2, h3, h4, -, hout⟩ := hk
    simp [getLsbD_crWord_outside_pnb hv hp hlt hout, h1, h2, h3, h4]
  · exact BitVec.getLsbD_of_ge _ _ (by omega)

/-- A bit of PNB in the CR word (40_lock_unlock R120). -/
theorem getLsbD_crWord_pnb (hv : c.Valid) {k : Nat} (hk : k < c.pnbWidth) :
    (crWord c r).getLsbD (c.pnbLsb + k) = r.pnb.getLsbD k := by
  have hmem : c.pnbLsb + k ∈ (List.range c.pnbWidth).map (c.pnbLsb + ·) :=
    List.mem_map.2 ⟨k, List.mem_range.2 hk, rfl⟩
  have hne : ∀ b, b ∉ (List.range c.pnbWidth).map (c.pnbLsb + ·) → c.pnbLsb + k ≠ b := fun b hb he => hb (he ▸ hmem)
  have hn := hv.cr_nodup
  simp only [Config.crBits, List.cons_append, List.nil_append, List.nodup_cons, List.mem_cons, not_or] at hn
  obtain ⟨⟨-, -, -, -, hlock⟩, ⟨-, -, -, hpg⟩, ⟨-, -, hper⟩, ⟨-, hmer1⟩, -, -⟩ := hn
  rw [getLsbD_crWord hv r (hv.cr_width _ (List.mem_append_right _ hmem))]
  simp [hne _ hlock, hne _ hpg, hne _ hper, hne _ hmer1]

/-- The one-bit fields of the CR word beside LOCK, `START` reading 0 (40_lock_unlock R120). -/
theorem getLsbD_crWord_fields (hv : c.Valid) (hp : r.pnb.toNat < 2 ^ c.pnbWidth) :
    (crWord c r).getLsbD c.pgBit = r.pg ∧ (crWord c r).getLsbD c.perBit = r.per ∧
      (crWord c r).getLsbD c.mer1Bit = r.mer1 ∧ (crWord c r).getLsbD c.startBit = false := by
  have hw := hv.cr_width
  have hn := hv.cr_nodup
  simp only [Config.crBits, List.cons_append, List.nil_append, List.mem_cons, forall_eq_or_imp] at hw
  simp only [Config.crBits, List.cons_append, List.nil_append, List.nodup_cons, List.mem_cons, not_or] at hn
  obtain ⟨-, wpg, wper, wmer1, wstart, -⟩ := hw
  obtain ⟨⟨lpg, lper, lmer1, lstart, -⟩, ⟨gper, gmer1, gstart, opg⟩, ⟨pmer1, pstart, oper⟩, ⟨mstart, omer1⟩,
    ostart, -⟩ := hn
  refine ⟨?_, ?_, ?_, ?_⟩
  · simp [getLsbD_crWord_outside_pnb hv hp wpg opg, Ne.symm lpg, gper, gmer1]
  · simp [getLsbD_crWord_outside_pnb hv hp wper oper, Ne.symm lper, Ne.symm gper, pmer1]
  · simp [getLsbD_crWord_outside_pnb hv hp wmer1 omer1, Ne.symm lmer1, Ne.symm gmer1, Ne.symm pmer1]
  · simp [getLsbD_crWord_outside_pnb hv hp wstart ostart, Ne.symm lstart, Ne.symm gstart, Ne.symm pstart,
      Ne.symm mstart]

end CrWord

/-! ### The engine's use of the CR word -/

/-- Going on or answering depends on the LOCK field of the word alone. -/
theorem unlockIfLocked_eng_data (p : Phase) {s : State} {w w' : Word} (h : crLock s.cfg w' = crLock s.cfg w) :
    (unlockIfLocked p { s with reply := .data w' }).eng = (unlockIfLocked p { s with reply := .data w }).eng := by
  by_cases hc : crLock s.cfg w = true <;> simp [unlockIfLocked, h, hc]

/-- Of a CR word the engine uses LOCK alone (40_lock_unlock R120). -/
theorem afterTransaction_eng_data {s : State} {w w' : Word}
    (hp : s.eng.phase = .il0 ∨ s.eng.phase = .ul0 ∨ s.eng.phase = .aq0 ∨ s.eng.phase = .aq1)
    (h : crLock s.cfg w' = crLock s.cfg w) :
    (afterTransaction { s with reply := .data w' }).eng = (afterTransaction { s with reply := .data w }).eng := by
  rcases hp with hp | hp | hp | hp <;> simp only [afterTransaction, hp]
  · simp only [respond_eng, ret_data, h]
  · exact unlockIfLocked_eng_data _ h
  · simp only [takeGuard, ret_data, h]
    exact unlockIfLocked_eng_data (s := setGuard _ s) _ h
  · exact unlockIfLocked_eng_data _ h

/-- Settles O15: field by field of the CR word, the last clause by the engine's use of it. -/
theorem controlWordHoldsItsFields : Obligations.ControlWordHoldsItsFields := by
  intro s x v hv hp
  obtain ⟨hpg, hper, hmer1, hstart⟩ := getLsbD_crWord_fields hv hp
  have hlock : crLock s.cfg (crWord s.cfg s.regs) = s.regs.lock := crLock_crWord hv hp
  exact ⟨crWord s.cfg s.regs, rfl, hlock, hpg, hper, hmer1, fun k => getLsbD_crWord_pnb hv, hstart,
    fun k => getLsbD_crWord_unused hv hp, fun w' hw hph => afterTransaction_eng_data hph (hw.trans hlock.symm)⟩

/-! ### IS_LOCKED -/

/-- A turn of ENG whose transaction answers a next state. -/
theorem engStep_exec {i : Instr} {s t : State} (hr : s.reply ≠ .stalled) (hfit : addressFits s = true)
    (hi : transaction s = some i) (ht : exec i s = .next t) : engStep s = .next (advance t) := by
  have hidle : s.eng.phase ≠ .idle := fun h => by simp [transaction, h] at hi
  have habort : s.eng.phase ≠ .aborted := fun h => by simp [transaction, h] at hi
  rw [engStep_issue hidle habort hr hfit hi (transaction_bus hi), ht]

/-- A command whose contract holds is `accepted` in `IDLE` (30_encoding R91). -/
theorem present_accepted {op : BitVec 8} {c : CmdArgs} {pass : Bool} {p : Phase} {s : State}
    (hi : s.eng.phase = .idle) (hp : pass = true) : present op c pass p s = .next (accepted op p c s) :=
  present_pass hi hp

/-- A turn of ENG at the head of the schedule. -/
theorem runSteps_engTurns_succ {k : Nat} {rest : List Agent} {s t : State}
    (h : engStep (scheduled (engTurns k ++ rest) s) = .next t) :
    runSteps (k + 1) (scheduled (engTurns (k + 1) ++ rest) s) = runSteps k t := by
  have hstep : step (scheduled (engTurns (k + 1) ++ rest) s) = .next t := by
    rw [step_scheduled (g := .eng) (rest := engTurns k ++ rest) rfl]
    exact h
  rw [runSteps, hstep]

/-- Settles O21: acceptance, then one turn of ENG that reads CR. -/
theorem isLockedAnswersTheLockBit : Obligations.IsLockedAnswersTheLockBit := by
  intro s c rest hv hp hi
  refine ⟨present_accepted hi rfl, ?_, rfl⟩
  have hlock : crLock s.cfg (crWord s.cfg s.regs) = s.regs.lock := crLock_crWord hv hp
  rw [runSteps_engTurns_succ (k := 0) (engStep_exec (i := .rdCr 0#32 0#32) (fun h => by cases h) rfl rfl rfl)]
  change Host.Outcome.next (respond (.okBit (crLock s.cfg (crWord s.cfg s.regs))) _) = _
  rw [hlock]
  rfl

end Sys2Proof.Machine

/-! PROOF. The status family (spec 41_status): the decoder's four answers, the SR word read back, and STATUS. -/

namespace Sys2Proof.Machine

/-! ### The decoder -/

@[simp] theorem decodeFlags_busy (p w : Bool) : decodeFlags true p w = .err .busy := rfl
@[simp] theorem decodeFlags_progErr (w : Bool) : decodeFlags false true w = .err .programmingError := rfl
@[simp] theorem decodeFlags_wrpErr : decodeFlags false false true = .err .writeProtectionError := rfl

/-- Settles O26: the decoder on a word is the decoder on the three fields of the word, which answers in order of priority. -/
theorem statusDecoderHasPriorities : Obligations.StatusDecoderHasPriorities := by
  refine fun c w => ⟨fun hb hp hw => ?_, fun hb hp hw => ?_, fun hb hp => ?_, fun hb => ?_⟩
  · rw [decodeStatus, hb, hp, hw, decodeFlags_clear]
  · rw [decodeStatus, hb, hp, hw, decodeFlags_wrpErr]
  · rw [decodeStatus, hb, hp, decodeFlags_progErr]
  · rw [decodeStatus, hb, decodeFlags_busy]

/-! ### The SR word read back -/

/-- No bit of the SR word is set outside the fields (41_status R140). -/
theorem getLsbD_srWord_unused {c : Config} {r : Regs} (hv : c.Valid) {k : Nat} (hk : k ∉ c.srBits) :
    (srWord c r).getLsbD k = false := by
  simp only [Config.srBits, List.mem_cons, List.not_mem_nil, or_false, not_or] at hk
  obtain ⟨hbsy, hprog, hwrp⟩ := hk
  simp [getLsbD_srWord hv, hbsy, hprog, hwrp]

/-- Settles O25: field by field of the SR word, a field reading being the bit at the field's place. -/
theorem statusWordHoldsItsFields : Obligations.StatusWordHoldsItsFields := by
  intro s x v hv
  have hbsy := srBsy_srWord hv s.regs
  have hprog := srProgErr_srWord hv s.regs
  have hwrp := srWrpErr_srWord hv s.regs
  exact ⟨srWord s.cfg s.regs, rfl, hbsy, hprog, hwrp, fun k => getLsbD_srWord_unused hv, hbsy, hprog, hwrp⟩

/-! ### STATUS -/

/-- The engine's step of STATUS reads SR and answers the decoder on the three flags (41_status R142). -/
theorem runSteps_status (s : State) (c : CmdArgs) (rest : List Agent) (hv : s.cfg.Valid) :
    runSteps 1 (scheduled (engTurns 1 ++ rest) (accepted 0x04#8 .st0 c s)) =
      .next { answered 0x04#8 (decodeFlags s.regs.bsy s.regs.progErr s.regs.wrpErr) c s with
              reply := .data (srWord s.cfg s.regs), sched := rest } := by
  rw [runSteps_engTurns_succ (k := 0) (engStep_exec (i := .rdSr 0#32 0#32) (fun h => by cases h) rfl rfl rfl)]
  change Host.Outcome.next (respond (decodeStatus s.cfg (srWord s.cfg s.regs)) _) = _
  rw [decodeStatus_srWord hv]
  rfl

/-- Settles O27: acceptance, then one turn of ENG that reads SR; the answer is the decoder's on the three flags. -/
theorem statusAnswersTheDecoder : Obligations.StatusAnswersTheDecoder := by
  intro s c rest hv hi
  refine ⟨decodeFlags s.regs.bsy s.regs.progErr s.regs.wrpErr, present_accepted hi rfl,
    runSteps_status s c rest hv, fun hb => ?_, fun hb hp => ?_, fun hb hp hw => ?_, fun hb hp hw => ?_⟩
  · rw [hb, decodeFlags_busy]
  · rw [hb, hp, decodeFlags_progErr]
  · rw [hb, hp, hw, decodeFlags_wrpErr]
  · rw [hb, hp, hw, decodeFlags_clear]

end Sys2Proof.Machine

/-! PROOF. The native family (spec 43_native_access): READ_NATIVE. -/

namespace Sys2Proof.Machine

/-! ### The contract of READ_NATIVE -/

/-- Checks K4 and K7 of a native access: the address is a unit's of the flash. -/
theorem unitChecks_iff {c : Config} {a : Word} :
    (addressAligned c a && inFlash c a c.nu) = true ↔
      a.toNat % c.nu = 0 ∧ c.origin ≤ a.toNat ∧ a.toNat + c.nu ≤ c.origin + c.flashBytes := by
  simp [addressAligned, inFlash]

/-- A command whose contract fails is `violated` in `IDLE` (30_encoding R91). -/
theorem present_violated {op : BitVec 8} {c : CmdArgs} {pass : Bool} {p : Phase} {s : State}
    (hi : s.eng.phase = .idle) (hp : pass = false) : present op c pass p s = .next (violated op c s) :=
  present_fail hi hp

/-! ### The load of RN0 -/

/-- A load while BSY is 1 (43_native_access R160). -/
theorem execLd32_busy {x v : Word} {s : State} (hx : busAddressOk s.cfg x = true) (hb : s.regs.bsy = true) :
    execLd32 x v s = .next (waits s) := by
  simp [execLd32, hx, hb]

/-- The transaction of `RN0` (43_native_access R167). -/
theorem transaction_rn0 {s : State} (hp : s.eng.phase = .rn0) :
    transaction s = some (.ld32 (BitVec.ofNat 32 (s.eng.a.toNat + 4 * s.eng.j)) 0#32) := by
  simp only [transaction, hp, nativeAddress]

/-- The engine is at `RN0`, word `j` of the unit that an accepted READ_NATIVE names. -/
structure ReadingUnit (s : State) : Prop where
  valid : s.cfg.Valid
  phase : s.eng.phase = .rn0
  not_stalled : s.reply ≠ .stalled
  unit : UnitOk s
  word : s.eng.j < unitWords s.cfg

/-- The word of the array that `RN0` loads. -/
def nativeWord (s : State) : Word := loadWord s.cfg s.regs.arr (s.eng.a.toNat - s.cfg.origin + 4 * s.eng.j)

/-- As it goes to `OUT` it is four bytes of the array, under either byte order. -/
theorem bytesOf_nativeWord (s : State) :
    bytesOf s.cfg.endian (nativeWord s) =
      Memory.readBytes s.regs.arr (s.eng.a.toNat - s.cfg.origin + 4 * s.eng.j) 4 :=
  bytesOf_loadWord _ _ _

section ReadNative

variable {s : State}

theorem ReadingUnit.wordAddress (h : ReadingUnit s) : WordAddress s.cfg s.eng.a.toNat s.eng.j := by
  obtain ⟨ha, hlo, hhi⟩ := unit_base h.unit.aligned h.unit.inside
  exact Machine.wordAddress h.valid ha hlo hhi h.word

theorem ReadingUnit.addressFits (h : ReadingUnit s) : addressFits s = true := by
  simp only [Machine.addressFits, h.phase]
  exact decide_eq_true h.wordAddress.fits

/-- Whose turns come next does not matter. -/
theorem ReadingUnit.scheduled (l : List Agent) (h : ReadingUnit s) : ReadingUnit (scheduled l s) where
  valid := h.valid
  phase := h.phase
  not_stalled := h.not_stalled
  unit := ⟨h.unit.aligned, h.unit.inside⟩
  word := h.word

/-- While BSY is 1 the load waits, and the engine stays where it is. -/
theorem engStep_rn0_busy (h : ReadingUnit s) (hb : s.regs.bsy = true) : engStep s = .next (waits s) :=
  engStep_exec h.not_stalled h.addressFits (transaction_rn0 h.phase) (execLd32_busy (v := 0#32) h.wordAddress.ok hb)

/-- A load that completes is used at once. -/
theorem engStep_rn0_ready (h : ReadingUnit s) (hb : s.regs.bsy = false) :
    engStep s = .next (readNativeWord (returned (nativeWord s) s)) := by
  have hload := execLd32_ready (v := 0#32) h.wordAddress.ok hb
  rw [h.wordAddress.offset] at hload
  rw [engStep_exec h.not_stalled h.addressFits (transaction_rn0 h.phase) hload, advance_completed rfl]
  simp only [afterTransaction, returned_eng, h.phase, nativeWord]

/-! ### The words of the unit, one after the other -/

/-- `s` with the word of `RN0` loaded and appended to `OUT`. -/
def nativeWordTaken (s : State) : State := takeWord (nativeWord s) (returned (nativeWord s) s)

/-- At the last word of the unit, `RN0` takes its word and responds. -/
theorem engStep_rn0_last (h : ReadingUnit s) (hb : s.regs.bsy = false) (hj : s.eng.j + 1 = unitWords s.cfg) :
    engStep s = .next (respond .okData (nativeWordTaken s)) := by
  rw [engStep_rn0_ready h hb]
  exact congrArg _ (if_pos hj)

/-- Before that, it takes its word and stays. -/
theorem engStep_rn0_next (h : ReadingUnit s) (hb : s.regs.bsy = false) (hj : s.eng.j + 1 < unitWords s.cfg) :
    engStep s = .next (nativeWordTaken s) := by
  rw [engStep_rn0_ready h hb]
  exact congrArg _ (if_neg hj.ne)

theorem ReadingUnit.nativeWordTaken (h : ReadingUnit s) (hj : s.eng.j + 1 < unitWords s.cfg) :
    ReadingUnit (nativeWordTaken s) where
  valid := h.valid
  phase := h.phase
  not_stalled := nofun
  unit := ⟨h.unit.aligned, h.unit.inside⟩
  word := hj

/-- `s` with the last `k` words of the unit read and `Ok(OUT)` answered. -/
def unitAnswered (k : Nat) (s : State) : State :=
  { s with
    reply := .data (loadWord s.cfg s.regs.arr (s.eng.a.toNat - s.cfg.origin + s.cfg.nu - 4))
    eng := { s.eng with
      phase := .idle, rsp := rspWord .okData, j := unitWords s.cfg
      out := s.eng.out ++ Memory.readBytes s.regs.arr (s.eng.a.toNat - s.cfg.origin + 4 * s.eng.j) (4 * k) } }

theorem respond_nativeWordTaken (hv : s.cfg.Valid) (hj : s.eng.j + 1 = unitWords s.cfg) :
    respond .okData (nativeWordTaken s) = unitAnswered 1 s := by
  have hlast : loadWord s.cfg s.regs.arr (s.eng.a.toNat - s.cfg.origin + s.cfg.nu - 4) = nativeWord s := by
    rw [nativeWord, ← unitWords_mul hv, ← hj, Nat.mul_succ, ← Nat.add_assoc, Nat.add_sub_cancel]
  simp only [unitAnswered, respond, nativeWordTaken, takeWord, returned, bytesOf_nativeWord, hj, hlast, Nat.mul_one]

theorem unitAnswered_nativeWordTaken (k : Nat) : unitAnswered k (nativeWordTaken s) = unitAnswered (k + 1) s := by
  have hout : s.eng.out ++ bytesOf s.cfg.endian (nativeWord s) ++
        Memory.readBytes s.regs.arr (s.eng.a.toNat - s.cfg.origin + 4 * (s.eng.j + 1)) (4 * k) =
      s.eng.out ++ Memory.readBytes s.regs.arr (s.eng.a.toNat - s.cfg.origin + 4 * s.eng.j) (4 * (k + 1)) := by
    rw [bytesOf_nativeWord, List.append_assoc, Nat.mul_succ 4 s.eng.j, Nat.mul_succ, Nat.add_comm (4 * k),
      readBytes_add, Nat.add_assoc]
  simp only [unitAnswered, nativeWordTaken, takeWord, returned, hout]

/-- The run of the last `k + 1` words of the unit, by induction on their number. -/
theorem runSteps_rn0 {k : Nat} (rest : List Agent) (h : ReadingUnit s) (hb : s.regs.bsy = false)
    (hj : s.eng.j + (k + 1) = unitWords s.cfg) :
    runSteps (k + 1) (scheduled (engTurns (k + 1) ++ rest) s) = .next (scheduled rest (unitAnswered (k + 1) s)) := by
  induction k generalizing s with
  | zero =>
    rw [runSteps_engTurns_succ (engStep_rn0_last (h.scheduled _) hb hj),
      respond_nativeWordTaken (s := scheduled (engTurns 0 ++ rest) s) h.valid hj]
    rfl
  | succ k ih =>
    have hlt : s.eng.j + 1 < unitWords s.cfg := by omega
    rw [runSteps_engTurns_succ (engStep_rn0_next (h.scheduled _) hb hlt), ← unitAnswered_nativeWordTaken]
    exact ih (h.nativeWordTaken hlt) hb ((Nat.add_right_comm ..).trans hj)

/-- An accepted READ_NATIVE is at the first word of its unit. -/
theorem accepted_readingUnit {c : CmdArgs} (hv : s.cfg.Valid)
    (hc : (addressAligned s.cfg c.a && inFlash s.cfg c.a s.cfg.nu) = true) :
    ReadingUnit (accepted 0x05#8 .rn0 c s) := by
  obtain ⟨ha, hf⟩ := Bool.and_eq_true_iff.1 hc
  exact ⟨hv, rfl, nofun, ⟨ha, hf⟩, unitWords_pos hv⟩

/-- The run of an accepted READ_NATIVE while no operation is in flight. -/
theorem runSteps_readNative {c : CmdArgs} (rest : List Agent) (h : ReadingUnit (accepted 0x05#8 .rn0 c s))
    (hb : s.regs.bsy = false) :
    runSteps (s.cfg.nu / 4) (scheduled (engTurns (s.cfg.nu / 4) ++ rest) (accepted 0x05#8 .rn0 c s)) =
      .next (scheduled rest (unitAnswered (s.cfg.nu / 4) (accepted 0x05#8 .rn0 c s))) := by
  obtain ⟨k, hk⟩ := Nat.exists_eq_add_one.2 (unitWords_pos h.valid)
  have hrun := runSteps_rn0 rest h hb ((Nat.zero_add _).trans hk.symm)
  rwa [← hk] at hrun

/-- From its first word on, the unit is answered whole. -/
theorem unitAnswered_accepted (hv : s.cfg.Valid) (c : CmdArgs) :
    unitAnswered (s.cfg.nu / 4) (accepted 0x05#8 .rn0 c s) =
      { answered 0x05#8 .okData c s with
        reply := .data (loadWord s.cfg s.regs.arr (c.a.toNat - s.cfg.origin + s.cfg.nu - 4))
        eng := { (answered 0x05#8 .okData c s).eng with
          j := s.cfg.nu / 4
          out := Memory.readBytes s.regs.arr (c.a.toNat - s.cfg.origin) s.cfg.nu } } := by
  have hlen : 4 * (s.cfg.nu / 4) = s.cfg.nu := unitWords_mul hv
  simp only [unitAnswered, accepted, answered, List.nil_append, Nat.mul_zero, Nat.add_zero, hlen]

end ReadNative

/-- Settles O38: acceptance by the two checks, then a turn of ENG for each word of the unit, or one that waits. -/
theorem readNativeReturnsTheUnit : Obligations.ReadNativeReturnsTheUnit := by
  intro s c rest hv hi
  refine ⟨fun hc => present_violated hi (Bool.eq_false_iff.2 (mt unitChecks_iff.1 hc)), fun ha hlo hhi => ?_,
    fun u => transaction_rn0⟩
  have hc := unitChecks_iff.2 ⟨ha, hlo, hhi⟩
  have hread := accepted_readingUnit hv hc
  refine ⟨present_accepted hi hc, fun hb => ?_, fun hb => ?_⟩
  · rw [runSteps_readNative rest hread hb, unitAnswered_accepted hv]
    rfl
  · rw [runSteps_engTurns_succ (k := 0) (engStep_rn0_busy (hread.scheduled _) hb)]
    rfl

end Sys2Proof.Machine

/-! PROOF. The buffered family (spec 44_buffered_access): READ. -/

namespace Sys2Proof.Machine

/-! ### The contract of READ -/

/-- Checks K4, K5 and K7 of a buffered access: the range is whole units of the flash. -/
theorem rangeChecks_iff {c : Config} {a n : Word} :
    (addressAligned c a && lengthAligned c n && inFlash c a n.toNat) = true ↔
      a.toNat % c.nu = 0 ∧ n.toNat % c.nu = 0 ∧ c.origin ≤ a.toNat ∧
        a.toNat + n.toNat ≤ c.origin + c.flashBytes := by
  simp [addressAligned, lengthAligned, inFlash, and_assoc]

/-! ### The transaction of RD0 and what the engine does with its answer -/

/-- The stride counter after the word at the counters: up by 1 when that word is its unit's last. -/
def nextStride (s : State) : Nat := if s.eng.j + 1 = unitWords s.cfg then s.eng.i + 1 else s.eng.i

/-- The word counter after the word at the counters. -/
def nextWord (s : State) : Nat := if s.eng.j + 1 = unitWords s.cfg then 0 else s.eng.j + 1

/-- Past the last stride `RD0` responds. -/
theorem readStep_end {s : State} (hi : s.eng.i = strides s) : readStep s = respond .okData s := if_pos hi

/-- Before that it takes the word just loaded, and after a unit's last word goes on to the next stride. -/
theorem readStep_word {s : State} (hi : s.eng.i ≠ strides s) :
    readStep s = setI (nextStride s) (setJ (nextWord s) (takeWord s.reply.ret s)) := by
  rw [readStep, if_neg hi]
  by_cases hj : s.eng.j + 1 = unitWords s.cfg
  · simp only [nextStride, nextWord, hj, if_true]
  · simp only [nextStride, nextWord, hj, if_false]
    rfl

/-- Past the last stride `RD0` issues nothing (44_buffered_access R191). -/
theorem transaction_rd0_end {s : State} (hp : s.eng.phase = .rd0) (hi : s.eng.i = strides s) :
    transaction s = none := by
  simp only [transaction, hp, hi, if_true]

/-- Before that it loads a word (44_buffered_access R191). -/
theorem transaction_rd0_word {s : State} (hp : s.eng.phase = .rd0) (hi : s.eng.i ≠ strides s) :
    transaction s = some (.ld32 (BitVec.ofNat 32 (effectiveAddress s)) 0#32) := by
  simp only [transaction, hp, hi, if_false]

/-- How far into the range the word at the engine's counters is. -/
def rangePosition (s : State) : Nat := s.eng.i * s.cfg.nu + 4 * s.eng.j

/-- The engine is at `RD0` of an accepted READ. -/
structure ReadingRange (s : State) : Prop where
  valid : s.cfg.Valid
  phase : s.eng.phase = .rd0
  not_stalled : s.reply ≠ .stalled
  range : RangeOk s
  word : s.eng.j < unitWords s.cfg

/-- The word of the array that `RD0` loads. -/
def rangeWord (s : State) : Word := loadWord s.cfg s.regs.arr (s.eng.a.toNat - s.cfg.origin + rangePosition s)

/-- As it goes to `OUT` it is four bytes of the array, under either byte order. -/
theorem bytesOf_rangeWord (s : State) :
    bytesOf s.cfg.endian (rangeWord s) =
      Memory.readBytes s.regs.arr (s.eng.a.toNat - s.cfg.origin + rangePosition s) 4 :=
  bytesOf_loadWord _ _ _

section Read

variable {s : State}

/-- Whose turns come next does not matter. -/
theorem ReadingRange.scheduled (l : List Agent) (h : ReadingRange s) : ReadingRange (scheduled l s) where
  valid := h.valid
  phase := h.phase
  not_stalled := h.not_stalled
  range := ⟨h.range.aligned, h.range.length, h.range.inside⟩
  word := h.word

/-! ### The position and the counters -/

theorem ReadingRange.word_lt (h : ReadingRange s) : 4 * s.eng.j < s.cfg.nu := by
  have := unitWords_mul h.valid; have := h.word; omega

theorem ReadingRange.position_div (h : ReadingRange s) : rangePosition s / s.cfg.nu = s.eng.i := by
  rw [rangePosition, Nat.add_comm, Nat.add_mul_div_right _ _ h.valid.nu_pos, Nat.div_eq_of_lt h.word_lt, Nat.zero_add]

theorem ReadingRange.position_mod (h : ReadingRange s) : rangePosition s % s.cfg.nu = 4 * s.eng.j := by
  rw [rangePosition, Nat.add_comm, Nat.add_mul_mod_self_right, Nat.mod_eq_of_lt h.word_lt]

theorem ReadingRange.length_mod (h : ReadingRange s) : s.eng.n.toNat % s.cfg.nu = 0 :=
  of_decide_eq_true h.range.length

theorem ReadingRange.origin_le (h : ReadingRange s) : s.cfg.origin ≤ s.eng.a.toNat := by
  have hin := h.range.inside
  rw [inFlash, Bool.and_eq_true] at hin
  exact of_decide_eq_true hin.1

/-- Inside the range the strides are not used up. -/
theorem ReadingRange.stride_lt (h : ReadingRange s) (hp : rangePosition s < s.eng.n.toNat) : s.eng.i < strides s := by
  rw [← h.position_div, strides]
  exact Nat.div_lt_div_of_lt_of_dvd (Nat.dvd_of_mod_eq_zero h.length_mod) hp

/-- At its end they are. -/
theorem ReadingRange.counters_at_end (h : ReadingRange s) (hp : rangePosition s = s.eng.n.toNat) :
    s.eng.i = strides s ∧ s.eng.j = 0 := by
  have hj := h.position_mod
  rw [hp, h.length_mod] at hj
  exact ⟨by rw [strides, ← hp, h.position_div], by omega⟩

/-! ### The load of RD0 -/

theorem ReadingRange.wordAddress (h : ReadingRange s) (hp : rangePosition s < s.eng.n.toNat) :
    WordAddress s.cfg (s.eng.a.toNat + s.eng.i * s.cfg.nu) s.eng.j := by
  obtain ⟨ha, hlo, hhi⟩ := stride_base h.range.aligned h.range.length h.range.inside (h.stride_lt hp)
  exact Machine.wordAddress h.valid ha hlo hhi h.word

theorem ReadingRange.addressFits (h : ReadingRange s) (hp : rangePosition s < s.eng.n.toNat) :
    addressFits s = true := by
  simp only [Machine.addressFits, h.phase, Bool.or_eq_true, decide_eq_true_eq]
  exact .inr (h.wordAddress hp).fits

theorem ReadingRange.addressOk (h : ReadingRange s) (hp : rangePosition s < s.eng.n.toNat) :
    busAddressOk s.cfg (BitVec.ofNat 32 (effectiveAddress s)) = true :=
  (h.wordAddress hp).ok

theorem ReadingRange.offset (h : ReadingRange s) (hp : rangePosition s < s.eng.n.toNat) :
    offsetOf s.cfg (BitVec.ofNat 32 (effectiveAddress s)) = s.eng.a.toNat - s.cfg.origin + rangePosition s := by
  have hlo := h.origin_le
  rw [effectiveAddress, (h.wordAddress hp).offset, rangePosition]
  omega

/-- While BSY is 1 the load waits, and the engine stays where it is. -/
theorem engStep_rd0_busy (h : ReadingRange s) (hp : rangePosition s < s.eng.n.toNat) (hb : s.regs.bsy = true) :
    engStep s = .next (waits s) :=
  engStep_exec h.not_stalled (h.addressFits hp) (transaction_rd0_word h.phase (h.stride_lt hp).ne)
    (execLd32_busy (v := 0#32) (h.addressOk hp) hb)

/-! ### The words of the range, one after the other -/

/-- `s` with the word of `RD0` loaded and appended to `OUT`. -/
def rangeWordTaken (s : State) : State :=
  { s with
    reply := .data (rangeWord s)
    eng := { s.eng with
      i := nextStride s, j := nextWord s
      out := s.eng.out ++ Memory.readBytes s.regs.arr (s.eng.a.toNat - s.cfg.origin + rangePosition s) 4 } }

/-- Inside the range, while BSY is 0, `RD0` takes its word. -/
theorem engStep_rd0_next (h : ReadingRange s) (hp : rangePosition s < s.eng.n.toNat) (hb : s.regs.bsy = false) :
    engStep s = .next (rangeWordTaken s) := by
  have hi : s.eng.i ≠ strides s := (h.stride_lt hp).ne
  have hload : execLd32 (BitVec.ofNat 32 (effectiveAddress s)) 0#32 s = .next (returned (rangeWord s) s) := by
    rw [execLd32_ready (h.addressOk hp) hb, h.offset hp, rangeWord]
  rw [engStep_exec h.not_stalled (h.addressFits hp) (transaction_rd0_word h.phase hi) hload, advance_completed rfl]
  simp only [afterTransaction, returned_eng, h.phase]
  rw [readStep_word (s := returned _ s) hi, rangeWordTaken, ← bytesOf_rangeWord]
  rfl

/-- In its unit or in the next one, the next word is four bytes on. -/
theorem rangePosition_rangeWordTaken (h : ReadingRange s) :
    rangePosition (rangeWordTaken s) = rangePosition s + 4 := by
  change nextStride s * s.cfg.nu + 4 * nextWord s = s.eng.i * s.cfg.nu + 4 * s.eng.j + 4
  unfold nextStride nextWord
  split
  · have := unitWords_mul h.valid
    rw [Nat.succ_mul]; omega
  · omega

theorem nextWord_lt (h : ReadingRange s) : nextWord s < unitWords s.cfg := by
  have := h.word
  unfold nextWord
  split <;> omega

theorem ReadingRange.rangeWordTaken (h : ReadingRange s) : ReadingRange (rangeWordTaken s) where
  valid := h.valid
  phase := h.phase
  not_stalled := nofun
  range := ⟨h.range.aligned, h.range.length, h.range.inside⟩
  word := nextWord_lt h

/-- `s` with the last `k` words of the range read and `Ok(OUT)` answered. -/
def rangeAnswered (k : Nat) (s : State) : State :=
  { s with
    reply := .none
    eng := { s.eng with
      phase := .idle, rsp := rspWord .okData, i := strides s, j := 0
      out := s.eng.out ++
        Memory.readBytes s.regs.arr (s.eng.a.toNat - s.cfg.origin + rangePosition s) (4 * k) } }

theorem rangeAnswered_rangeWordTaken (k : Nat) (h : ReadingRange s) :
    rangeAnswered k (rangeWordTaken s) = rangeAnswered (k + 1) s := by
  have hout : s.eng.out ++ Memory.readBytes s.regs.arr (s.eng.a.toNat - s.cfg.origin + rangePosition s) 4 ++
        Memory.readBytes s.regs.arr (s.eng.a.toNat - s.cfg.origin + (rangePosition s + 4)) (4 * k) =
      s.eng.out ++
        Memory.readBytes s.regs.arr (s.eng.a.toNat - s.cfg.origin + rangePosition s) (4 * (k + 1)) := by
    rw [List.append_assoc, Nat.mul_succ, Nat.add_comm (4 * k), readBytes_add, Nat.add_assoc]
  rw [rangeAnswered, rangePosition_rangeWordTaken h]
  simp only [rangeAnswered, rangeWordTaken, strides, hout]

/-- At the end of the range `RD0` issues no transaction and responds, whatever BSY is. -/
theorem engStep_rd0_end (h : ReadingRange s) (hp : rangePosition s = s.eng.n.toNat) :
    engStep s = .next (rangeAnswered 0 s) := by
  obtain ⟨hi, hj⟩ := h.counters_at_end hp
  have hfit : addressFits s = true := by simp [addressFits, h.phase, hi]
  rw [engStep_silent (by simp [h.phase]) (by simp [h.phase]) h.not_stalled hfit (transaction_rd0_end h.phase hi),
    advance_completed rfl]
  simp only [afterTransaction, h.phase]
  rw [readStep_end (s := { s with reply := .none }) hi]
  simp [rangeAnswered, respond, Memory.readBytes, hi, hj]

/-- The run of the last `k` words of the range and of the step that answers, by induction on `k`. -/
theorem runSteps_rd0 {k : Nat} (rest : List Agent) (h : ReadingRange s) (hb : s.regs.bsy = false ∨ k = 0)
    (hp : rangePosition s + 4 * k = s.eng.n.toNat) :
    runSteps (k + 1) (scheduled (engTurns (k + 1) ++ rest) s) = .next (scheduled rest (rangeAnswered k s)) := by
  induction k generalizing s with
  | zero =>
    rw [runSteps_engTurns_succ (engStep_rd0_end (h.scheduled _) hp)]
    rfl
  | succ k ih =>
    have hbsy : s.regs.bsy = false := hb.resolve_right k.succ_ne_zero
    have hlt : rangePosition s < s.eng.n.toNat := by omega
    have hnext : rangePosition (rangeWordTaken s) + 4 * k = s.eng.n.toNat := by
      rw [rangePosition_rangeWordTaken h]; omega
    rw [runSteps_engTurns_succ (engStep_rd0_next (h.scheduled _) hlt hbsy), ← rangeAnswered_rangeWordTaken k h]
    exact ih h.rangeWordTaken (.inl hbsy) hnext

/-- An accepted READ is at the first word of its range. -/
theorem accepted_readingRange {c : CmdArgs} (hv : s.cfg.Valid)
    (hc : (addressAligned s.cfg c.a && lengthAligned s.cfg c.n && inFlash s.cfg c.a c.n.toNat) = true) :
    ReadingRange (accepted 0x07#8 .rd0 c s) := by
  simp only [Bool.and_eq_true] at hc
  obtain ⟨⟨ha, hn⟩, hf⟩ := hc
  exact ⟨hv, rfl, nofun, ⟨ha, hn, hf⟩, unitWords_pos hv⟩

/-- An accepted READ starts at the start of its range. -/
@[simp] theorem rangePosition_accepted (op : BitVec 8) (p : Phase) (c : CmdArgs) :
    rangePosition (accepted op p c s) = 0 := by
  simp [rangePosition, accepted]

/-- A checked length is a number of words. -/
theorem ReadingRange.length_words (h : ReadingRange s) : 4 * (s.eng.n.toNat / 4) = s.eng.n.toNat :=
  Nat.mul_div_cancel' ((Nat.dvd_of_mod_eq_zero h.valid.nu_words).trans (Nat.dvd_of_mod_eq_zero h.length_mod))

/-- From its first word on, the range is answered whole. -/
theorem rangeAnswered_accepted {c : CmdArgs} (h : ReadingRange (accepted 0x07#8 .rd0 c s)) :
    rangeAnswered (c.n.toNat / 4) (accepted 0x07#8 .rd0 c s) =
      { answered 0x07#8 .okData c s with
        eng := { (answered 0x07#8 .okData c s).eng with
          i := c.n.toNat / s.cfg.nu
          out := Memory.readBytes s.regs.arr (c.a.toNat - s.cfg.origin) c.n.toNat } } := by
  have hlen : 4 * (c.n.toNat / 4) = c.n.toNat := h.length_words
  rw [rangeAnswered, rangePosition_accepted]
  simp only [accepted, answered, strides, List.nil_append, Nat.add_zero, hlen]

/-- The run of an accepted READ: while no operation is in flight, or over an empty range. -/
theorem runSteps_read {c : CmdArgs} (rest : List Agent) (h : ReadingRange (accepted 0x07#8 .rd0 c s))
    (hb : s.regs.bsy = false ∨ c.n = 0#32) :
    runSteps (c.n.toNat / 4 + 1) (scheduled (engTurns (c.n.toNat / 4 + 1) ++ rest) (accepted 0x07#8 .rd0 c s)) =
      .next (scheduled rest (rangeAnswered (c.n.toNat / 4) (accepted 0x07#8 .rd0 c s))) := by
  refine runSteps_rd0 rest h (hb.imp_right fun hn => by simp [hn]) ?_
  rw [rangePosition_accepted, Nat.zero_add]
  exact h.length_words

end Read

/-- Settles O42: acceptance by the three checks, then a turn of ENG for each word of the range and one that answers, or one
that waits. -/
theorem readReturnsTheRange : Obligations.ReadReturnsTheRange := by
  intro s c rest hv hi
  refine ⟨fun hc => present_violated hi (Bool.eq_false_iff.2 (mt rangeChecks_iff.1 hc)), fun ha hn hlo hhi => ?_,
    fun u hu => ⟨transaction_rd0_end hu, transaction_rd0_word hu⟩⟩
  have hc := rangeChecks_iff.2 ⟨ha, hn, hlo, hhi⟩
  have hread := accepted_readingRange hv hc
  refine ⟨present_accepted hi hc, fun hb => ?_, fun hb hne => ?_⟩
  · rw [runSteps_read rest hread hb, rangeAnswered_accepted hread]
    rfl
  · have hpos : rangePosition (accepted 0x07#8 .rd0 c s) < c.n.toNat := by
      rw [rangePosition_accepted]
      exact Nat.pos_of_ne_zero fun h0 => hne (BitVec.eq_of_toNat_eq h0)
    rw [runSteps_engTurns_succ (k := 0) (engStep_rd0_busy (hread.scheduled (engTurns 0 ++ rest)) hpos hb)]
    rfl

end Sys2Proof.Machine

/-! PROOF. The encodings (spec 30_encoding): a word is its three fields, decoding and encoding are inverse, exactly
the reserved words are rejected, and the response word. -/

namespace Sys2Proof

/-! ### A word is its three fields -/

/-- The three fields of a word put together again (30_encoding R91, R97). -/
@[simp] theorem frame_fields (w : FrameWord) : frame (fieldOp w) (fieldA w) (fieldN w) = w := by
  refine BitVec.eq_of_getLsbD_eq fun k hk => ?_
  simp only [frame, fieldOp, fieldA, fieldN, BitVec.getLsbD_append, BitVec.getLsbD_extractLsb']
  by_cases h0 : k < 32
  · simp [h0]
  · by_cases h1 : k < 64
    · have ha : k - 32 < 32 := by omega
      have hk' : 32 + (k - 32) = k := by omega
      simp [h0, ha, hk']
    · have ha : ¬ k - 32 < 32 := by omega
      have ho : k - 32 - 32 < 8 := by omega
      have hk' : 64 + (k - 32 - 32) = k := by omega
      simp [h0, ha, ho, hk']

/-- A word with the opcode `op` is `op` framed with the word's other two fields. -/
theorem frame_of_op {w : FrameWord} {n : Nat} (h : (fieldOp w).toNat = n) :
    frame (BitVec.ofNat 8 n) (fieldA w) (fieldN w) = w := by
  rw [← h, BitVec.ofNat_toNat, BitVec.setWidth_eq, frame_fields]

/-- A word with the opcode `op` and the selector `x` likewise. -/
theorem frame_of_selector {w : FrameWord} {n x : Nat} (h : (fieldOp w).toNat = n) (hx : (fieldA w).toNat = x) :
    frame (BitVec.ofNat 8 n) (BitVec.ofNat 32 x) (fieldN w) = w := by
  rw [← hx, BitVec.ofNat_toNat, BitVec.setWidth_eq, frame_of_op h]

/-! ### Decoding and encoding are inverse -/

/-- Decoding the word of an instruction, its payload beside it, gives the instruction back. -/
theorem decode_encode (i : Instr) : decode i.format (encode i) i.payload = .ok i := by
  cases i <;>
    simp [Instr.format, Instr.payload, Instr.code, encode, decode, decodeCmd, decodeBus, decodeSelector, argsOf]

/-- The word a command was decoded from is the command's word, and its payload the one beside it. -/
theorem encode_decodeCmd {w : FrameWord} {pay : List Byte} {i : Instr} (h : decodeCmd w pay = .ok i) :
    encode i = w ∧ i.payload = pay := by
  unfold decodeCmd at h
  split at h <;> cases h <;> exact ⟨frame_of_op ‹_›, rfl⟩

/-- The word of a `MOD_CR` was decoded from its selector and value. -/
theorem encode_decodeSelector {w : FrameWord} {i : Instr} (hop : (fieldOp w).toNat = 2)
    (h : decodeSelector (fieldA w) (fieldN w) = .ok i) : i.format = .bus ∧ encode i = w := by
  unfold decodeSelector at h
  split at h <;> cases h <;> exact ⟨rfl, frame_of_selector hop ‹_›⟩

/-- The word a transaction was decoded from is the transaction's word. -/
theorem encode_decodeBus {w : FrameWord} {i : Instr} (h : decodeBus w = .ok i) : i.format = .bus ∧ encode i = w := by
  unfold decodeBus at h
  split at h
  case h_2 hop => exact encode_decodeSelector hop h
  all_goals cases h <;> exact ⟨rfl, frame_of_op ‹_›⟩

/-- Settles O5: each instruction's word decodes to it, and each branch of the decoders is entered by its opcode alone.
-/
theorem decodingInvertsEncoding : Obligations.DecodingInvertsEncoding := by
  refine ⟨decode_encode, fun f w pay i h => ?_⟩
  cases f with
  | cmd =>
    obtain ⟨henc, hpay⟩ := encode_decodeCmd h
    exact ⟨Machine.decodeCmd_format h, henc, fun _ => hpay⟩
  | bus =>
    obtain ⟨hfmt, henc⟩ := encode_decodeBus h
    exact ⟨hfmt, henc, nofun⟩

/-! ### Reserved words -/

/-- A CMD word is rejected exactly for an opcode outside the table (30_encoding R94). -/
theorem decodeCmd_reserved_iff {w : FrameWord} {pay : List Byte} :
    decodeCmd w pay = .error (.reservedOpcode (fieldOp w)) ↔ fieldOp w = 0#8 ∨ 0x0D#8 ≤ fieldOp w := by
  simp only [BitVec.le_def, BitVec.toNat_eq, BitVec.reduceToNat]
  unfold decodeCmd
  split
  case h_13 => simp only [true_iff]; grind
  all_goals simp only [reduceCtorEq, false_iff]; omega

/-- A selector is rejected exactly above 5 (30_encoding R99). -/
theorem decodeSelector_reserved_iff {x v : Word} {e : DecodeError} :
    decodeSelector x v = .error e ↔ 5 < x.toNat ∧ e = .reservedSelector x := by
  unfold decodeSelector
  split
  case h_7 => simp only [Except.error.injEq, eq_comm, iff_and_self]; grind
  all_goals simp only [reduceCtorEq, false_iff]; omega

/-- A BUS word is rejected for its transaction type exactly outside the table (30_encoding R99). -/
theorem decodeBus_reserved_iff {w : FrameWord} :
    decodeBus w = .error (.reservedTransaction (fieldOp w)) ↔ fieldOp w = 0#8 ∨ 7#8 ≤ fieldOp w := by
  simp only [BitVec.le_def, BitVec.toNat_eq, BitVec.reduceToNat]
  unfold decodeBus
  split
  case h_2 => simp only [decodeSelector_reserved_iff, reduceCtorEq, and_false, false_iff]; omega
  case h_7 => simp only [true_iff]; grind
  all_goals simp only [reduceCtorEq, false_iff]; omega

/-- A BUS word is rejected for its selector exactly when it is a `MOD_CR` whose selector is above 5 (30_encoding R99).
-/
theorem decodeBus_reservedSelector_iff {w : FrameWord} :
    decodeBus w = .error (.reservedSelector (fieldA w)) ↔ fieldOp w = 2#8 ∧ 5#32 < fieldA w := by
  simp only [BitVec.lt_def, BitVec.toNat_eq, BitVec.reduceToNat]
  unfold decodeBus
  split
  case h_2 hop => simp only [decodeSelector_reserved_iff, and_true, hop, true_and]
  case h_7 => simp only [Except.error.injEq, reduceCtorEq, false_iff]; grind
  all_goals simp only [reduceCtorEq, false_iff]; omega

/-- Settles O6: branch by branch of the decoders; what the BUS decoder rejects, the register layer refuses. -/
theorem reservedWordsAreRejected : Obligations.ReservedWordsAreRejected := by
  refine fun w pay => ⟨decodeCmd_reserved_iff, decodeBus_reserved_iff, decodeBus_reservedSelector_iff, fun s hno => ?_⟩
  unfold Machine.busWord
  split
  · exact absurd ‹_› (hno _)
  · rfl

/-! ### Words written out, and the response word -/

/-- Settles O4: the decoder computes each of the eleven words. -/
theorem spelledOutWordsDecode : Obligations.SpelledOutWordsDecode :=
  ⟨rfl, rfl, rfl, rfl, rfl, rfl, rfl, rfl, rfl, rfl, rfl⟩

open Machine in
/-- Settles O7: outcome by outcome, the last clause once for each response. -/
theorem responseWordsAreEncoded : Obligations.ResponseWordsAreEncoded := by
  refine ⟨rfl, rfl, rfl, rfl, rfl, rfl, rfl, rfl, rfl, rfl, fun r => ?_⟩
  cases r with
  | okBit b => cases b <;> decide
  | err e => cases e <;> decide
  | ok | okData | abort => decide

end Sys2Proof

/-! PROOF. What one step can do (spec 10_state, 20_memory section 5): the frame of the transactions, of the commands,
of the engine's own update and of each agent's turn, and what a step can do to the register layer. -/

namespace Sys2Proof.Machine

/-! ### The transactions, one by one -/

/-- Everything `MOD_CR(LOCK, v)` does (40_lock_unlock R121, R122). -/
theorem execModCrLock_next {v : Word} {s t : State} (h : execModCrLock v s = .next t) :
    t = wrote (relock s.regs) s ∨ t = completed s := by
  unfold execModCrLock at h
  split at h <;> cases h
  · exact .inl rfl
  · exact .inr rfl

/-- Everything a key write does (40_lock_unlock R123 to R127). -/
theorem execWrKeyr_next {x v : Word} {s t : State} (h : execWrKeyr x v s = .next t) :
    (s.regs.lock = true ∧ t = wrote (keyWrite s.cfg v s.regs) s) ∨ (s.regs.lock = false ∧ t = stalls s) := by
  unfold execWrKeyr at h
  split at h <;> cases h <;> simp_all

/-- Everything a load does when it answers a next state (43_native_access R160). -/
theorem execLd32_next {x v : Word} {s t : State} (h : execLd32 x v s = .next t) :
    (s.regs.bsy = true ∧ t = waits s) ∨ (s.regs.bsy = false ∧ ∃ w, t = returned w s) := by
  unfold execLd32 at h
  repeat' split at h
  all_goals cases h
  · exact .inl ⟨‹_›, rfl⟩
  · exact .inr ⟨by simp_all, _, rfl⟩

/-- What `MOD_CR(START, v)` starts is an operation FOP can complete, and nothing was in flight (45_erase R203, R204). -/
theorem execModCrStart_starts {v : Word} {s t : State} (h : execModCrStart v s = .next t) :
    t = completed s ∨ t = wrote { s.regs with wrpErr := true } s ∨
      ∃ f, s.regs.bsy = false ∧ OperationOk s.cfg f ∧ t = wrote (startOperation f s.regs) s := by
  unfold execModCrStart at h
  repeat' split at h
  all_goals cases h
  · exact .inl rfl
  · exact .inr (.inl rfl)
  · exact .inr (.inr ⟨_, by simp_all, by simp_all [OperationOk, pageInRange], rfl⟩)
  · exact .inr (.inr ⟨.eraseAll, by simp_all, trivial, rfl⟩)

/-- What one instruction can make of the register layer. -/
inductive RegsNext (c : Config) (r : Regs) : Regs → Prop
  | same : RegsNext c r r
  | relocked : RegsNext c r (relock r)
  | keyed (v : Word) : RegsNext c r (keyWrite c v r)
  | wrotePg (b : Bool) : RegsNext c r { r with pg := b, wcnt := if b then r.wcnt else 0 }
  | wrotePer (b : Bool) : RegsNext c r { r with per := b }
  | wroteMer1 (b : Bool) : RegsNext c r { r with mer1 := b }
  | wrotePnb (v : Word) : RegsNext c r { r with pnb := pnbField c v }
  | flagged : RegsNext c r { r with wrpErr := true }
  | started (f : Operation) : r.bsy = false → OperationOk c f → RegsNext c r (startOperation f r)
  | stored (o : Nat) (v : Word) : r.bsy = false → o < c.flashBytes → storeInOrder c r o = true →
      RegsNext c r (acceptStore c o v r)

/-- Every instruction changes the register layer in one of these ways. -/
theorem exec_regsNext {i : Instr} {s t : State} (h : exec i s = .next t) : RegsNext s.cfg s.regs t.regs := by
  cases i with
  | isLocked | unlock | lock | status | readNative | writeNative | read | write | erasePage | eraseAll | acquire
  | release => rw [exec_cmd_regs rfl h]; exact .same
  | rdCr | rdSr => cases h; exact .same
  | modCrLock =>
    obtain rfl | rfl := execModCrLock_next h
    · exact .relocked
    · exact .same
  | modCrPg => obtain ⟨-, rfl⟩ := execModCrPg_next h; exact .wrotePg _
  | modCrPer => obtain ⟨-, rfl⟩ := writeControl_next h; exact .wrotePer _
  | modCrMer1 => obtain ⟨-, rfl⟩ := writeControl_next h; exact .wroteMer1 _
  | modCrPnb => obtain ⟨-, rfl⟩ := writeControl_next h; exact .wrotePnb _
  | modCrStart =>
    obtain rfl | rfl | ⟨f, hb, hf, rfl⟩ := execModCrStart_starts h
    · exact .same
    · exact .flagged
    · exact .started f hb hf
  | wrKeyr x v =>
    obtain ⟨-, rfl⟩ | ⟨-, rfl⟩ := execWrKeyr_next (x := x) h
    · exact .keyed v
    · exact .same
  | ld32 x v => rw [execLd32_regs (x := x) (v := v) h]; exact .same
  | st32 x v =>
    obtain ⟨hx, hb, ⟨-, rfl⟩ | ⟨-, -, -, -, ho, rfl⟩⟩ := execSt32_next h
    · exact .flagged
    · have := offsetOf_lt hx
      exact .stored _ v hb (by omega) ho

@[simp] theorem acceptStore_arr (c : Config) (o : Nat) (v : Word) (r : Regs) : (acceptStore c o v r).arr = r.arr := by
  unfold acceptStore; split <;> rfl

@[simp] theorem acceptStore_per (c : Config) (o : Nat) (v : Word) (r : Regs) : (acceptStore c o v r).per = r.per := by
  unfold acceptStore; split <;> rfl

@[simp] theorem acceptStore_mer1 (c : Config) (o : Nat) (v : Word) (r : Regs) :
    (acceptStore c o v r).mer1 = r.mer1 := by
  unfold acceptStore; split <;> rfl

@[simp] theorem acceptStore_progErr (c : Config) (o : Nat) (v : Word) (r : Regs) :
    (acceptStore c o v r).progErr = r.progErr := by
  unfold acceptStore; split <;> rfl

@[simp] theorem acceptStore_wrpErr (c : Config) (o : Nat) (v : Word) (r : Regs) :
    (acceptStore c o v r).wrpErr = r.wrpErr := by
  unfold acceptStore; split <;> rfl

/-- An accepted store that raises BSY puts an operation in flight. -/
theorem acceptStore_busy (c : Config) (o : Nat) (v : Word) (r : Regs) :
    ((acceptStore c o v r).bsy = true ∧ (acceptStore c o v r).inflight ≠ none) ∨
      ((acceptStore c o v r).bsy = r.bsy ∧ (acceptStore c o v r).inflight = r.inflight) := by
  unfold acceptStore
  split
  · exact .inl ⟨rfl, nofun⟩
  · exact .inr ⟨rfl, rfl⟩

section RegsNext

variable {c : Config} {r r' : Regs}

/-- No instruction changes a byte of the array (10_state R38). -/
theorem RegsNext.arr (h : RegsNext c r r') : r'.arr = r.arr := by cases h <;> simp [startOperation]

/-- No instruction touches PROGERR (10_state R31). -/
theorem RegsNext.progErr (h : RegsNext c r r') : r'.progErr = r.progErr := by cases h <;> simp [startOperation]

/-- No instruction clears WRPERR (10_state R32). -/
theorem RegsNext.wrpErr (h : RegsNext c r r') (hw : r.wrpErr = true) : r'.wrpErr = true := by
  cases h <;> simp [startOperation, hw]

/-- An instruction leaves BSY alone or puts an operation in flight (10_state R30). -/
theorem RegsNext.busy (h : RegsNext c r r') : r'.bsy = r.bsy ∨ (r'.bsy = true ∧ r'.inflight ≠ none) := by
  cases h with
  | started f => exact .inr ⟨rfl, nofun⟩
  | stored o v => exact (acceptStore_busy c o v r).symm.imp And.left id
  | keyed v => exact .inl (keyWrite_bsy c v r)
  | same | relocked | wrotePg | wrotePer | wroteMer1 | wrotePnb | flagged => exact .inl rfl

/-- Every instruction keeps the register layer's promises. -/
theorem RegsNext.inv (h : RegsNext c r r') (hv : c.Valid) (hr : RegsInv c r) : RegsInv c r' := by
  cases h with
  | same => exact hr
  | relocked => exact regs_relock hr
  | keyed v => exact regs_keyWrite v hr
  | wrotePg b => exact regs_pg hv b hr
  | wrotePer | wroteMer1 =>
    exact ⟨hr.busy, hr.pnb_width, hr.wcnt_lt, hr.wbuf_words, hr.wbase_unit, hr.inflight_ok, hr.arr_wf, hr.arr_range⟩
  | wrotePnb v => exact regs_pnb v hr
  | flagged => exact regs_wrp hr
  | started f hb hf => exact regs_start hf hr
  | stored o v hb ho hin => exact regs_accept hv v ho hin hr

end RegsNext

/-! ### The frame of the instructions -/

/-- A transaction touches the register layer and the reply alone. -/
theorem exec_bus_frame {i : Instr} {s t : State} (hi : i.format = .bus) (h : exec i s = .next t) :
    t = { s with regs := t.regs, reply := t.reply } := by
  cases i with
  | isLocked | unlock | lock | status | readNative | writeNative | read | write | erasePage | eraseAll | acquire
  | release => cases hi
  | rdCr | rdSr => cases h; rfl
  | modCrLock => obtain rfl | rfl := execModCrLock_next h <;> rfl
  | modCrPg => obtain ⟨-, rfl⟩ := execModCrPg_next h; rfl
  | modCrPer | modCrMer1 | modCrPnb => obtain ⟨-, rfl⟩ := writeControl_next h; rfl
  | modCrStart => obtain rfl | rfl | ⟨f, rfl⟩ := execModCrStart_next h <;> rfl
  | wrKeyr x v => obtain ⟨-, rfl⟩ | ⟨-, rfl⟩ := execWrKeyr_next (x := x) h <;> rfl
  | ld32 x v => obtain ⟨-, rfl⟩ | ⟨-, w, rfl⟩ := execLd32_next (x := x) (v := v) h <;> rfl
  | st32 => obtain ⟨-, -, ⟨-, rfl⟩ | ⟨-, -, -, -, -, rfl⟩⟩ := execSt32_next h <;> rfl

/-- An accepted store touches BSY, `inflight` and the write buffer alone (43_native_access R162, R163). -/
theorem acceptStore_frame (c : Config) (o : Nat) (v : Word) (r : Regs) :
    acceptStore c o v r =
      { r with
        bsy := (acceptStore c o v r).bsy, inflight := (acceptStore c o v r).inflight
        wcnt := (acceptStore c o v r).wcnt, wbase := (acceptStore c o v r).wbase
        wbuf := (acceptStore c o v r).wbuf } := by
  unfold acceptStore; split <;> rfl

/-- Settles O59: by the frame of every transaction, and for each row by what its transaction can do. -/
theorem transactionsKeepTheRest : Obligations.TransactionsKeepTheRest := by
  intro i s t hi h
  have hregs := exec_regsNext h
  refine ⟨exec_bus_frame hi h, hregs.progErr, fun m => by rw [hregs.arr], ?_, ?_, ?_, ?_, ?_, ?_, ?_, ?_, ?_⟩
  · rintro x v (rfl | rfl | rfl)
    · cases h; rfl
    · cases h; rfl
    · exact execLd32_regs (x := x) (v := v) h
  · rintro v rfl
    obtain rfl | rfl := execModCrLock_next h <;> rfl
  · rintro v rfl
    obtain ⟨-, rfl⟩ := execModCrPg_next h; rfl
  · rintro v rfl
    obtain ⟨-, rfl⟩ := writeControl_next h; rfl
  · rintro v rfl
    obtain ⟨-, rfl⟩ := writeControl_next h; rfl
  · rintro v rfl
    obtain ⟨-, rfl⟩ := writeControl_next h; rfl
  · rintro v rfl
    obtain rfl | rfl | ⟨f, rfl⟩ := execModCrStart_next h <;> rfl
  · rintro x v rfl
    obtain ⟨-, rfl⟩ | ⟨-, rfl⟩ := execWrKeyr_next (x := x) h
    · exact keyWrite_frame s.cfg v s.regs
    · rfl
  · rintro x v rfl
    obtain ⟨-, -, ⟨-, rfl⟩ | ⟨-, -, -, -, -, rfl⟩⟩ := execSt32_next h
    · rfl
    · rw [wrote_regs, acceptStore_frame]

/-- A command comes to the port as one of the command rules presents it (30_encoding R91). -/
theorem exec_cmd_present {i : Instr} (hi : i.format = .cmd) (s : State) :
    ∃ op c pass p, c.pay = i.payload ∧ exec i s = present op c pass p s := by
  cases i with
  | isLocked c | unlock c | lock c | status c | readNative c | writeNative c | read c | write c | erasePage c
  | eraseAll c | acquire c | release c => exact ⟨_, c, _, _, rfl, rfl⟩
  | rdCr | modCrLock | modCrPg | modCrPer | modCrMer1 | modCrPnb | modCrStart | rdSr | wrKeyr | ld32 | st32 => cases hi

/-- Settles O60: by the three things the command port can do. -/
theorem acceptanceKeepsTheRest : Obligations.AcceptanceKeepsTheRest := by
  intro i s t hi h
  obtain ⟨op, c, pass, p, hpay, hexec⟩ := exec_cmd_present hi s
  rw [hexec] at h
  obtain ⟨-, -, rfl⟩ | ⟨-, -, rfl⟩ | ⟨hidle, -, rfl⟩ := present_next h
  · exact ⟨rfl, rfl, rfl, rfl, rfl, rfl, rfl, .inl rfl, fun _ => rfl, fun _ => hpay⟩
  · exact ⟨rfl, rfl, rfl, rfl, rfl, rfl, rfl, .inr rfl, fun _ => rfl, fun _ => hpay⟩
  · exact ⟨rfl, rfl, rfl, rfl, rfl, rfl, rfl, .inl rfl, fun _ => rfl, fun hi => absurd hi hidle⟩

end Sys2Proof.Machine

/-! PROOF. What the turn of each agent can do (spec 10_state sections 6 and 9): the phase table, the guard, the array,
the flags and what no step changes. -/

namespace Sys2Proof.Machine

/-! ### The engine's own update -/

/-- Going on or answering writes the engine alone. -/
theorem unlockIfLocked_frame (p : Phase) (s : State) :
    unlockIfLocked p s = { s with eng := (unlockIfLocked p s).eng } := by
  unfold unlockIfLocked; split <;> rfl

theorem takeGuard_frame (s : State) : takeGuard s = { s with eng := (takeGuard s).eng } := by
  rw [takeGuard, unlockIfLocked_frame]; rfl

theorem readNativeWord_frame (s : State) : readNativeWord s = { s with eng := (readNativeWord s).eng } := by
  unfold readNativeWord; split <;> rfl

theorem readStep_frame (s : State) : readStep s = { s with eng := (readStep s).eng } := by
  unfold readStep
  split
  · rfl
  · split <;> rfl

theorem strideStep_frame (s : State) : strideStep s = { s with eng := (strideStep s).eng } := by
  unfold strideStep; split <;> rfl

theorem storedWord_frame (s : State) : storedWord s = { s with eng := (storedWord s).eng } := by
  unfold storedWord; split <;> rfl

theorem finishWrite_frame (r : Response) (s : State) : finishWrite r s = { s with eng := (finishWrite r s).eng } := by
  unfold finishWrite
  split
  · split <;> rfl
  · rfl

/-- PRECHECK writes what its `finish` writes. -/
theorem precheck_frame {finish : Response → State → State}
    (hf : ∀ r s, finish r s = { s with eng := (finish r s).eng }) (p : Phase) (s : State) :
    precheck finish p s = { s with eng := (precheck finish p s).eng } := by
  unfold precheck
  split
  · rfl
  · exact hf _ _

/-- So does POLL. -/
theorem poll_frame {finish : Response → State → State}
    (hf : ∀ r s, finish r s = { s with eng := (finish r s).eng }) (p : Phase) (s : State) :
    poll finish p s = { s with eng := (poll finish p s).eng } := by
  unfold poll
  split
  · split
    · rw [hf]; rfl
    · rfl
  · rfl

/-- The engine's own update writes the engine alone (10_state R48). -/
theorem afterTransaction_frame (s : State) : afterTransaction s = { s with eng := (afterTransaction s).eng } := by
  have hrespond : ∀ (r : Response) (s : State), respond r s = { s with eng := (respond r s).eng } := fun _ _ => rfl
  cases hp : s.eng.phase with
  | idle | aborted => simp only [afterTransaction, hp]
  | il0 | ul1 | ul2 | lk0 | st0 | aq2 | aq3 | rl0 | wn1 | wn4 | ep1 | ep2 | ep3 | ep5 | ep6 | ea1 | ea2
  | ea4 | ea5 | ab0 => simp only [afterTransaction, hp]; rfl
  | ul0 | aq1 => simp only [afterTransaction, hp]; exact unlockIfLocked_frame _ _
  | aq0 => simp only [afterTransaction, hp]; exact takeGuard_frame s
  | rn0 => simp only [afterTransaction, hp]; exact readNativeWord_frame s
  | rd0 => simp only [afterTransaction, hp]; exact readStep_frame s
  | wr0 => simp only [afterTransaction, hp]; exact strideStep_frame s
  | wn0 => simp only [afterTransaction, hp]; exact precheck_frame finishWrite_frame _ _
  | wn2 => simp only [afterTransaction, hp]; exact storedWord_frame s
  | wn3 => simp only [afterTransaction, hp]; exact poll_frame finishWrite_frame _ _
  | wn5 => simp only [afterTransaction, hp]; exact finishWrite_frame _ _
  | ep0 | ea0 => simp only [afterTransaction, hp]; exact precheck_frame hrespond _ _
  | ep4 | ea3 => simp only [afterTransaction, hp]; exact poll_frame hrespond _ _

/-! ### Where the engine goes -/

/-- On to the key writes, or an answer. -/
theorem unlockIfLocked_cases (p : Phase) (s : State) :
    (crLock s.cfg s.reply.ret = true ∧ unlockIfLocked p s = goto p s) ∨ unlockIfLocked p s = respond .ok s := by
  unfold unlockIfLocked
  split
  · exact .inl ⟨‹_›, rfl⟩
  · exact .inr rfl

/-- A native write sequence that ends with an error is answered, in WRITE too (44_buffered_access R192). -/
theorem finishWrite_error {r : Response} (h : r ≠ .ok) (s : State) :
    finishWrite r s = respond r (setCarry (if s.eng.op = writeOpcode then r else s.eng.carry) s) := by
  by_cases hop : s.eng.op = writeOpcode
  · rw [finishWrite, if_pos hop, if_neg h, if_pos hop]
  · rw [finishWrite, if_neg hop, if_neg hop]; rfl

/-- One that ends well goes on to the next stride in WRITE and is answered in WRITE_NATIVE. -/
theorem finishWrite_ok (s : State) :
    finishWrite .ok s =
      if s.eng.op = writeOpcode then goto .wr0 (setI (s.eng.i + 1) (setCarry .ok s)) else respond .ok s := by
  unfold finishWrite; simp only [if_true]

/-- PRECHECK goes on, or ends the command with an error. -/
theorem precheck_cases (finish : Response → State → State) (p : Phase) (s : State) :
    precheck finish p s = goto p s ∨ ∃ r, r ≠ .ok ∧ precheck finish p s = finish r s := by
  unfold precheck
  split
  · exact .inl rfl
  · exact .inr ⟨_, ‹_›, rfl⟩

/-- POLL goes on, counts, or ends the command with a timeout. -/
theorem poll_cases (finish : Response → State → State) (p : Phase) (s : State) :
    (srBsy s.cfg s.reply.ret = false ∧ poll finish p s = goto p s) ∨
      (s.cfg.pollBudget ≠ some (s.eng.polls + 1) ∧ poll finish p s = setPolls (s.eng.polls + 1) s) ∨
      (s.cfg.pollBudget = some (s.eng.polls + 1) ∧
        poll finish p s = finish (.err .timeout) (setPolls (s.eng.polls + 1) s)) := by
  unfold poll
  split
  · split
    · exact .inr (.inr ⟨‹_›, rfl⟩)
    · exact .inr (.inl ⟨‹_›, rfl⟩)
  · exact .inl ⟨by simp_all, rfl⟩

/-- An error ends a native write in `IDLE`. -/
theorem finishWrite_error_phase (r : Response) (s : State) (h : r ≠ .ok) : (finishWrite r s).eng.phase = .idle := by
  rw [finishWrite_error h]; rfl

theorem precheck_phase {finish : Response → State → State} (hf : ∀ r s, r ≠ .ok → (finish r s).eng.phase = .idle)
    (p : Phase) (s : State) : (precheck finish p s).eng.phase = p ∨ (precheck finish p s).eng.phase = .idle := by
  obtain h | ⟨r, hr, h⟩ := precheck_cases finish p s <;> rw [h]
  · exact .inl rfl
  · exact .inr (hf r s hr)

theorem poll_phase {finish : Response → State → State} (hf : ∀ r s, r ≠ .ok → (finish r s).eng.phase = .idle)
    (p : Phase) (s : State) :
    (poll finish p s).eng.phase = p ∨ (poll finish p s).eng.phase = s.eng.phase ∨
      (poll finish p s).eng.phase = .idle := by
  obtain ⟨-, h⟩ | ⟨-, h⟩ | ⟨-, h⟩ := poll_cases finish p s <;> rw [h]
  · exact .inl rfl
  · exact .inr (.inl rfl)
  · exact .inr (.inr (hf _ _ nofun))

/-- Once its transaction has completed, the engine goes where the table says (10_state R48). -/
theorem afterTransaction_follows {s : State} (hidle : s.eng.phase ≠ .idle) (hab : s.eng.phase ≠ .aborted) :
    (afterTransaction s).eng.phase ∈ s.eng.phase.follows := by
  have hrespond : ∀ (r : Response) (s : State), r ≠ .ok → (respond r s).eng.phase = .idle := fun _ _ _ => rfl
  cases hp : s.eng.phase with
  | idle => exact absurd hp hidle
  | aborted => exact absurd hp hab
  | il0 | ul1 | ul2 | lk0 | st0 | aq2 | aq3 | rl0 | wn1 | wn4 | ep1 | ep2 | ep3 | ep5 | ep6 | ea1 | ea2 | ea4 | ea5
  | ab0 => simp [afterTransaction, hp, Phase.follows]
  | ul0 | aq1 =>
    simp only [afterTransaction, hp]
    obtain ⟨-, h⟩ | h := unlockIfLocked_cases _ s <;> rw [h] <;> simp [Phase.follows]
  | aq0 =>
    simp only [afterTransaction, hp, takeGuard]
    obtain ⟨-, h⟩ | h := unlockIfLocked_cases .aq1 (setGuard (.held (crLock s.cfg s.reply.ret)) s) <;> rw [h] <;>
      simp [Phase.follows]
  | rn0 =>
    simp only [afterTransaction, hp, readNativeWord]
    split <;> simp [hp, Phase.follows]
  | rd0 =>
    simp only [afterTransaction, hp, readStep]
    split
    · simp [Phase.follows]
    · split <;> simp [hp, Phase.follows]
  | wr0 =>
    simp only [afterTransaction, hp, strideStep]
    split <;> simp [Phase.follows]
  | wn2 =>
    simp only [afterTransaction, hp, storedWord]
    split <;> simp [hp, Phase.follows]
  | wn0 =>
    have := precheck_phase finishWrite_error_phase .wn1 s
    simpa [afterTransaction, hp, Phase.follows] using this
  | ep0 =>
    have := precheck_phase hrespond .ep1 s
    simpa [afterTransaction, hp, Phase.follows] using this
  | ea0 =>
    have := precheck_phase hrespond .ea1 s
    simpa [afterTransaction, hp, Phase.follows] using this
  | wn3 =>
    have := poll_phase finishWrite_error_phase .wn4 s
    simpa [afterTransaction, hp, Phase.follows] using this
  | ep4 =>
    have := poll_phase hrespond .ep5 s
    simpa [afterTransaction, hp, Phase.follows] using this
  | ea3 =>
    have := poll_phase hrespond .ea4 s
    simpa [afterTransaction, hp, Phase.follows] using this
  | wn5 =>
    simp only [afterTransaction, hp]
    by_cases hr : residualResult s.cfg s.reply.ret = .ok
    · rw [hr, finishWrite_ok]
      split <;> simp [Phase.follows]
    · rw [finishWrite_error_phase _ _ hr]; simp [Phase.follows]

/-- Everything a turn of ENG can do while a command runs and the engine is not stalled (10_state R40). -/
theorem engStep_running {s t : State} (h : engStep s = .next t) (hidle : s.eng.phase ≠ .idle)
    (hstall : s.reply ≠ .stalled) :
    addressFits s = true ∧ ((transaction s = none ∧ t = afterTransaction { s with reply := .none }) ∨
      ∃ i u, transaction s = some i ∧ i.format = .bus ∧ exec i s = .next u ∧ t = advance u) := by
  have hab : s.eng.phase ≠ .aborted := fun hp => by simp [engStep, hp] at h
  have hfit : addressFits s = true := by
    by_contra hno
    simp [engStep, hstall, hno] at h
  refine ⟨hfit, ?_⟩
  cases hi : transaction s with
  | none =>
    rw [engStep_silent hidle hab hstall hfit hi, advance_completed rfl] at h
    cases h; exact .inl ⟨rfl, rfl⟩
  | some i =>
    rw [engStep_issue hidle hab hstall hfit hi (transaction_bus hi)] at h
    split at h <;> cases h
    exact .inr ⟨i, _, rfl, transaction_bus hi, ‹_›, rfl⟩

/-- A stalled engine takes no step (40_lock_unlock R123). -/
theorem engStep_stalled {s : State} (hab : s.eng.phase ≠ .aborted) (h : s.reply = .stalled) : engStep s = .next s := by
  unfold engStep
  split
  · rfl
  · exact absurd ‹_› hab
  · rw [if_pos h]

/-- In `IDLE` the engine has no step. -/
theorem engStep_idle {s : State} (h : s.eng.phase = .idle) : engStep s = .next s := by simp [engStep, h]

/-- The reply stands through the engine's own update. -/
@[simp] theorem afterTransaction_reply (s : State) : (afterTransaction s).reply = s.reply := by
  rw [afterTransaction_frame]

@[simp] theorem advance_reply (s : State) : (advance s).reply = s.reply := by
  unfold advance; split <;> simp

/-- A turn of ENG in a running command stays while its transaction is pending and else moves along the table. -/
theorem engStep_phase {s t : State} (h : engStep s = .next t) (hidle : s.eng.phase ≠ .idle) :
    (t.reply.pending = true → t.eng.phase = s.eng.phase) ∧
      (t.reply.pending = false → t.eng.phase ∈ s.eng.phase.follows) := by
  have hab : s.eng.phase ≠ .aborted := fun hp => by simp [engStep, hp] at h
  by_cases hstall : s.reply = .stalled
  · rw [engStep_stalled hab hstall] at h
    cases h
    simp [hstall]
  · obtain ⟨-, ⟨-, rfl⟩ | ⟨i, u, -, hbus, hexec, rfl⟩⟩ := engStep_running h hidle hstall
    · exact ⟨fun hpend => by simp at hpend,
        fun _ => afterTransaction_follows (s := { s with reply := .none }) hidle hab⟩
    · have heng : u.eng = s.eng := by rw [exec_bus_frame hbus hexec]
      rw [advance_reply, ← heng]
      refine ⟨fun hpend => by simp [advance, hpend], fun hpend => ?_⟩
      rw [advance_completed hpend]
      exact afterTransaction_follows (heng ▸ hidle) (heng ▸ hab)

/-- Settles O10: the turn of ENG in `IDLE` passes, and elsewhere moves along the table. -/
theorem phaseMovesAlongTheTable : Obligations.PhaseMovesAlongTheTable := by
  intro s t h hg
  rw [step_turn hg] at h
  have hrun := fun hidle => engStep_phase (s := popTurn s) h hidle
  refine ⟨fun hidle => ?_, fun hidle => (hrun hidle).1, fun hidle => (hrun hidle).2⟩
  change engStep (popTurn s) = _ at h
  rw [engStep_idle (s := popTurn s) hidle] at h
  cases h; exact hidle

end Sys2Proof.Machine

/-! PROOF. Statements about the step of every agent (spec 00_scope R5, 10_state sections 3, 5 and 8, 42_guard R150,
60_exceptions R238): what HOST, ENG, FOP and ENV each leave unchanged. -/

namespace Sys2Proof.Machine

/-! ### HOST -/

/-- A command keeps the parameters, the queue, the schedule, the draws and the guard. -/
theorem exec_cmd_frame {i : Instr} {s t : State} (hi : i.format = .cmd) (h : exec i s = .next t) :
    t.cfg = s.cfg ∧ t.cmds = s.cmds ∧ t.sched = s.sched ∧ t.draws = s.draws ∧ t.eng.guard = s.eng.guard := by
  obtain ⟨hcfg, -, hcmds, hsched, hdraws, hguard, -⟩ := acceptanceKeepsTheRest i s t hi h
  exact ⟨hcfg, hcmds, hsched, hdraws, hguard⟩

/-- In `IDLE` a word at the port is a command that runs or a contract violation (30_encoding R91, R94). -/
theorem acceptWord_cases (c : HostCmd) {s : State} (hidle : s.eng.phase = .idle) :
    (∃ i, decode .cmd c.word c.pay = .ok i ∧ acceptWord c s = exec i s) ∨
      (∃ e, decode .cmd c.word c.pay = .error e) ∧
        acceptWord c s = .next (violated (fieldOp c.word) (argsOf c.word c.pay) s) := by
  unfold acceptWord
  split
  · exact .inl ⟨_, ‹_›, rfl⟩
  · exact .inr ⟨⟨_, ‹_›⟩, present_violated hidle rfl⟩

/-- Such a word keeps the parameters, the queue, the schedule, the draws and the guard. -/
theorem acceptWord_frame {c : HostCmd} {s t : State} (hidle : s.eng.phase = .idle) (h : acceptWord c s = .next t) :
    t.cfg = s.cfg ∧ t.cmds = s.cmds ∧ t.sched = s.sched ∧ t.draws = s.draws ∧ t.eng.guard = s.eng.guard := by
  obtain ⟨i, hi, hexec⟩ | ⟨-, hviol⟩ := acceptWord_cases c hidle
  · rw [hexec] at h
    exact exec_cmd_frame (decodeCmd_format hi) h
  · rw [hviol] at h
    cases h; exact ⟨rfl, rfl, rfl, rfl, rfl⟩

/-- Everything a turn of HOST can do when it gives a next state (30_encoding R91). -/
theorem hostStep_next {s t : State} (h : hostStep s = .next t) :
    t = s ∨ (s.eng.phase = .idle ∧ ∃ c rest, s.cmds = c :: rest ∧ acceptWord c { s with cmds := rest } = .next t) := by
  unfold hostStep at h
  split at h
  · split at h
    · cases h; exact .inl rfl
    · exact .inr ⟨‹_›, _, _, ‹_›, h⟩
  · cases h
  · cases h; exact .inl rfl

/-- With nothing to present the turn passes. -/
theorem hostStep_idle_nil {s : State} (hidle : s.eng.phase = .idle) (hc : s.cmds = []) : hostStep s = .next s := by
  simp [hostStep, hidle, hc]

/-- In `IDLE` HOST presents the next word of its queue. -/
theorem hostStep_idle_cons {s : State} {c : HostCmd} {rest : List HostCmd} (hidle : s.eng.phase = .idle)
    (hc : s.cmds = c :: rest) : hostStep s = acceptWord c { s with cmds := rest } := by
  simp [hostStep, hidle, hc]

/-- Settles O8: the turn of HOST is what becomes of the next word of its queue. -/
theorem hostStepRunsTheDecodedCommand : Obligations.HostStepRunsTheDecodedCommand := by
  intro s hg hidle
  have hstep : step s = hostStep (popTurn s) := step_turn hg
  refine ⟨fun hnil => hstep.trans (hostStep_idle_nil (s := popTurn s) hidle hnil), fun c rest hc => ?_⟩
  rw [hstep, hostStep_idle_cons (s := popTurn s) hidle hc]
  refine ⟨fun i hi => ?_, fun e he => ?_⟩
  · simp only [acceptWord, hi]
    rfl
  · simp only [acceptWord, he]
    exact present_violated hidle rfl

/-- While a command runs the port blocks (30_encoding R91). -/
theorem present_running {op : BitVec 8} {c : CmdArgs} {pass : Bool} {p : Phase} {s : State}
    (hidle : s.eng.phase ≠ .idle) (hab : s.eng.phase ≠ .aborted) : present op c pass p s = .next s := by
  unfold present
  split
  · contradiction
  · contradiction
  · rfl

/-- In `ABORTED` no command is accepted (60_exceptions R238). -/
theorem present_aborted {op : BitVec 8} {c : CmdArgs} {pass : Bool} {p : Phase} {s : State}
    (hab : s.eng.phase = .aborted) : present op c pass p s = .fault .aborted := by
  simp [present, hab]

/-- Settles O11: the port and the turn of HOST outside `IDLE` and `ABORTED`. -/
theorem busyPortBlocks : Obligations.BusyPortBlocks := by
  intro s hidle hab
  refine ⟨fun i hi => ?_, fun hg => ?_⟩
  · obtain ⟨op, c, pass, p, -, hexec⟩ := exec_cmd_present hi s
    rw [hexec, present_running hidle hab]
  · rw [step_turn hg]
    change hostStep (popTurn s) = _
    unfold hostStep
    split
    · contradiction
    · contradiction
    · rfl

/-! ### ENG -/

/-- The engine's own update reads no schedule and writes none: it keeps all but the engine. -/
theorem advance_frame (s : State) : advance s = { s with eng := (advance s).eng } := by
  unfold advance
  split
  · rfl
  · exact afterTransaction_frame s

/-- A turn of ENG keeps the parameters, the queue, the schedule and the draws. -/
theorem engStep_frame {s t : State} (h : engStep s = .next t) :
    t.cfg = s.cfg ∧ t.cmds = s.cmds ∧ t.sched = s.sched ∧ t.draws = s.draws := by
  obtain rfl | ⟨-, rfl⟩ | ⟨i, u, hi, hu, rfl⟩ := engStep_next h
  · exact ⟨rfl, rfl, rfl, rfl⟩
  · rw [advance_frame]
    exact ⟨rfl, rfl, rfl, rfl⟩
  · rw [advance_frame, exec_bus_frame (transaction_bus hi) hu]
    exact ⟨rfl, rfl, rfl, rfl⟩

/-- A turn of ENG changes the register layer as an instruction does. -/
theorem engStep_regsNext {s t : State} (h : engStep s = .next t) : RegsNext s.cfg s.regs t.regs := by
  obtain rfl | ⟨-, rfl⟩ | ⟨i, u, -, hu, rfl⟩ := engStep_next h
  · exact .same
  · rw [advance_regs]; exact .same
  · rw [advance_regs]; exact exec_regsNext hu

/-- A transaction carries no payload. -/
theorem payload_of_bus {i : Instr} (h : i.format = .bus) : i.payload = [] := by
  cases i with
  | isLocked | unlock | lock | status | readNative | writeNative | read | write | erasePage | eraseAll | acquire
  | release => cases h
  | rdCr | rdSr | modCrLock | modCrPg | modCrPer | modCrMer1 | modCrPnb | modCrStart | wrKeyr | ld32 | st32 => rfl

/-- Settles O9: the transaction of the phase, then the update of the phase. -/
theorem engineStepRunsItsTransaction : Obligations.EngineStepRunsItsTransaction := by
  rintro s hg hidle hab hstall hfit u rfl
  have hstep : step s = engStep (popTurn s) := step_turn hg
  refine ⟨fun hnone => ?_, fun i hi => ?_⟩
  · rw [hstep, engStep_silent (s := popTurn s) hidle hab hstall hfit hnone, advance_completed rfl]
    rfl
  · have hbus := transaction_bus hi
    have hissue := engStep_issue (s := popTurn s) hidle hab hstall hfit hi hbus
    refine ⟨?_, fun t ht hpend => ?_, fun t ht hpend => ?_, fun r hr => ?_⟩
    · have := decode_encode i
      rwa [hbus, payload_of_bus hbus] at this
    · rw [hstep, hissue]
      change exec i (popTurn s) = _ at ht
      rw [ht, ← advance_completed hpend]
    · rw [hstep, hissue]
      change exec i (popTurn s) = _ at ht
      simp only [ht, advance, hpend, if_true]
    · rw [hstep, hissue]
      change exec i (popTurn s) = _ at hr
      rw [hr]

/-! ### Every agent -/

/-- What no step changes and what every step consumes: the parameters, the turn, and a command of the queue (10_state
R47). -/
theorem step_frame {s t : State} (h : step s = .next t) :
    t.cfg = s.cfg ∧ t.sched = s.sched.tail ∧
      (t.cmds = s.cmds ∨ agentOf s = .host ∧ s.eng.phase = .idle ∧ ∃ c, s.cmds = c :: t.cmds) := by
  cases hg : agentOf s <;> rw [step_turn hg] at h
  case host =>
    obtain rfl | ⟨hidle, c, rest, hc, haccept⟩ := hostStep_next h
    · exact ⟨rfl, rfl, .inl rfl⟩
    · obtain ⟨hcfg, hcmds, hsched, -⟩ := acceptWord_frame (s := { popTurn s with cmds := rest }) hidle haccept
      exact ⟨hcfg, hsched, .inr ⟨rfl, hidle, c, hcmds ▸ hc⟩⟩
  case eng =>
    obtain ⟨hcfg, hcmds, hsched, -⟩ := engStep_frame (s := popTurn s) h
    exact ⟨hcfg, hsched, .inl hcmds⟩
  case fop =>
    cases h
    unfold fopStep
    split <;> exact ⟨rfl, rfl, .inl rfl⟩
  case reset => cases h; exact ⟨rfl, rfl, .inl rfl⟩
  case extRelock =>
    cases h
    unfold extRelockMove
    split <;> exact ⟨rfl, rfl, .inl rfl⟩

/-- Settles O58: what every step leaves unchanged and consumes. -/
theorem parametersAreFixed : Obligations.ParametersAreFixed := fun _ _ => step_frame

/-- What a step can do to the register layer, agent by agent. -/
theorem step_regs_cases {s t : State} (h : step s = .next t) :
    t.regs = s.regs ∨ (agentOf s = .eng ∧ RegsNext s.cfg s.regs t.regs) ∨
      (agentOf s = .fop ∧ ∃ f, s.regs.inflight = some f ∧ t.regs = complete s.cfg s.draws f s.regs) ∨
      (agentOf s = .reset ∧ t.regs = (State.resetOf s.cfg (arrAfterReset s)).regs) ∨
      (agentOf s = .extRelock ∧ s.cfg.extRelock = true ∧ t.regs = relock s.regs) := by
  cases hg : agentOf s <;> rw [step_turn hg] at h
  case host => exact .inl (hostStep_regs (s := popTurn s) h)
  case eng => exact .inr (.inl ⟨rfl, engStep_regsNext (s := popTurn s) h⟩)
  case fop =>
    cases h
    cases hf : s.regs.inflight with
    | none => rw [fopStep_none (s := popTurn s) hf]; exact .inl rfl
    | some f => rw [fopStep_some (s := popTurn s) hf]; exact .inr (.inr (.inl ⟨rfl, f, rfl, rfl⟩))
  case reset => cases h; exact .inr (.inr (.inr (.inl ⟨rfl, rfl⟩)))
  case extRelock =>
    cases h
    unfold extRelockMove
    split
    · exact .inr (.inr (.inr (.inr ⟨rfl, ‹_›, rfl⟩)))
    · exact .inl rfl

/-- Settles O55: no instruction touches the array, and of the agents only FOP and ENV's reset do. -/
theorem arrayChangesOnlyByOperations : Obligations.ArrayChangesOnlyByOperations := by
  refine ⟨fun i s t h => (exec_regsNext h).arr, fun s t h hne => ?_⟩
  obtain hsame | ⟨-, hnext⟩ | ⟨hg, f, hf, -⟩ | ⟨hg, hreset⟩ | ⟨-, -, hrel⟩ := step_regs_cases h
  · exact absurd (by rw [hsame]) hne
  · exact absurd hnext.arr hne
  · exact ⟨.inl hg, by simp [hf]⟩
  · refine ⟨.inr hg, fun hnone => hne ?_⟩
    simp [hreset, State.resetOf, arrAfterReset, hnone]
  · exact absurd (by rw [hrel, relock_arr]) hne

/-- Completing an operation clears no error flag. -/
theorem complete_sticky (c : Config) (d : Nat) (f : Operation) (r : Regs) :
    (r.progErr = true → (complete c d f r).progErr = true) ∧ (r.wrpErr = true → (complete c d f r).wrpErr = true) := by
  cases f with
  | prog o ws =>
    simp only [complete, endOperation, completeProg]
    split
    · simp
    · split <;> simp
  | erasePage p =>
    simp only [complete, endOperation, completeErasePage]
    split <;> simp
  | eraseAll =>
    simp only [complete, endOperation, completeEraseAll]
    split <;> simp

/-- Only a programming operation sets PROGERR (43_native_access R165). -/
theorem complete_erase_progErr {c : Config} {d : Nat} {f : Operation} {r : Regs} (hf : ∀ o ws, f ≠ .prog o ws) :
    (complete c d f r).progErr = r.progErr := by
  cases f with
  | prog o ws => exact absurd rfl (hf o ws)
  | erasePage p => simp only [complete, endOperation, completeErasePage]; split <;> rfl
  | eraseAll => simp only [complete, endOperation, completeEraseAll]; split <;> rfl

/-- Settles O56: agent by agent. -/
theorem errorFlagsAreSticky : Obligations.ErrorFlagsAreSticky := by
  intro s t h hnr
  obtain hsame | ⟨-, hnext⟩ | ⟨hg, f, hf, hdone⟩ | ⟨hg, -⟩ | ⟨-, -, hrel⟩ := step_regs_cases h
  · rw [hsame]; exact ⟨id, id, fun h0 h1 => by simp [h0] at h1⟩
  · rw [hnext.progErr]; exact ⟨id, hnext.wrpErr, fun h0 h1 => by simp [h0] at h1⟩
  · obtain ⟨hprog, hwrp⟩ := complete_sticky s.cfg s.draws f s.regs
    rw [hdone]
    refine ⟨hprog, hwrp, fun h0 h1 => ⟨hg, ?_⟩⟩
    by_contra hno
    rw [complete_erase_progErr fun o ws hfo => hno ⟨o, ws, hfo ▸ hf⟩, h0] at h1
    cases h1
  · exact absurd hg hnr
  · rw [hrel]; exact ⟨id, id, fun h0 h1 => by simp [h0] at h1⟩

/-- Settles O57: agent by agent. -/
theorem busyRisesAndFallsByRule : Obligations.BusyRisesAndFallsByRule := by
  intro s t h
  obtain hsame | ⟨hg, hnext⟩ | ⟨hg, f, hf, hdone⟩ | ⟨hg, hreset⟩ | ⟨-, -, hrel⟩ := step_regs_cases h
  · rw [hsame]; simp_all
  · obtain hb | ⟨hb, hin⟩ := hnext.busy
    · rw [hb]; simp_all
    · exact ⟨fun _ _ => ⟨hg, hin⟩, fun _ h0 => by simp [hb] at h0⟩
  · rw [hdone, complete_frame]
    exact ⟨nofun, fun _ _ => .inl hg⟩
  · rw [hreset]
    exact ⟨nofun, fun _ _ => .inr hg⟩
  · rw [hrel]; simp_all

end Sys2Proof.Machine

/-! PROOF. The invariant of the block, phase by phase: what `State.Inv` says of the engine, of the key checker and of
the control bits in each phase, and that HOST's acceptance and the engine's own update keep what it says of the engine
(spec 10_state section 9, 44_buffered_access R190). -/

namespace Sys2Proof.Machine

/-! ### The engine's operands and counters, phase by phase -/

/-- Checks K4 and K7 of an accepted native access, on the engine's registers. -/
def UnitArgs (c : Config) (e : Engine) : Prop := addressAligned c e.a = true ∧ inFlash c e.a c.nu = true

/-- Checks K4, K5 and K7 of an accepted buffered access, on the engine's registers. -/
def RangeArgs (c : Config) (e : Engine) : Prop :=
  addressAligned c e.a = true ∧ lengthAligned c e.n = true ∧ inFlash c e.a e.n.toNat = true

/-- The operands of the native write sequence: a stride of WRITE, or WRITE_NATIVE's one unit. -/
def WriteArgs (c : Config) (e : Engine) : Prop :=
  (e.op = writeOpcode ∧ RangeArgs c e ∧ e.pay.length = e.n.toNat ∧ e.i < e.n.toNat / c.nu) ∨
    (e.op = 0x06#8 ∧ UnitArgs c e ∧ e.pay.length = c.nu ∧ e.i = 0)

theorem unitOk_iff {s : State} : UnitOk s ↔ UnitArgs s.cfg s.eng :=
  ⟨fun h => ⟨h.aligned, h.inside⟩, fun h => ⟨h.1, h.2⟩⟩

theorem rangeOk_iff {s : State} : RangeOk s ↔ RangeArgs s.cfg s.eng :=
  ⟨fun h => ⟨h.aligned, h.length, h.inside⟩, fun h => ⟨h.1, h.2.1, h.2.2⟩⟩

/-- What `EngineInv` says in one phase. -/
def EngineOk (c : Config) (e : Engine) : Phase → Prop
  | .rn0 => UnitArgs c e ∧ e.j < unitWords c
  | .rd0 => RangeArgs c e ∧ e.i ≤ e.n.toNat / c.nu ∧ e.j < unitWords c ∧ (e.i = e.n.toNat / c.nu → e.j = 0)
  | .wr0 =>
    (e.op = writeOpcode ∧ RangeArgs c e ∧ e.pay.length = e.n.toNat ∧ e.i ≤ e.n.toNat / c.nu) ∧ e.guard.isHeld = true
  | .wn0 | .wn1 | .wn4 | .wn5 => WriteArgs c e ∧ e.guard.isHeld = true
  | .wn2 => WriteArgs c e ∧ e.guard.isHeld = true ∧ e.j < unitWords c
  | .wn3 => WriteArgs c e ∧ e.guard.isHeld = true ∧ Affordable c e.polls
  | .ep0 | .ep1 | .ep2 | .ep3 | .ep5 | .ep6 => e.a.toNat < c.pageCount ∧ e.guard.isHeld = true
  | .ep4 => e.a.toNat < c.pageCount ∧ e.guard.isHeld = true ∧ Affordable c e.polls
  | .ea0 | .ea1 | .ea2 | .ea4 | .ea5 | .rl0 => e.guard.isHeld = true
  | .ea3 => e.guard.isHeld = true ∧ Affordable c e.polls
  | .aq0 => e.guard = .none
  | .idle | .aborted | .il0 | .ul0 | .ul1 | .ul2 | .lk0 | .st0 | .aq1 | .aq2 | .aq3 | .ab0 => True

/-- The invariant of the engine is what it says in the phase the engine is in. -/
theorem engineInv_iff {s : State} : EngineInv s ↔ EngineOk s.cfg s.eng s.eng.phase := by
  constructor
  · intro h
    have hrn := h.readNative
    have hrd := h.read
    have hst := h.stride
    have hwr := h.write
    have hsto := h.storing
    have hep := h.erasePage
    have hg := h.guarded
    have haq := h.acquiring
    have hbud : s.eng.phase.isPoll → Affordable s.cfg s.eng.polls := fun hp b hb => h.budget b hb hp
    simp only [rangeOk_iff, unitOk_iff, strides] at hrn hrd hst hwr
    cases hp : s.eng.phase <;>
      simp_all [EngineOk, WriteArgs, Phase.isWrite, Phase.isErasePage, Phase.isEraseAll, Phase.isPoll]
  · intro h
    refine ⟨fun hp => ?_, fun hp => ?_, fun hp => ?_, fun hp => ?_, fun hp => ?_, fun hp => ?_, fun hp => ?_,
      fun hp => ?_, fun b hb hp => ?_⟩
    · rw [hp] at h; exact ⟨unitOk_iff.2 h.1, h.2⟩
    · rw [hp] at h; exact ⟨rangeOk_iff.2 h.1, h.2⟩
    · rw [hp] at h
      obtain ⟨⟨hop, hrange, hlen⟩, -⟩ := h
      exact ⟨hop, rangeOk_iff.2 hrange, hlen⟩
    · have hw : WriteArgs s.cfg s.eng := by
        rcases hp with hp | hp | hp | hp | hp | hp <;> rw [hp] at h <;> exact h.1
      simp only [rangeOk_iff, unitOk_iff, strides]
      exact hw
    · rw [hp] at h; exact h.2.2
    · rcases hp with hp | hp | hp | hp | hp | hp | hp <;> rw [hp] at h <;> exact h.1
    · simp only [Phase.isWrite, Phase.isErasePage, Phase.isEraseAll] at hp
      cases hq : s.eng.phase <;> simp_all [EngineOk]
    · rw [hp] at h; exact h
    · rcases hp with hp | hp | hp <;> rw [hp] at h
      · exact h.2.2 b hb
      · exact h.2.2 b hb
      · exact h.2 b hb

/-! ### The engine's own update keeps the invariant of the engine -/

/-- An answer leaves the engine in `IDLE`, of which the invariant says nothing. -/
theorem engineInv_respond (r : Response) (s : State) : EngineInv (respond r s) := engineInv_iff.2 trivial

/-- One read more that finds BSY = 1 and does not time out is still affordable (41_status R144). -/
theorem affordable_succ {c : Config} {k : Nat} (h : Affordable c k) (hb : c.pollBudget ≠ some (k + 1)) :
    Affordable c (k + 1) := by
  intro b hb'
  have hlt := h b hb'
  have hne : b ≠ k + 1 := fun he => hb (he ▸ hb')
  omega

/-- No read at all is affordable. -/
theorem affordable_zero {c : Config} (hv : c.Valid) : Affordable c 0 := by
  intro b hb
  have hne : b ≠ 0 := fun he => hv.budget_pos (he ▸ hb)
  omega

/-- The end of a native write keeps the invariant: it answers, or goes on to the next stride. -/
theorem engineInv_finishWrite {r : Response} {s : State} (hw : WriteArgs s.cfg s.eng)
    (hg : s.eng.guard.isHeld = true) : EngineInv (finishWrite r s) := by
  by_cases hr : r = .ok
  · subst hr
    rw [finishWrite_ok]
    split
    · rename_i hop
      obtain ⟨-, hrange, hlen, hi⟩ | ⟨hop', -⟩ := hw
      · exact engineInv_iff.2 ⟨⟨hop, hrange, hlen, hi⟩, hg⟩
      · simp [writeOpcode, hop'] at hop
    · exact engineInv_respond _ _
  · rw [finishWrite_error hr]
    exact engineInv_respond _ _

/-- Once the transaction of its phase has completed, the engine's update keeps the invariant of the engine. -/
theorem engineInv_afterTransaction {s : State} (hv : s.cfg.Valid) (h : EngineInv s) :
    EngineInv (afterTransaction s) := by
  have hpos := unitWords_pos hv
  have hok := engineInv_iff.1 h
  cases hp : s.eng.phase <;> rw [hp] at hok
  case idle | aborted => simpa only [afterTransaction, hp] using h
  case il0 | ul2 | lk0 | st0 | aq3 | rl0 | ep6 | ea5 => simp only [afterTransaction, hp]; exact engineInv_respond _ _
  case ul1 | aq2 | ab0 => simp only [afterTransaction, hp]; exact engineInv_iff.2 trivial
  case wn4 | ep1 | ep2 | ep5 | ea1 | ea4 => simp only [afterTransaction, hp]; exact engineInv_iff.2 hok
  case wn1 => simp only [afterTransaction, hp]; exact engineInv_iff.2 ⟨hok.1, hok.2, hpos⟩
  case ep3 => simp only [afterTransaction, hp]; exact engineInv_iff.2 ⟨hok.1, hok.2, affordable_zero hv⟩
  case ea2 => simp only [afterTransaction, hp]; exact engineInv_iff.2 ⟨hok, affordable_zero hv⟩
  case ul0 | aq1 =>
    simp only [afterTransaction, hp]
    obtain ⟨-, hgo⟩ | hend := unlockIfLocked_cases _ s
    · rw [hgo]; exact engineInv_iff.2 trivial
    · rw [hend]; exact engineInv_respond _ _
  case aq0 =>
    simp only [afterTransaction, hp, takeGuard]
    obtain ⟨-, hgo⟩ | hend := unlockIfLocked_cases .aq1 (setGuard (.held (crLock s.cfg s.reply.ret)) s)
    · rw [hgo]; exact engineInv_iff.2 trivial
    · rw [hend]; exact engineInv_respond _ _
  case rn0 =>
    simp only [afterTransaction, hp, readNativeWord]
    split
    · exact engineInv_respond _ _
    · refine engineInv_iff.2 ?_
      obtain ⟨hunit, hj⟩ := hok
      simp only [takeWord_eng, takeWord_cfg, hp]
      exact ⟨hunit, by simp only; omega⟩
  case rd0 =>
    obtain ⟨hrange, hi, hj, hend⟩ := hok
    simp only [afterTransaction, hp, readStep]
    split
    · exact engineInv_respond _ _
    · rename_i hne
      have hlt : s.eng.i < s.eng.n.toNat / s.cfg.nu := Nat.lt_of_le_of_ne hi hne
      split
      · refine engineInv_iff.2 ?_
        simp only [setI_eng, setJ_eng, takeWord_eng, setI_cfg, setJ_cfg, takeWord_cfg, hp]
        exact ⟨hrange, hlt, hpos, fun _ => rfl⟩
      · refine engineInv_iff.2 ?_
        simp only [takeWord_eng, takeWord_cfg, hp]
        exact ⟨hrange, hi, by simp only; omega, fun he => absurd he hne⟩
  case wr0 =>
    obtain ⟨⟨hop, hrange, hlen, hi⟩, hg⟩ := hok
    simp only [afterTransaction, hp, strideStep]
    split
    · exact engineInv_respond _ _
    · exact engineInv_iff.2 ⟨.inl ⟨hop, hrange, hlen, Nat.lt_of_le_of_ne hi ‹_›⟩, hg⟩
  case wn0 =>
    simp only [afterTransaction, hp]
    obtain hgo | ⟨r, -, hend⟩ := precheck_cases finishWrite .wn1 s
    · rw [hgo]; exact engineInv_iff.2 hok
    · rw [hend]; exact engineInv_finishWrite hok.1 hok.2
  case wn2 =>
    obtain ⟨hw, hg, hj⟩ := hok
    simp only [afterTransaction, hp, storedWord]
    split
    · exact engineInv_iff.2 ⟨hw, hg, affordable_zero hv⟩
    · refine engineInv_iff.2 ?_
      simp only [setJ_eng, setJ_cfg, hp]
      exact ⟨hw, hg, by simp only; omega⟩
  case wn3 =>
    obtain ⟨hw, hg, hb⟩ := hok
    simp only [afterTransaction, hp]
    obtain ⟨-, hgo⟩ | ⟨hleft, hcount⟩ | ⟨-, hend⟩ := poll_cases finishWrite .wn4 s
    · rw [hgo]; exact engineInv_iff.2 ⟨hw, hg⟩
    · rw [hcount]
      refine engineInv_iff.2 ?_
      simp only [setPolls_eng, setPolls_cfg, hp]
      exact ⟨hw, hg, affordable_succ hb hleft⟩
    · rw [hend]; exact engineInv_finishWrite (s := setPolls _ s) hw hg
  case wn5 => simp only [afterTransaction, hp]; exact engineInv_finishWrite hok.1 hok.2
  case ep0 | ea0 =>
    simp only [afterTransaction, hp]
    obtain hgo | ⟨r, -, hend⟩ := precheck_cases respond _ s
    · rw [hgo]; exact engineInv_iff.2 hok
    · rw [hend]; exact engineInv_respond _ _
  case ep4 =>
    obtain ⟨ha, hg, hb⟩ := hok
    simp only [afterTransaction, hp]
    obtain ⟨-, hgo⟩ | ⟨hleft, hcount⟩ | ⟨-, hend⟩ := poll_cases respond .ep5 s
    · rw [hgo]; exact engineInv_iff.2 ⟨ha, hg⟩
    · rw [hcount]
      refine engineInv_iff.2 ?_
      simp only [setPolls_eng, setPolls_cfg, hp]
      exact ⟨ha, hg, affordable_succ hb hleft⟩
    · rw [hend]; exact engineInv_respond _ _
  case ea3 =>
    obtain ⟨hg, hb⟩ := hok
    simp only [afterTransaction, hp]
    obtain ⟨-, hgo⟩ | ⟨hleft, hcount⟩ | ⟨-, hend⟩ := poll_cases respond .ea4 s
    · rw [hgo]; exact engineInv_iff.2 hg
    · rw [hcount]
      refine engineInv_iff.2 ?_
      simp only [setPolls_eng, setPolls_cfg, hp]
      exact ⟨hg, affordable_succ hb hleft⟩
    · rw [hend]; exact engineInv_respond _ _

end Sys2Proof.Machine

/-! PROOF. The invariant of the key checker and of the control bits, phase by phase, and what HOST's acceptance keeps
(spec 40_lock_unlock section 2, 41_status R145, 44_buffered_access R190). -/

namespace Sys2Proof.Machine

/-! ### The key checker, phase by phase -/

/-- What `KeyInv` says of the register layer in one phase. -/
def KeyOk (c : Config) (r : Regs) : Phase → Prop
  | .ul1 | .aq2 => r.lock = true ∧ r.kstate ≠ .half
  | .ul2 | .aq3 => r.lock = true ∧ (c.extRelock = false → r.kstate ≠ .idle)
  | _ => r.kstate ≠ .half

theorem keyInv_iff {s : State} : KeyInv s ↔ KeyOk s.cfg s.regs s.eng.phase ∧ s.reply ≠ .stalled := by
  constructor
  · intro h
    refine ⟨?_, h.not_stalled⟩
    have hlock := h.key_locked
    have hhalf := h.half_phase
    have hkept := h.half_kept
    cases hp : s.eng.phase <;> simp_all [KeyOk]
  · rintro ⟨h, hstall⟩
    refine ⟨fun hp => ?_, fun hk => ?_, fun he hp => ?_, hstall⟩
    · rcases hp with hp | hp | hp | hp <;> rw [hp] at h <;> exact h.1
    · cases hp : s.eng.phase <;> simp_all [KeyOk]
    · rcases hp with hp | hp <;> rw [hp] at h <;> exact h.2 he

/-! ### The control bits, phase by phase -/

/-- No operation runs, no control bit is set and the write buffer is empty. -/
structure Quiet (r : Regs) : Prop where
  not_busy : r.bsy = false
  no_pg : r.pg = false
  no_per : r.per = false
  no_mer1 : r.mer1 = false
  buffer_empty : r.wcnt = 0

/-- What the write buffer of an unlocked flash holds at `WN2`: the words of the unit stored so far. -/
def BufferOk (c : Config) (r : Regs) (e : Engine) : Prop :=
  r.lock = false → r.wcnt = e.j ∧ (0 < e.j → r.wbase = e.a.toNat + e.i * c.nu - c.origin)

/-- What `UnboundedInv` says of the register layer in one phase. -/
def UnboundedOk (c : Config) (r : Regs) (e : Engine) : Phase → Prop
  | .wn2 => r.bsy = false ∧ r.pg = true ∧ r.per = false ∧ r.mer1 = false ∧ BufferOk c r e
  | .wn3 => r.per = false ∧ r.mer1 = false
  | .wn4 => r.bsy = false ∧ r.per = false ∧ r.mer1 = false
  | .ep2 => r.bsy = false ∧ r.pg = false ∧ r.per = true ∧ r.mer1 = false ∧ r.wcnt = 0
  | .ep3 => (r.bsy = false ∧ r.pg = false ∧ r.per = true ∧ r.mer1 = false ∧ r.wcnt = 0) ∧ r.pnb = e.a
  | .ep4 => r.pg = false ∧ r.mer1 = false ∧ r.wcnt = 0
  | .ep5 => r.bsy = false ∧ r.pg = false ∧ r.mer1 = false ∧ r.wcnt = 0
  | .ea2 => r.bsy = false ∧ r.pg = false ∧ r.per = false ∧ r.mer1 = true ∧ r.wcnt = 0
  | .ea3 => r.pg = false ∧ r.per = false ∧ r.wcnt = 0
  | .ea4 => r.bsy = false ∧ r.pg = false ∧ r.per = false ∧ r.wcnt = 0
  | _ => Quiet r

theorem quiet_iff {r : Regs} :
    Quiet r ↔ r.bsy = false ∧ r.pg = false ∧ r.per = false ∧ r.mer1 = false ∧ r.wcnt = 0 :=
  ⟨fun ⟨h1, h2, h3, h4, h5⟩ => ⟨h1, h2, h3, h4, h5⟩, fun ⟨h1, h2, h3, h4, h5⟩ => ⟨h1, h2, h3, h4, h5⟩⟩

theorem unboundedInv_iff {s : State} : UnboundedInv s ↔ UnboundedOk s.cfg s.regs s.eng s.eng.phase := by
  constructor
  · rintro ⟨h1, h2, h3, h4, h5, h6, h7, h8, h9⟩
    cases hp : s.eng.phase <;> simp_all [UnboundedOk, quiet_iff, BufferOk, Phase.isPoll]
  · intro h
    constructor <;> cases hp : s.eng.phase <;> simp_all [UnboundedOk, quiet_iff, BufferOk, Phase.isPoll]

end Sys2Proof.Machine

/-! PROOF. HOST, FOP and ENV keep the invariant of the block; so does ENG for the register layer and the engine (spec
10_state, 42_guard R154, 44_buffered_access R190, 70_reset R260). -/

namespace Sys2Proof.Machine

/-- The invariant of the block, part by part and phase by phase. -/
theorem inv_iff {s : State} :
    s.Inv ↔ s.cfg.Valid ∧ RegsInv s.cfg s.regs ∧ EngineInv s ∧
      (KeysApart s.cfg → KeyOk s.cfg s.regs s.eng.phase ∧ s.reply ≠ .stalled) ∧
      (s.cfg.pollBudget = none → UnboundedOk s.cfg s.regs s.eng s.eng.phase) := by
  simp only [← keyInv_iff, ← unboundedInv_iff]
  exact ⟨fun ⟨h1, h2, h3, h4, h5⟩ => ⟨h1, h2, h3, h4, h5⟩, fun ⟨h1, h2, h3, h4, h5⟩ => ⟨h1, h2, h3, h4, h5⟩⟩

/-! ### HOST -/

/-- The labels at which the twelve commands begin. -/
def firstLabels : List Phase := [.il0, .ul0, .lk0, .st0, .aq0, .rl0, .rn0, .wn0, .rd0, .wr0, .ep0, .ea0]

/-- A command presented in `IDLE` is a contract violation, or it is accepted with its checks met. -/
def Decided (s : State) (res : Res) : Prop :=
  ∃ op c, res = .next (violated op c s) ∨
    ∃ p ∈ firstLabels, EngineOk s.cfg (accepted op p c s).eng p ∧ res = .next (accepted op p c s)

/-- What the port decides by a command's checks. -/
theorem decided_present {op : BitVec 8} {c : CmdArgs} {pass : Bool} {p : Phase} {s : State}
    (hidle : s.eng.phase = .idle) (hp : p ∈ firstLabels)
    (hok : pass = true → EngineOk s.cfg (accepted op p c s).eng p) :
    Decided s (present op c pass p s) := by
  cases hpass : pass with
  | false => exact ⟨op, c, .inl (present_violated hidle rfl)⟩
  | true => exact ⟨op, c, .inr ⟨p, hp, hok hpass, present_accepted hidle rfl⟩⟩

/-- Every command's checks are what the invariant asks at its first label (44_buffered_access R190). -/
theorem decided_exec {i : Instr} {s : State} (hv : s.cfg.Valid) (hi : i.format = .cmd) (hidle : s.eng.phase = .idle) :
    Decided s (exec i s) := by
  have hpos := unitWords_pos hv
  cases i with
  | isLocked | unlock | lock | status => exact decided_present hidle (by decide) fun _ => trivial
  | readNative c =>
    refine decided_present hidle (by decide) fun h => ?_
    simp only [Bool.and_eq_true] at h
    exact ⟨h, hpos⟩
  | writeNative c =>
    refine decided_present hidle (by decide) fun h => ?_
    simp only [Bool.and_eq_true] at h
    obtain ⟨⟨⟨hg, ha⟩, hf⟩, hl⟩ := h
    exact ⟨.inr ⟨rfl, ⟨ha, hf⟩, of_decide_eq_true hl, rfl⟩, hg⟩
  | read c =>
    refine decided_present hidle (by decide) fun h => ?_
    simp only [Bool.and_eq_true] at h
    obtain ⟨⟨ha, hn⟩, hf⟩ := h
    exact ⟨⟨ha, hn, hf⟩, Nat.zero_le _, hpos, fun _ => rfl⟩
  | write c =>
    refine decided_present hidle (by decide) fun h => ?_
    simp only [Bool.and_eq_true] at h
    obtain ⟨⟨⟨⟨hg, ha⟩, hn⟩, hf⟩, hl⟩ := h
    exact ⟨⟨rfl, ⟨ha, hn, hf⟩, of_decide_eq_true hl, Nat.zero_le _⟩, hg⟩
  | erasePage c =>
    refine decided_present hidle (by decide) fun h => ?_
    obtain ⟨hg, hp⟩ := Bool.and_eq_true_iff.1 h
    exact ⟨of_decide_eq_true hp, hg⟩
  | eraseAll c => exact decided_present hidle (by decide) id
  | acquire c => exact decided_present hidle (by decide) fun h => isHeld_eq_false.1 ((Bool.not_eq_true' _).mp h)
  | release c => exact decided_present hidle (by decide) id
  | rdCr | modCrLock | modCrPg | modCrPer | modCrMer1 | modCrPnb | modCrStart | rdSr | wrKeyr | ld32 | st32 => cases hi

/-- So is whatever word HOST presents. -/
theorem decided_acceptWord {c : HostCmd} {s : State} (hv : s.cfg.Valid) (hidle : s.eng.phase = .idle) :
    Decided s (acceptWord c s) := by
  obtain ⟨i, hi, hexec⟩ | ⟨-, hviol⟩ := acceptWord_cases c hidle
  · rw [hexec]; exact decided_exec hv (decodeCmd_format hi) hidle
  · exact ⟨_, _, .inl hviol⟩

/-- At a first label the key checker and the control bits are as in `IDLE`. -/
theorem keyOk_first {c : Config} {r : Regs} {p : Phase} (hp : p ∈ firstLabels) (h : r.kstate ≠ .half) :
    KeyOk c r p := by
  simp only [firstLabels, List.mem_cons, List.not_mem_nil, or_false] at hp
  rcases hp with rfl | rfl | rfl | rfl | rfl | rfl | rfl | rfl | rfl | rfl | rfl | rfl <;> exact h

theorem unboundedOk_first {c : Config} {r : Regs} {e : Engine} {p : Phase} (hp : p ∈ firstLabels) (h : Quiet r) :
    UnboundedOk c r e p := by
  simp only [firstLabels, List.mem_cons, List.not_mem_nil, or_false] at hp
  rcases hp with rfl | rfl | rfl | rfl | rfl | rfl | rfl | rfl | rfl | rfl | rfl | rfl <;> exact h

/-- Presenting a word keeps the invariant of the block. -/
theorem inv_decided {s t : State} (h : s.Inv) (hidle : s.eng.phase = .idle) (hd : Decided s (.next t)) : t.Inv := by
  obtain ⟨hv, hregs, -, hkeys, hunb⟩ := inv_iff.1 h
  rw [hidle] at hkeys hunb
  obtain ⟨op, c, ht | ⟨p, hp, hok, ht⟩⟩ := hd <;> cases ht
  · exact inv_iff.2 ⟨hv, hregs, engineInv_iff.2 trivial, fun ha => ⟨(hkeys ha).1, nofun⟩, hunb⟩
  · exact inv_iff.2 ⟨hv, hregs, engineInv_iff.2 hok, fun ha => ⟨keyOk_first hp (hkeys ha).1, nofun⟩,
      fun hn => unboundedOk_first hp (hunb hn)⟩

/-- A change of the queue, the schedule or the draws is none of the invariant's business. -/
theorem Inv.congr {s t : State} (h : s.Inv) (hcfg : t.cfg = s.cfg) (hregs : t.regs = s.regs) (heng : t.eng = s.eng)
    (hreply : t.reply = s.reply) : t.Inv := by
  rw [inv_iff, engineInv_iff, hcfg, hregs, heng, hreply, ← engineInv_iff]
  exact inv_iff.1 h

/-- The turn of HOST keeps the invariant of the block. -/
theorem inv_hostStep {s t : State} (h : s.Inv) (hstep : hostStep s = .next t) : t.Inv := by
  obtain rfl | ⟨hidle, c, rest, -, haccept⟩ := hostStep_next hstep
  · exact h
  · have hs : State.Inv { s with cmds := rest } := Inv.congr h rfl rfl rfl rfl
    exact inv_decided hs hidle (haccept ▸ decided_acceptWord hs.cfg hidle)

/-! ### FOP and ENV -/

/-- Completing an operation leaves the lock, the key checker, the control bits and the write buffer alone. -/
theorem keyOk_complete {c : Config} {d : Nat} {f : Operation} {r : Regs} {p : Phase} (h : KeyOk c r p) :
    KeyOk c (complete c d f r) p := by
  rw [complete_frame]
  exact h

theorem unboundedOk_complete {c : Config} {d : Nat} {f : Operation} {r : Regs} {e : Engine} {p : Phase}
    (h : UnboundedOk c r e p) : UnboundedOk c (complete c d f r) e p := by
  rw [complete_frame]
  cases p <;> simp_all [UnboundedOk, quiet_iff, BufferOk]

/-- The turn of FOP keeps the invariant of the block. -/
theorem inv_fopStep {s : State} (h : s.Inv) : (fopStep s).Inv := by
  obtain ⟨hv, hregs, heng, hkeys, hunb⟩ := inv_iff.1 h
  have hok := engineInv_iff.1 heng
  cases hf : s.regs.inflight with
  | none => rwa [fopStep_none hf]
  | some f =>
    rw [fopStep_some hf]
    exact inv_iff.2 ⟨hv, regs_complete hv _ (hregs.inflight_ok f hf) hregs, engineInv_iff.2 hok,
      fun ha => ⟨keyOk_complete (hkeys ha).1, (hkeys ha).2⟩, fun hn => unboundedOk_complete (hunb hn)⟩

/-- Re-locking from outside leaves a half-entered key nowhere; where it can happen, that is no harm to the key writes.
-/
theorem keyOk_relock {c : Config} {r : Regs} {p : Phase} (he : c.extRelock = true) (h : KeyOk c r p) :
    KeyOk c (relock r) p := by
  have hhalf := relock_not_half r
  cases p <;> simp_all [KeyOk]

theorem unboundedOk_relock {c : Config} {r : Regs} {e : Engine} {p : Phase} (h : UnboundedOk c r e p) :
    UnboundedOk c (relock r) e p := by
  cases p <;> simp_all [UnboundedOk, quiet_iff, BufferOk]

/-- The move `ExtRelock` keeps the invariant of the block. -/
theorem inv_extRelockMove {s : State} (h : s.Inv) : (extRelockMove s).Inv := by
  obtain ⟨hv, hregs, heng, hkeys, hunb⟩ := inv_iff.1 h
  have hok := engineInv_iff.1 heng
  unfold extRelockMove
  split
  · exact inv_iff.2 ⟨hv, regs_relock hregs, engineInv_iff.2 hok,
      fun ha => ⟨keyOk_relock ‹_› (hkeys ha).1, (hkeys ha).2⟩, fun hn => unboundedOk_relock (hunb hn)⟩
  · exact h

/-- The state after a reset meets the invariant of the block. -/
theorem inv_resetOf {c : Config} {arr : Memory} (hv : c.Valid) (hwf : Memory.wf arr = true)
    (hin : ∀ cell ∈ arr, cell.1 < c.flashBytes) : (State.resetOf c arr).Inv :=
  inv_iff.2 ⟨hv, regs_reset hv hwf hin, engineInv_iff.2 trivial, fun _ => ⟨nofun, nofun⟩,
    fun _ => ⟨rfl, rfl, rfl, rfl, rfl⟩⟩

/-- The array `Reset` leaves is in canonical form and lists nothing past its end. -/
theorem arrAfterReset_ok {s : State} (h : RegsInv s.cfg s.regs) :
    Memory.wf (arrAfterReset s) = true ∧ ∀ cell ∈ arrAfterReset s, cell.1 < s.cfg.flashBytes := by
  unfold arrAfterReset
  cases hf : s.regs.inflight with
  | none => exact ⟨h.arr_wf, h.arr_range⟩
  | some f =>
    refine ⟨wf_scramble _ _ _ h.arr_wf, fun cell hc => ?_⟩
    obtain hc | ⟨-, hlt⟩ := mem_scramble hc
    · exact h.arr_range cell hc
    · exact Nat.lt_of_lt_of_le hlt (lost_ok (h.inflight_ok f hf))

/-- The move `Reset` keeps the invariant of the block. -/
theorem inv_resetMove {s : State} (h : s.Inv) : (resetMove s).Inv := by
  obtain ⟨hwf, hin⟩ := arrAfterReset_ok h.regs
  exact Inv.congr (inv_resetOf h.cfg hwf hin) rfl rfl rfl rfl

/-- Settles O1: the reset state is written out. -/
theorem resetLeavesTheGivenValues : Obligations.ResetLeavesTheGivenValues := by
  refine ⟨?_, rfl⟩
  rintro c arr _ rfl
  exact ⟨rfl, rfl, rfl, rfl, rfl, rfl, rfl, rfl, rfl, rfl, rfl, rfl, rfl, rfl, rfl, rfl⟩

/-- REF meets the constraints of the parameters. -/
theorem ref_meetsTheConstraints : Config.ref.Valid := by constructor <;> decide

/-- Settles O2: the reset state, at any valid parameters and at REF. -/
theorem resetMeetsTheInvariant : Obligations.ResetMeetsTheInvariant :=
  ⟨fun _ _ => inv_resetOf, inv_resetOf ref_meetsTheConstraints rfl nofun⟩

/-- Settles O3: the reset state of whatever array the operation in flight leaves, every byte outside its target kept. -/
theorem resetMoveAbandonsTheCommand : Obligations.ResetMoveAbandonsTheCommand := by
  intro s hg hwf
  have hstep : step s = .next (resetMove (popTurn s)) := step_turn hg
  have hread : ∀ f, s.regs.inflight = some f → ∀ m,
      ¬((lostRange s.cfg f).1 ≤ m ∧ m < (lostRange s.cfg f).1 + (lostRange s.cfg f).2) →
        Memory.read (arrAfterReset s) m = Memory.read s.regs.arr m := by
    intro f hf m hm
    simp only [arrAfterReset, hf]
    rw [read_scramble _ _ _ _ hwf, if_neg hm]
  refine ⟨_, arrAfterReset s, hstep, rfl, ?_, fun hnone => ?_, fun o ws hf => hread _ hf, fun p hf => hread _ hf,
    fun hf m hm => hread _ hf m ?_⟩
  · unfold arrAfterReset
    split
    · exact hwf
    · exact wf_scramble _ _ _ hwf
  · simp only [arrAfterReset, hnone]
  · simp only [lostRange]; omega

end Sys2Proof.Machine

/-! PROOF. The bus transactions, row by row: the lock and the key register (spec 40_lock_unlock section 1), loads and
stores (43_native_access section 1) and the erase controls (45_erase section 1). -/

namespace Sys2Proof.Machine

/-! ### The lock and the key register -/

/-- Re-locking written out: LOCK set and a half-entered key forgotten (40_lock_unlock R121). -/
theorem relock_eq (r : Regs) :
    relock r = { r with lock := true, kstate := if r.kstate = .half then .idle else r.kstate } := by
  unfold relock
  cases r.kstate <;> rfl

/-- Re-locking twice is re-locking once. -/
@[simp] theorem relock_relock (r : Regs) : relock (relock r) = relock r := by
  unfold relock
  cases r.kstate <;> rfl

/-- `MOD_CR(LOCK, v)` with a written 1 (40_lock_unlock R121). -/
theorem execModCrLock_one {v : Word} (h : fieldBit v = true) (s : State) :
    execModCrLock v s = .next (wrote (relock s.regs) s) := by
  simp [execModCrLock, h]

/-- Settles O16: a written 1 re-locks, and re-locking is idempotent. -/
theorem lockFieldOnlyLocks : Obligations.LockFieldOnlyLocks := by
  refine fun s v => ⟨fun hb => ⟨_, rfl, ?_, ?_⟩, fun hb => ?_⟩
  · rw [← relock_eq]
    exact execModCrLock_one hb s
  · rw [← relock_eq]
    exact (execModCrLock_one hb _).trans (by simp only [relock_relock]; rfl)
  · have hv : fieldBit v = false := hb
    change execModCrLock v s = _
    rw [execModCrLock, hv]
    rfl

/-- Where a wrong key value leaves the checker (40_lock_unlock R126). -/
theorem mismatchState_eq (c : Config) : mismatchState c = if c.keyMismatch = .lockout then .dead else .idle := by
  unfold mismatchState
  cases c.keyMismatch <;> rfl

/-- A key value out of place (40_lock_unlock R126). -/
theorem keyWrite_wrong {c : Config} {v : Word} {r : Regs}
    (h : r.kstate = .idle ∧ v ≠ c.key1 ∨ r.kstate = .half ∧ v ≠ c.key2) :
    keyWrite c v r = { r with kstate := mismatchState c } := by
  rcases h with ⟨hk, hv⟩ | ⟨hk, hv⟩ <;> simp [keyWrite, hk, hv]

/-- A dead checker ignores every value (40_lock_unlock R127). -/
theorem keyWrite_dead {c : Config} {v : Word} {r : Regs} (h : r.kstate = .dead) : keyWrite c v r = r := by
  simp [keyWrite, h]

/-- Settles O19: the key checker on a value out of place, and dead. -/
theorem wrongKeyLeavesItLocked : Obligations.WrongKeyLeavesItLocked := by
  refine fun s x v hl => ⟨fun hwrong => ?_, fun hdead => ?_⟩
  · rw [← mismatchState_eq, ← keyWrite_wrong hwrong]
    exact execWrKeyr_locked (x := x) hl
  · have hexec := execWrKeyr_locked (x := x) (v := v) hl
    rw [keyWrite_dead hdead] at hexec
    exact hexec

/-- A key write on an unlocked flash never completes (40_lock_unlock R123). -/
theorem execWrKeyr_unlocked {x v : Word} {s : State} (h : s.regs.lock = false) :
    execWrKeyr x v s = .next (stalls s) := by
  simp [execWrKeyr, h]

/-! ### Loads -/

/-- The address of a word of the array (20_memory R64, R67). -/
theorem busAddressOk_iff {c : Config} {x : Word} :
    busAddressOk c x = true ↔ x.toNat % 4 = 0 ∧ c.origin ≤ x.toNat ∧ x.toNat + 4 ≤ c.origin + c.flashBytes := by
  simp [busAddressOk, inFlash]

/-- Settles O33: on a word of the array by BSY, off one refused. -/
theorem loadReturnsTheArrayWord : Obligations.LoadReturnsTheArrayWord := by
  rintro s x v o rfl
  refine ⟨fun hx => ⟨fun hb => execLd32_busy (v := v) (busAddressOk_iff.2 hx) hb, fun hb =>
    ⟨_, execLd32_ready (v := v) (busAddressOk_iff.2 hx) hb, fun he => ?_, fun he => ?_⟩⟩, fun hx => ?_⟩
  · rw [loadWord, he]; rfl
  · rw [loadWord, he]; rfl
  · change execLd32 x v s = _
    rw [execLd32, if_neg (mt busAddressOk_iff.1 hx)]

/-! ### Stores -/

/-- The store of a unit's last word starts the operation (43_native_access R163). -/
theorem acceptStore_last {c : Config} {o : Nat} {v : Word} {r : Regs} (h : wordIndex c o + 1 = unitWords c) :
    acceptStore c o v r = startProgram c (bufferWord (unitOf c o) (wordIndex c o) v r) := if_pos h

/-- The store of any other word is counted (43_native_access R162). -/
theorem acceptStore_more {c : Config} {o : Nat} {v : Word} {r : Regs} (h : wordIndex c o + 1 ≠ unitWords c) :
    acceptStore c o v r = { bufferWord (unitOf c o) (wordIndex c o) v r with wcnt := r.wcnt + 1 } := if_neg h

/-- The next word of the buffer's unit (43_native_access R161). -/
theorem storeInOrder_iff {c : Config} {r : Regs} {o : Nat} :
    storeInOrder c r o = true ↔ wordIndex c o = r.wcnt ∧ (r.wcnt = 0 ∨ unitOf c o = r.wbase) := by
  simp [storeInOrder]

/-- A word in order belongs to the unit the buffer then names. -/
theorem bufferWord_inOrder {u k : Nat} {v : Word} {r : Regs} (h : r.wcnt = 0 ∨ u = r.wbase) :
    bufferWord u k v r = { r with wbuf := r.wbuf.set k v, wbase := u } := by
  unfold bufferWord
  by_cases h0 : r.wcnt = 0
  · rw [if_pos h0]
  · rw [if_neg h0, ← h.resolve_left h0]

/-- Settles O35: locked, the word is refused with WRPERR; in order, the write buffer takes it. -/
theorem storeFillsTheWriteBuffer : Obligations.StoreFillsTheWriteBuffer := by
  rintro s x v o k hv hregs rfl rfl h4 hlo hhi hb
  have hx : busAddressOk s.cfg x = true := busAddressOk_iff.2 ⟨h4, hlo, hhi⟩
  refine ⟨fun hl => execSt32_locked (v := v) hx hb hl, fun hl hpg hper hmer hk hbase => ?_⟩
  have hexec := execSt32_accepted (v := v) hx hb hl hpg hper hmer (storeInOrder_iff.2 ⟨hk, hbase⟩)
  have hbuf : bufferWord (unitOf s.cfg (offsetOf s.cfg x)) (wordIndex s.cfg (offsetOf s.cfg x)) v s.regs = _ :=
    bufferWord_inOrder hbase
  refine ⟨fun hmore => ?_, fun hlast => ?_⟩
  · rw [acceptStore_more (o := offsetOf s.cfg x) (ne_of_lt hmore), hbuf] at hexec
    exact hexec
  · rw [acceptStore_last (o := offsetOf s.cfg x) hlast, hbuf] at hexec
    have htake : (s.regs.wbuf.set (wordIndex s.cfg (offsetOf s.cfg x)) v).take (unitWords s.cfg) =
        s.regs.wbuf.set (wordIndex s.cfg (offsetOf s.cfg x)) v :=
      List.take_of_length_le (by simp [hregs.wbuf_words])
    simp only [startProgram, startOperation, htake] at hexec
    exact hexec

/-- Settles O36: check by check of the store, in the model's order. -/
theorem storeIsRefusedWhereUndefined : Obligations.StoreIsRefusedWhereUndefined := by
  rintro s x v o rfl
  refine ⟨fun hx => ?_, fun hx => ⟨fun hb => ?_, fun hb hl => ⟨fun hoff => ?_, fun hon hbad => ?_⟩⟩⟩ <;>
    change execSt32 x v s = _
  · have hno : busAddressOk s.cfg x = false := Bool.eq_false_iff.2 (mt busAddressOk_iff.1 hx)
    simp [execSt32, hno]
  · simp [execSt32, busAddressOk_iff.2 hx, hb]
  · rcases hoff with h | h | h <;> simp [execSt32, busAddressOk_iff.2 hx, hb, hl, h]
  · obtain ⟨hpg, hper, hmer⟩ := hon
    have hno : storeInOrder s.cfg s.regs (offsetOf s.cfg x) = false := by
      refine Bool.eq_false_iff.2 fun hin => ?_
      obtain ⟨hk, hbase⟩ := storeInOrder_iff.1 hin
      obtain hne | ⟨hpos, hne⟩ := hbad
      · exact hne hk
      · exact hbase.elim (by omega) hne
    simp [execSt32, busAddressOk_iff.2 hx, hb, hl, hpg, hper, hmer, hno]

/-! ### The control fields -/

/-- `MOD_CR(PG, v)` while BSY is 0 (43_native_access R166). -/
theorem execModCrPg_ready {v : Word} {s : State} (hb : s.regs.bsy = false) :
    execModCrPg v s =
      .next (wrote { s.regs with pg := fieldBit v, wcnt := if fieldBit v then s.regs.wcnt else 0 } s) := by
  simp [execModCrPg, hb]

/-- A control field written while BSY is 0 (45_erase R200 to R202). -/
theorem writeControl_ready {r : Regs} {s : State} (hb : s.regs.bsy = false) : writeControl r s = .next (wrote r s) := by
  simp [writeControl, hb]

/-- A control field written while BSY is 1 (93 U5). -/
theorem writeControl_busy {r : Regs} {s : State} (hb : s.regs.bsy = true) :
    writeControl r s = .refused .controlWhileBusy := by
  simp [writeControl, hb]

/-- Settles O34: by BSY. -/
theorem programEnableIsWritten : Obligations.ProgramEnableIsWritten := by
  refine fun s v => ⟨fun hb => execModCrPg_ready hb, fun hb => ?_⟩
  change execModCrPg v s = _
  simp [execModCrPg, hb]

/-- `V[PNB_WIDTH-1:0]` as a number (30_encoding R98). -/
theorem toNat_pnbField (c : Config) (v : Word) : (pnbField c v).toNat = v.toNat % 2 ^ c.pnbWidth := by
  rw [pnbField, BitVec.toNat_ofNat, Nat.mod_eq_of_lt]
  exact Nat.lt_of_le_of_lt (Nat.mod_le _ _) v.isLt

/-- Settles O46: field by field, by BSY. -/
theorem eraseControlsAreWritten : Obligations.EraseControlsAreWritten := by
  refine fun s v => ⟨fun hb => ?_, fun hb => ?_⟩
  · exact ⟨writeControl_ready hb, writeControl_ready hb, _, writeControl_ready hb, toNat_pnbField s.cfg v⟩
  · exact ⟨writeControl_busy hb, writeControl_busy hb, writeControl_busy hb⟩

/-! ### START -/

section Start

variable {v : Word} {s : State}

/-- START on a locked flash (45_erase R205). -/
theorem execModCrStart_locked (hv : fieldBit v = true) (hb : s.regs.bsy = false) (hl : s.regs.lock = true) :
    execModCrStart v s = .next (wrote { s.regs with wrpErr := true } s) := by
  simp [execModCrStart, hv, hb, hl]

/-- START of an armed page erase (45_erase R203). -/
theorem execModCrStart_page (hv : fieldBit v = true) (hb : s.regs.bsy = false) (hl : s.regs.lock = false)
    (hpg : s.regs.pg = false) (hper : s.regs.per = true) (hmer : s.regs.mer1 = false)
    (hp : s.regs.pnb.toNat < s.cfg.pageCount) :
    execModCrStart v s = .next (wrote (startOperation (.erasePage s.regs.pnb.toNat) s.regs) s) := by
  simp [execModCrStart, hv, hb, hl, hpg, hper, hmer, pageInRange, hp]

/-- START of an armed mass erase (45_erase R204). -/
theorem execModCrStart_all (hv : fieldBit v = true) (hb : s.regs.bsy = false) (hl : s.regs.lock = false)
    (hpg : s.regs.pg = false) (hper : s.regs.per = false) (hmer : s.regs.mer1 = true) :
    execModCrStart v s = .next (wrote (startOperation .eraseAll s.regs) s) := by
  simp [execModCrStart, hv, hb, hl, hpg, hper, hmer]

end Start

/-- Settles O47: nothing for a written 0; for a 1 by the lock and by what is armed. -/
theorem startTriggersWhatIsArmed : Obligations.StartTriggersWhatIsArmed := by
  refine fun s v => ⟨fun h0 => ?_, fun h1 hb => ⟨fun hl => execModCrStart_locked h1 hb hl, fun hl hpg =>
    ⟨fun hper hmer hp => execModCrStart_page h1 hb hl hpg hper hmer hp,
      fun hmer hper => execModCrStart_all h1 hb hl hpg hper hmer⟩⟩⟩
  have hv : fieldBit v = false := h0
  change execModCrStart v s = _
  rw [execModCrStart, hv]
  rfl

/-- Settles O48: check by check, in the model's order. -/
theorem startIsRefusedWhereUndefined : Obligations.StartIsRefusedWhereUndefined := by
  intro s v h1
  have hv : fieldBit v = true := h1
  refine ⟨fun hb => ?_, fun hb hl => ⟨fun hoff => ?_, fun hpg hper hmer hp => ?_⟩⟩ <;> change execModCrStart v s = _
  · simp [execModCrStart, hv, hb]
  · rcases hoff with hpg | heq
    · simp [execModCrStart, hv, hb, hl, hpg]
    · cases hmer : s.regs.mer1 <;> simp [execModCrStart, hv, hb, hl, heq, hmer]
  · simp [execModCrStart, hv, hb, hl, hpg, hper, hmer, pageInRange, Nat.not_lt.2 hp]

end Sys2Proof.Machine

/-! PROOF. ENG keeps the invariant of the block, and with an unbounded poll none of its transactions is refused (spec
40_lock_unlock R129, 41_status R145, 60_exceptions R239, 93 U2 to U8, U11). -/

namespace Sys2Proof.Machine

/-! ### One step of the engine -/

section EngineStep

variable {s : State}

/-- A turn of ENG whose transaction completes is the phase's update after it (10_state R40). -/
theorem engStep_completes {i : Instr} {u : State} (hr : s.reply ≠ .stalled) (hfit : addressFits s = true)
    (hi : transaction s = some i) (hu : exec i s = .next u) (hpend : u.reply.pending = false) :
    engStep s = .next (afterTransaction u) := by
  rw [engStep_exec hr hfit hi hu, advance_completed hpend]

/-- Only loads and stores have an address that could be too large. -/
theorem addressFits_of_phase (h : s.eng.phase ≠ .rn0 ∧ s.eng.phase ≠ .wn2 ∧ s.eng.phase ≠ .rd0) :
    addressFits s = true := by
  unfold addressFits
  split <;> simp_all

/-- `UL0` and `AQ1` read CR (40_lock_unlock R129, 42_guard R151). -/
theorem engStep_readLock {p : Phase} (hr : s.reply ≠ .stalled)
    (hp : s.eng.phase = .ul0 ∧ p = .ul1 ∨ s.eng.phase = .aq1 ∧ p = .aq2) :
    engStep s = .next (unlockIfLocked p (returned (crWord s.cfg s.regs) s)) := by
  rcases hp with ⟨hp, rfl⟩ | ⟨hp, rfl⟩ <;>
    rw [engStep_completes (i := .rdCr 0#32 0#32) hr (addressFits_of_phase (by simp [hp]))
      (by simp only [transaction, hp]) rfl rfl] <;>
    simp only [afterTransaction, returned_eng, hp]

/-- `AQ0` reads CR and takes the guard (42_guard R151). -/
theorem engStep_takeGuard (hr : s.reply ≠ .stalled) (hp : s.eng.phase = .aq0) :
    engStep s = .next (takeGuard (returned (crWord s.cfg s.regs) s)) := by
  rw [engStep_completes (i := .rdCr 0#32 0#32) hr (addressFits_of_phase (by simp [hp]))
    (by simp only [transaction, hp]) rfl rfl]
  simp only [afterTransaction, returned_eng, hp]

/-- `UL1` and `AQ2` write the first key. -/
theorem engStep_firstKey {p : Phase} (hr : s.reply ≠ .stalled) (hl : s.regs.lock = true)
    (hp : s.eng.phase = .ul1 ∧ p = .ul2 ∨ s.eng.phase = .aq2 ∧ p = .aq3) :
    engStep s = .next (goto p (wrote (keyWrite s.cfg s.cfg.key1 s.regs) s)) := by
  rcases hp with ⟨hp, rfl⟩ | ⟨hp, rfl⟩ <;>
    rw [engStep_completes (i := .wrKeyr 0#32 s.cfg.key1) hr (addressFits_of_phase (by simp [hp]))
      (by simp only [transaction, hp]) (execWrKeyr_locked (x := 0#32) hl) rfl] <;>
    simp only [afterTransaction, wrote_eng, hp]

/-- `UL2` and `AQ3` write the second key and answer. -/
theorem engStep_secondKey (hr : s.reply ≠ .stalled) (hl : s.regs.lock = true)
    (hp : s.eng.phase = .ul2 ∨ s.eng.phase = .aq3) :
    engStep s = .next (respond .ok (wrote (keyWrite s.cfg s.cfg.key2 s.regs) s)) := by
  rcases hp with hp | hp <;>
    rw [engStep_completes (i := .wrKeyr 0#32 s.cfg.key2) hr (addressFits_of_phase (by simp [hp]))
      (by simp only [transaction, hp]) (execWrKeyr_locked (x := 0#32) hl) rfl] <;>
    simp only [afterTransaction, wrote_eng, hp]

/-- With LOCK read as 1 the engine goes on to the key writes. -/
theorem unlockIfLocked_locked (hv : s.cfg.Valid) (hw : s.regs.pnb.toNat < 2 ^ s.cfg.pnbWidth)
    (hret : s.reply = .data (crWord s.cfg s.regs)) (hl : s.regs.lock = true) (p : Phase) :
    unlockIfLocked p s = goto p s := by
  rw [unlockIfLocked, hret, ret_data, crLock_crWord hv hw, hl, if_pos rfl]

/-- With LOCK read as 0 it answers. -/
theorem unlockIfLocked_unlocked (hv : s.cfg.Valid) (hw : s.regs.pnb.toNat < 2 ^ s.cfg.pnbWidth)
    (hret : s.reply = .data (crWord s.cfg s.regs)) (hl : s.regs.lock = false) (p : Phase) :
    unlockIfLocked p s = respond .ok s := by
  rw [unlockIfLocked, hret, ret_data, crLock_crWord hv hw, hl, if_neg Bool.false_ne_true]

end EngineStep

/-! ### The key checker -/

/-- What a transaction other than a key write can do to the key checker: forget a half-entered key. -/
theorem exec_keeps_kstate {i : Instr} {s t : State} (hi : i.format = .bus) (hk : ∀ x v, i ≠ .wrKeyr x v)
    (h : exec i s = .next t) :
    (t.regs.kstate = s.regs.kstate ∨ t.regs.kstate ≠ .half) ∧ t.reply ≠ .stalled := by
  cases i with
  | isLocked | unlock | lock | status | readNative | writeNative | read | write | erasePage | eraseAll | acquire
  | release => cases hi
  | rdCr | rdSr => cases h; exact ⟨.inl rfl, nofun⟩
  | modCrLock =>
    obtain rfl | rfl := execModCrLock_next h
    · exact ⟨.inr (relock_not_half _), nofun⟩
    · exact ⟨.inl rfl, nofun⟩
  | modCrPg => obtain ⟨-, rfl⟩ := execModCrPg_next h; exact ⟨.inl rfl, nofun⟩
  | modCrPer | modCrMer1 | modCrPnb => obtain ⟨-, rfl⟩ := writeControl_next h; exact ⟨.inl rfl, nofun⟩
  | modCrStart => obtain rfl | rfl | ⟨f, rfl⟩ := execModCrStart_next h <;> exact ⟨.inl rfl, nofun⟩
  | wrKeyr x v => exact absurd rfl (hk x v)
  | ld32 x v => obtain ⟨-, rfl⟩ | ⟨-, w, rfl⟩ := execLd32_next (x := x) (v := v) h <;> exact ⟨.inl rfl, nofun⟩
  | st32 =>
    obtain ⟨-, -, ⟨-, rfl⟩ | ⟨-, -, -, -, -, rfl⟩⟩ := execSt32_next h
    · exact ⟨.inl rfl, nofun⟩
    · exact ⟨.inl (by rw [wrote_regs, acceptStore_frame]), nofun⟩

/-- The phases of the key protocol: a key is written, or about to be (40_lock_unlock R129, 42_guard R151). -/
def keyPhases : List Phase := [.ul0, .ul1, .ul2, .aq0, .aq1, .aq2, .aq3]

/-- The engine writes a key in the key protocol alone. -/
theorem transaction_wrKeyr {s : State} {x v : Word} (h : transaction s = some (.wrKeyr x v)) :
    s.eng.phase ∈ keyPhases := by
  unfold transaction at h
  split at h <;> simp_all [keyPhases, relockTransaction]
  all_goals split at h <;> simp_all

/-- The key protocol is entered by acceptance alone. -/
theorem follows_not_keyPhase {p : Phase} (hp : p ∉ keyPhases) : ∀ q ∈ p.follows, q ∉ keyPhases := by
  cases p
  case ul0 | ul1 | ul2 | aq0 | aq1 | aq2 | aq3 => simp [keyPhases] at hp
  all_goals decide

/-- Outside the key protocol the invariant asks that no half-entered key is left. -/
theorem keyOk_outside {c : Config} {r : Regs} {p : Phase} (hp : p ∉ keyPhases) : KeyOk c r p ↔ r.kstate ≠ .half := by
  cases p <;> simp_all [keyPhases, KeyOk]

/-- The first key on a locked flash half-enters the sequence or finds a dead checker; LOCK stays (R124, R127). -/
theorem keyWrite_first_ok {c : Config} {r : Regs} (hl : r.lock = true) (hk : r.kstate ≠ .half) :
    (keyWrite c c.key1 r).lock = true ∧ (keyWrite c c.key1 r).kstate ≠ .idle := by
  cases hks : r.kstate with
  | idle => rw [keyWrite_first hks]; exact ⟨hl, nofun⟩
  | half => exact absurd hks hk
  | dead => rw [keyWrite_dead hks, hks]; exact ⟨hl, nofun⟩

/-- The second key leaves no half-entered sequence: where the first may have been forgotten, the keys differ. -/
theorem keyWrite_second_ok {c : Config} {r : Regs} (ha : KeysApart c) (hk : c.extRelock = false → r.kstate ≠ .idle) :
    (keyWrite c c.key2 r).kstate ≠ .half := by
  obtain ⟨k, heq, hhalf⟩ | ⟨-, -, heq⟩ := keyWrite_cases c c.key2 r
  · rw [heq]
    intro h
    obtain ⟨hidle, hsame⟩ := hhalf h
    obtain hne | hext := ha
    · exact hne hsame.symm
    · exact hk hext hidle
  · rw [heq]; nofun

/-- Reading LOCK leaves the key checker ready for the key writes the engine then goes on to. -/
theorem keyOk_unlockIfLocked {p : Phase} {s : State} (hv : s.cfg.Valid) (hr : RegsInv s.cfg s.regs)
    (hret : s.reply = .data (crWord s.cfg s.regs)) (hp : p = .ul1 ∨ p = .aq1 ∨ p = .aq2)
    (hk : s.regs.kstate ≠ .half) : KeyOk s.cfg s.regs (unlockIfLocked p s).eng.phase := by
  cases hl : s.regs.lock with
  | true =>
    rw [unlockIfLocked_locked hv hr.pnb_width hret hl]
    rcases hp with rfl | rfl | rfl
    · exact ⟨hl, hk⟩
    · exact hk
    · exact ⟨hl, hk⟩
  | false => rw [unlockIfLocked_unlocked hv hr.pnb_width hret hl]; exact hk

/-- A turn of ENG in the key protocol keeps the invariant of the key checker, and does not stall. -/
theorem keyOk_keyStep {s t : State} (h : s.Inv) (ha : KeysApart s.cfg) (hin : s.eng.phase ∈ keyPhases)
    (hstep : engStep s = .next t) : KeyOk s.cfg t.regs t.eng.phase ∧ t.reply ≠ .stalled := by
  obtain ⟨hv, hregs, -, hkeys, -⟩ := inv_iff.1 h
  obtain ⟨hok, hstall⟩ := hkeys ha
  have hread : ∀ p : Phase, s.eng.phase = .ul0 ∧ p = .ul1 ∨ s.eng.phase = .aq1 ∧ p = .aq2 → s.regs.kstate ≠ .half →
      KeyOk s.cfg t.regs t.eng.phase ∧ t.reply ≠ .stalled := by
    intro p hp hk
    rw [engStep_readLock hstall hp] at hstep
    cases hstep
    rw [unlockIfLocked_frame]
    exact ⟨keyOk_unlockIfLocked hv hregs rfl (by rcases hp with ⟨-, rfl⟩ | ⟨-, rfl⟩ <;> simp) hk, nofun⟩
  have hfirst : ∀ p : Phase, s.eng.phase = .ul1 ∧ p = .ul2 ∨ s.eng.phase = .aq2 ∧ p = .aq3 → s.regs.lock = true →
      s.regs.kstate ≠ .half → KeyOk s.cfg t.regs t.eng.phase ∧ t.reply ≠ .stalled := by
    intro p hp hl hk
    rw [engStep_firstKey hstall hl hp] at hstep
    cases hstep
    obtain ⟨hlock, hkst⟩ := keyWrite_first_ok hl hk
    rcases hp with ⟨hp, rfl⟩ | ⟨hp, rfl⟩ <;> exact ⟨⟨hlock, fun _ => hkst⟩, nofun⟩
  have hsecond : s.eng.phase = .ul2 ∨ s.eng.phase = .aq3 → s.regs.lock = true →
      (s.cfg.extRelock = false → s.regs.kstate ≠ .idle) → KeyOk s.cfg t.regs t.eng.phase ∧ t.reply ≠ .stalled := by
    intro hp hl hk
    rw [engStep_secondKey hstall hl hp] at hstep
    cases hstep
    exact ⟨keyWrite_second_ok ha hk, nofun⟩
  simp only [keyPhases, List.mem_cons, List.not_mem_nil, or_false] at hin
  rcases hin with hp | hp | hp | hp | hp | hp | hp <;> rw [hp] at hok
  · exact hread .ul1 (.inl ⟨hp, rfl⟩) hok
  · exact hfirst .ul2 (.inl ⟨hp, rfl⟩) hok.1 hok.2
  · exact hsecond (.inl hp) hok.1 hok.2
  · rw [engStep_takeGuard hstall hp] at hstep
    cases hstep
    rw [takeGuard_frame]
    exact ⟨keyOk_unlockIfLocked (s := setGuard _ _) hv hregs rfl (.inr (.inl rfl)) hok, nofun⟩
  · exact hread .aq2 (.inr ⟨hp, rfl⟩) hok
  · exact hfirst .aq3 (.inr ⟨hp, rfl⟩) hok.1 hok.2
  · exact hsecond (.inr hp) hok.1 hok.2

/-- A turn of ENG keeps the invariant of the key checker, and does not stall. -/
theorem keyOk_engStep {s t : State} (h : s.Inv) (ha : KeysApart s.cfg) (hstep : engStep s = .next t) :
    KeyOk s.cfg t.regs t.eng.phase ∧ t.reply ≠ .stalled := by
  by_cases hin : s.eng.phase ∈ keyPhases
  · exact keyOk_keyStep h ha hin hstep
  obtain ⟨-, -, -, hkeys, -⟩ := inv_iff.1 h
  obtain ⟨hok, hstall⟩ := hkeys ha
  by_cases hidle : s.eng.phase = .idle
  · rw [engStep_idle hidle] at hstep
    cases hstep; exact ⟨hok, hstall⟩
  rw [keyOk_outside hin] at hok
  have hout : t.eng.phase ∉ keyPhases := by
    obtain ⟨hstay, hgo⟩ := engStep_phase hstep hidle
    cases hpend : t.reply.pending with
    | true => rwa [hstay hpend]
    | false => exact follows_not_keyPhase hin _ (hgo hpend)
  rw [keyOk_outside hout]
  obtain ⟨-, ⟨-, rfl⟩ | ⟨i, u, hi, hbus, hexec, rfl⟩⟩ := engStep_running hstep hidle hstall
  · exact ⟨by simpa using hok, by simp⟩
  · obtain ⟨hsame | hnot, hrep⟩ := exec_keeps_kstate hbus (fun x v he => hin (transaction_wrKeyr (he ▸ hi))) hexec
    · exact ⟨by rwa [advance_regs, hsame], by rwa [advance_reply]⟩
    · exact ⟨by rwa [advance_regs], by rwa [advance_reply]⟩

end Sys2Proof.Machine

/-! PROOF. The engine's steps of the write and erase commands, label by label (spec 41_status R143, R144;
43_native_access R168; 45_erase R210, R211). -/

namespace Sys2Proof.Machine

section EngineSteps

variable {s : State}

/-! ### Control writes -/

/-- `WN1` sets PG. -/
theorem engStep_wn1 (hr : s.reply ≠ .stalled) (hp : s.eng.phase = .wn1) (hb : s.regs.bsy = false) :
    engStep s = .next (goto .wn2 (setJ 0 (wrote { s.regs with pg := true } s))) := by
  rw [engStep_completes (i := .modCrPg (bitWord true)) hr (addressFits_of_phase (by simp [hp]))
    (by simp only [transaction, hp]) (execModCrPg_ready hb) rfl]
  simp only [afterTransaction, wrote_eng, hp, fieldBit_bitWord, if_true]

/-- `WN4` clears PG and empties the write buffer. -/
theorem engStep_wn4 (hr : s.reply ≠ .stalled) (hp : s.eng.phase = .wn4) (hb : s.regs.bsy = false) :
    engStep s = .next (goto .wn5 (wrote { s.regs with pg := false, wcnt := 0 } s)) := by
  rw [engStep_completes (i := .modCrPg (bitWord false)) hr (addressFits_of_phase (by simp [hp]))
    (by simp only [transaction, hp]) (execModCrPg_ready hb) rfl]
  simp only [afterTransaction, wrote_eng, hp, fieldBit_bitWord, Bool.false_eq_true, if_false]

/-- `EP1` sets PER. -/
theorem engStep_ep1 (hr : s.reply ≠ .stalled) (hp : s.eng.phase = .ep1) (hb : s.regs.bsy = false) :
    engStep s = .next (goto .ep2 (wrote { s.regs with per := true } s)) := by
  rw [engStep_completes (i := .modCrPer (bitWord true)) hr (addressFits_of_phase (by simp [hp]))
    (by simp only [transaction, hp]) (writeControl_ready hb) rfl]
  simp only [afterTransaction, wrote_eng, hp, fieldBit_bitWord]

/-- `EP2` writes the page index. -/
theorem engStep_ep2 (hr : s.reply ≠ .stalled) (hp : s.eng.phase = .ep2) (hb : s.regs.bsy = false) :
    engStep s = .next (goto .ep3 (wrote { s.regs with pnb := pnbField s.cfg s.eng.a } s)) := by
  rw [engStep_completes (i := .modCrPnb s.eng.a) hr (addressFits_of_phase (by simp [hp]))
    (by simp only [transaction, hp]) (writeControl_ready hb) rfl]
  simp only [afterTransaction, wrote_eng, hp]

/-- `EP5` clears PER. -/
theorem engStep_ep5 (hr : s.reply ≠ .stalled) (hp : s.eng.phase = .ep5) (hb : s.regs.bsy = false) :
    engStep s = .next (goto .ep6 (wrote { s.regs with per := false } s)) := by
  rw [engStep_completes (i := .modCrPer (bitWord false)) hr (addressFits_of_phase (by simp [hp]))
    (by simp only [transaction, hp]) (writeControl_ready hb) rfl]
  simp only [afterTransaction, wrote_eng, hp, fieldBit_bitWord]

/-- `EA1` sets MER1. -/
theorem engStep_ea1 (hr : s.reply ≠ .stalled) (hp : s.eng.phase = .ea1) (hb : s.regs.bsy = false) :
    engStep s = .next (goto .ea2 (wrote { s.regs with mer1 := true } s)) := by
  rw [engStep_completes (i := .modCrMer1 (bitWord true)) hr (addressFits_of_phase (by simp [hp]))
    (by simp only [transaction, hp]) (writeControl_ready hb) rfl]
  simp only [afterTransaction, wrote_eng, hp, fieldBit_bitWord]

/-- `EA4` clears MER1. -/
theorem engStep_ea4 (hr : s.reply ≠ .stalled) (hp : s.eng.phase = .ea4) (hb : s.regs.bsy = false) :
    engStep s = .next (goto .ea5 (wrote { s.regs with mer1 := false } s)) := by
  rw [engStep_completes (i := .modCrMer1 (bitWord false)) hr (addressFits_of_phase (by simp [hp]))
    (by simp only [transaction, hp]) (writeControl_ready hb) rfl]
  simp only [afterTransaction, wrote_eng, hp, fieldBit_bitWord]

/-! ### Stores and starts -/

/-- `WN2` stores a word. -/
theorem engStep_wn2 {r : Regs} (hr : s.reply ≠ .stalled) (hp : s.eng.phase = .wn2) (hfit : addressFits s = true)
    (hexec : execSt32 (BitVec.ofNat 32 (effectiveAddress s)) (payloadWord s) s = .next (wrote r s)) :
    engStep s = .next (storedWord (wrote r s)) := by
  rw [engStep_completes (i := .st32 _ _) hr hfit (by simp only [transaction, hp]) hexec rfl]
  simp only [afterTransaction, wrote_eng, hp]

/-- `EP3` and `EA2` start the erase. -/
theorem engStep_start {p : Phase} {r : Regs} (hr : s.reply ≠ .stalled)
    (hp : s.eng.phase = .ep3 ∧ p = .ep4 ∨ s.eng.phase = .ea2 ∧ p = .ea3)
    (hexec : execModCrStart (bitWord true) s = .next (wrote r s)) :
    engStep s = .next (goto p (setPolls 0 (wrote r s))) := by
  rcases hp with ⟨hp, rfl⟩ | ⟨hp, rfl⟩ <;>
    rw [engStep_completes (i := .modCrStart (bitWord true)) hr (addressFits_of_phase (by simp [hp]))
      (by simp only [transaction, hp]) hexec rfl] <;>
    simp only [afterTransaction, wrote_eng, hp]

/-! ### Reads of SR -/

/-- The phases that read SR do nothing but use the word. -/
theorem engStep_readStatus (hr : s.reply ≠ .stalled) (hi : transaction s = some (.rdSr 0#32 0#32)) :
    engStep s = .next (afterTransaction (returned (srWord s.cfg s.regs) s)) := by
  refine engStep_completes hr (addressFits_of_phase ⟨?_, ?_, ?_⟩) hi rfl rfl <;> intro hp <;>
    simp only [transaction, hp] at hi
  · cases hi
  · cases hi
  · split at hi <;> cases hi

/-- PRECHECK on a clean SR goes on (41_status R143). -/
theorem precheck_clean {finish : Response → State → State} {p : Phase} (hv : s.cfg.Valid)
    (hret : s.reply = .data (srWord s.cfg s.regs)) (hb : s.regs.bsy = false) (hpe : s.regs.progErr = false)
    (hwe : s.regs.wrpErr = false) : precheck finish p s = goto p s := by
  rw [precheck, hret, ret_data, decodeStatus_srWord hv, hb, hpe, hwe, decodeFlags_clear, if_pos rfl]

/-- On any other it ends the command with what the decoder says (41_status R143). -/
theorem precheck_unclean {finish : Response → State → State} {p : Phase} {r : Response} (hv : s.cfg.Valid)
    (hret : s.reply = .data (srWord s.cfg s.regs)) (hd : decodeFlags s.regs.bsy s.regs.progErr s.regs.wrpErr = r)
    (hne : r ≠ .ok) : precheck finish p s = finish r s := by
  rw [precheck, hret, ret_data, decodeStatus_srWord hv, hd, if_neg hne]

/-- How the native write sequence and the erase commands end, by the label they poll or check at. -/
def finishAt (p : Phase) : Response → State → State := if p = .wn0 ∨ p = .wn3 then finishWrite else respond

/-- PRECHECK at its three labels. -/
theorem engStep_precheck {p q : Phase} (hr : s.reply ≠ .stalled) (hp : s.eng.phase = p)
    (hpq : (p, q) ∈ [(Phase.wn0, Phase.wn1), (Phase.ep0, Phase.ep1), (Phase.ea0, Phase.ea1)]) :
    engStep s = .next (precheck (finishAt p) q (returned (srWord s.cfg s.regs) s)) := by
  simp only [List.mem_cons, Prod.mk.injEq, List.not_mem_nil, or_false] at hpq
  rcases hpq with ⟨rfl, rfl⟩ | ⟨rfl, rfl⟩ | ⟨rfl, rfl⟩ <;>
    rw [engStep_readStatus hr (by simp only [transaction, hp])] <;>
    simp only [afterTransaction, returned_eng, hp] <;> rfl

/-- POLL at its three labels. -/
theorem engStep_poll {p q : Phase} (hr : s.reply ≠ .stalled) (hp : s.eng.phase = p)
    (hpq : (p, q) ∈ [(Phase.wn3, Phase.wn4), (Phase.ep4, Phase.ep5), (Phase.ea3, Phase.ea4)]) :
    engStep s = .next (poll (finishAt p) q (returned (srWord s.cfg s.regs) s)) := by
  simp only [List.mem_cons, Prod.mk.injEq, List.not_mem_nil, or_false] at hpq
  rcases hpq with ⟨rfl, rfl⟩ | ⟨rfl, rfl⟩ | ⟨rfl, rfl⟩ <;>
    rw [engStep_readStatus hr (by simp only [transaction, hp])] <;>
    simp only [afterTransaction, returned_eng, hp] <;> rfl

/-- POLL reads BSY = 0 and goes on (41_status R144). -/
theorem poll_done {finish : Response → State → State} {q : Phase} (hv : s.cfg.Valid)
    (hret : s.reply = .data (srWord s.cfg s.regs)) (hb : s.regs.bsy = false) : poll finish q s = goto q s := by
  rw [poll, hret, ret_data, srBsy_srWord hv, hb, if_neg Bool.false_ne_true]

/-- POLL reads BSY = 1 and counts it. -/
theorem poll_counts {finish : Response → State → State} {q : Phase} (hv : s.cfg.Valid)
    (hret : s.reply = .data (srWord s.cfg s.regs)) (hb : s.regs.bsy = true)
    (hleft : s.cfg.pollBudget ≠ some (s.eng.polls + 1)) : poll finish q s = setPolls (s.eng.polls + 1) s := by
  rw [poll, hret, ret_data, srBsy_srWord hv, hb, if_pos rfl, if_neg hleft]

/-- POLL reads BSY = 1 and has spent its budget. -/
theorem poll_timeout {finish : Response → State → State} {q : Phase} (hv : s.cfg.Valid)
    (hret : s.reply = .data (srWord s.cfg s.regs)) (hb : s.regs.bsy = true)
    (hspent : s.cfg.pollBudget = some (s.eng.polls + 1)) :
    poll finish q s = finish (.err .timeout) (setPolls (s.eng.polls + 1) s) := by
  rw [poll, hret, ret_data, srBsy_srWord hv, hb, if_pos rfl, if_pos hspent]

/-- `EP6` and `EA5` answer what the decoder says (45_erase R210, R211). -/
theorem engStep_eraseStatus (hv : s.cfg.Valid) (hr : s.reply ≠ .stalled)
    (hp : s.eng.phase = .ep6 ∨ s.eng.phase = .ea5) :
    engStep s =
      .next (respond (decodeFlags s.regs.bsy s.regs.progErr s.regs.wrpErr) (returned (srWord s.cfg s.regs) s)) := by
  rcases hp with hp | hp <;> rw [engStep_readStatus hr (by simp only [transaction, hp])] <;>
    simp only [afterTransaction, returned_eng, hp, returned_cfg, returned_reply, ret_data, decodeStatus_srWord hv]

/-- `WN5` ends the sequence by the residual check (43_native_access R168, R169). -/
theorem engStep_wn5 (hv : s.cfg.Valid) (hr : s.reply ≠ .stalled) (hp : s.eng.phase = .wn5) :
    engStep s = .next (finishWrite
      (if s.regs.bsy || s.regs.progErr || s.regs.wrpErr then .err .programmingError else .ok)
      (returned (srWord s.cfg s.regs) s)) := by
  rw [engStep_readStatus hr (by simp only [transaction, hp])]
  simp only [afterTransaction, returned_eng, hp, returned_cfg, returned_reply, ret_data, residualResult,
    residualFlags_srWord hv]

end EngineSteps

/-- Settles O28: the three cases of POLL, at each label. -/
theorem pollCountsBusyReads : Obligations.PollCountsBusyReads := by
  intro s p q hv hg hr hp hpq
  have hstep : step s = .next (poll (finishAt p) q (returned (srWord s.cfg s.regs) (popTurn s))) :=
    (step_turn hg).trans (engStep_poll (s := popTurn s) hr hp hpq)
  refine ⟨fun hb => ?_, fun hb hleft => ?_, fun hb hspent => ?_⟩
  · rw [hstep, poll_done (s := returned (srWord s.cfg s.regs) (popTurn s)) hv rfl hb]
    rfl
  · rw [hstep, poll_counts (s := returned (srWord s.cfg s.regs) (popTurn s)) hv rfl hb hleft]
    rfl
  · rw [hstep, poll_timeout (s := returned (srWord s.cfg s.regs) (popTurn s)) hv rfl hb hspent]
    simp only [List.mem_cons, Prod.mk.injEq, List.not_mem_nil, or_false] at hpq
    rcases hpq with ⟨rfl, rfl⟩ | ⟨rfl, rfl⟩ | ⟨rfl, rfl⟩
    · simp only [finishAt, or_true, if_true, true_and, finishWrite_error (r := .err .timeout) nofun]
      rfl
    · rfl
    · rfl

end Sys2Proof.Machine

/-! PROOF. With an unbounded poll every turn of ENG gives a next state and keeps the control bits and the write buffer
to the command that uses them; the invariant of the block (spec 41_status R145, 43_native_access R161, 93 U2 to U8,
U11). -/

namespace Sys2Proof.Machine

/-! ### The address of the engine's next access -/

theorem RangeArgs.base {c : Config} {e : Engine} (h : RangeArgs c e) (hi : e.i < e.n.toNat / c.nu) :
    (e.a.toNat + e.i * c.nu) % c.nu = 0 ∧ c.origin ≤ e.a.toNat + e.i * c.nu ∧
      e.a.toNat + e.i * c.nu + c.nu ≤ c.origin + c.flashBytes :=
  stride_base h.1 h.2.1 h.2.2 hi

/-- The unit the native write sequence writes. -/
theorem WriteArgs.base {c : Config} {e : Engine} (h : WriteArgs c e) :
    (e.a.toNat + e.i * c.nu) % c.nu = 0 ∧ c.origin ≤ e.a.toNat + e.i * c.nu ∧
      e.a.toNat + e.i * c.nu + c.nu ≤ c.origin + c.flashBytes := by
  obtain ⟨-, hrange, -, hi⟩ | ⟨-, hunit, -, hi⟩ := h
  · exact hrange.base hi
  · rw [hi, Nat.zero_mul, Nat.add_zero]
    exact unit_base hunit.1 hunit.2

/-- The word at `WN2`, as the bus sees its address. -/
theorem WriteArgs.wordAddress {s : State} (hv : s.cfg.Valid) (h : WriteArgs s.cfg s.eng)
    (hj : s.eng.j < unitWords s.cfg) : WordAddress s.cfg (s.eng.a.toNat + s.eng.i * s.cfg.nu) s.eng.j := by
  obtain ⟨ha, hlo, hhi⟩ := h.base
  exact Machine.wordAddress hv ha hlo hhi hj

/-- The word at `RD0`. -/
theorem RangeArgs.wordAddress {s : State} (hv : s.cfg.Valid) (h : RangeArgs s.cfg s.eng) (hi : s.eng.i < strides s)
    (hj : s.eng.j < unitWords s.cfg) : WordAddress s.cfg (s.eng.a.toNat + s.eng.i * s.cfg.nu) s.eng.j := by
  obtain ⟨ha, hlo, hhi⟩ := h.base hi
  exact Machine.wordAddress hv ha hlo hhi hj

/-- The word at `RN0`. -/
theorem UnitArgs.wordAddress {s : State} (hv : s.cfg.Valid) (h : UnitArgs s.cfg s.eng)
    (hj : s.eng.j < unitWords s.cfg) : WordAddress s.cfg s.eng.a.toNat s.eng.j := by
  obtain ⟨ha, hlo, hhi⟩ := unit_base h.1 h.2
  exact Machine.wordAddress hv ha hlo hhi hj

/-- Every address of an accepted command fits in 32 bits (10_state R49). -/
theorem addressFits_of_inv {s : State} (hv : s.cfg.Valid) (h : EngineInv s) : addressFits s = true := by
  have hok := engineInv_iff.1 h
  unfold addressFits
  split
  · rename_i hp
    rw [hp] at hok
    exact decide_eq_true (hok.1.wordAddress hv hok.2).fits
  · rename_i hp
    rw [hp] at hok
    exact decide_eq_true (hok.1.wordAddress hv hok.2.2).fits
  · rename_i hp
    rw [hp] at hok
    obtain ⟨hrange, hi, hj, -⟩ := hok
    by_cases he : s.eng.i = strides s
    · simp [he]
    · simp only [Bool.or_eq_true, decide_eq_true_eq]
      exact .inr (hrange.wordAddress hv (Nat.lt_of_le_of_ne hi he) hj).fits
  · rfl

/-! ### The quiet phases: no transaction can be refused, none sets a control bit -/

/-- The phases whose transaction writes a control bit, stores, starts or polls. -/
def workPhases : List Phase := [.wn1, .wn2, .wn3, .wn4, .ep1, .ep2, .ep3, .ep4, .ep5, .ea1, .ea2, .ea3, .ea4]

/-- The phases in which a control bit is to be set. -/
def armedPhases : List Phase := [.wn2, .ep2, .ep3, .ea2]

/-- A transaction that no state refuses and that touches no control bit: a read, a lock write, a key write, a load of
a word of the array. -/
def Harmless (c : Config) : Instr → Prop
  | .rdCr _ _ | .rdSr _ _ | .modCrLock _ | .wrKeyr _ _ => True
  | .ld32 x _ => busAddressOk c x = true
  | _ => False

/-- A harmless transaction answers a next state and leaves the control bits alone. -/
theorem exec_harmless {i : Instr} {s : State} (hi : Harmless s.cfg i) (hq : Quiet s.regs) :
    ∃ u, exec i s = .next u ∧ Quiet u.regs := by
  cases i with
  | isLocked | unlock | lock | status | readNative | writeNative | read | write | erasePage | eraseAll | acquire
  | release | modCrPg | modCrPer | modCrMer1 | modCrPnb | modCrStart | st32 => exact hi.elim
  | rdCr | rdSr => exact ⟨_, rfl, hq⟩
  | modCrLock v =>
    cases hb : fieldBit v with
    | true => exact ⟨_, execModCrLock_one hb s, ⟨hq.1, hq.2, hq.3, hq.4, hq.5⟩⟩
    | false => exact ⟨completed s, by simp [exec, execModCrLock, hb], hq⟩
  | wrKeyr x v =>
    cases hl : s.regs.lock with
    | true =>
      refine ⟨_, execWrKeyr_locked (x := x) hl, ?_⟩
      rw [wrote_regs, keyWrite_frame]
      exact ⟨hq.1, hq.2, hq.3, hq.4, hq.5⟩
    | false => exact ⟨_, execWrKeyr_unlocked (x := x) hl, hq⟩
  | ld32 x v => exact ⟨_, execLd32_ready (v := v) hi hq.not_busy, hq⟩

theorem relockTransaction_harmless {c : Config} {g : Guard} {i : Instr} (h : relockTransaction g = some i) :
    Harmless c i := by
  obtain ⟨-, hg⟩ | ⟨-, hg⟩ := relockTransaction_cases g <;> rw [hg] at h <;> cases h
  trivial

/-- Outside the working phases the engine's transactions are harmless. -/
theorem transaction_harmless {s : State} {i : Instr} (hv : s.cfg.Valid) (h : EngineInv s)
    (hp : s.eng.phase ∉ workPhases) (hi : transaction s = some i) : Harmless s.cfg i := by
  have hok := engineInv_iff.1 h
  cases hq : s.eng.phase <;> rw [hq] at hok <;> simp only [transaction, hq, Option.some.injEq, reduceCtorEq] at hi
  case rl0 | ab0 => exact relockTransaction_harmless hi
  case rn0 => subst hi; exact (hok.1.wordAddress hv hok.2).ok
  case rd0 =>
    obtain ⟨hrange, hle, hj, -⟩ := hok
    split at hi <;> cases hi
    exact (hrange.wordAddress hv (Nat.lt_of_le_of_ne hle ‹_›) hj).ok
  case wn1 | wn2 | wn3 | wn4 | ep1 | ep2 | ep3 | ep4 | ep5 | ea1 | ea2 | ea3 | ea4 => simp [workPhases, hq] at hp
  all_goals subst hi; trivial

/-- Outside the working phases nothing runs and no control bit is set. -/
theorem unboundedOk_quiet {c : Config} {r : Regs} {e : Engine} {p : Phase} (hp : p ∉ workPhases)
    (h : UnboundedOk c r e p) : Quiet r := by
  cases p
  case wn1 | wn2 | wn3 | wn4 | ep1 | ep2 | ep3 | ep4 | ep5 | ea1 | ea2 | ea3 | ea4 => simp [workPhases] at hp
  all_goals exact h

/-- Where nothing runs and no control bit is set, all is well in every phase but the armed ones. -/
theorem unboundedOk_of_quiet {c : Config} {r : Regs} {e : Engine} {p : Phase} (hp : p ∉ armedPhases) (h : Quiet r) :
    UnboundedOk c r e p := by
  cases p <;> simp_all [armedPhases, UnboundedOk, quiet_iff]

/-- The armed phases are entered from the working ones. -/
theorem follows_not_armed {p : Phase} (hp : p ∉ workPhases) : ∀ q ∈ p.follows, q ∉ armedPhases := by
  cases p
  case wn1 | wn2 | wn3 | wn4 | ep1 | ep2 | ep3 | ep4 | ep5 | ea1 | ea2 | ea3 | ea4 => simp [workPhases] at hp
  all_goals decide

/-- A turn of ENG outside the working phases gives a next state and leaves the control bits alone. -/
theorem unbounded_quietStep {s : State} (hv : s.cfg.Valid) (h : EngineInv s)
    (hunb : UnboundedOk s.cfg s.regs s.eng s.eng.phase) (hidle : s.eng.phase ≠ .idle) (hab : s.eng.phase ≠ .aborted)
    (hstall : s.reply ≠ .stalled) (hp : s.eng.phase ∉ workPhases) :
    ∃ t, engStep s = .next t ∧ UnboundedOk t.cfg t.regs t.eng t.eng.phase := by
  have hq := unboundedOk_quiet hp hunb
  obtain ⟨t, hstep, hregs⟩ : ∃ t, engStep s = .next t ∧ Quiet t.regs := by
    cases hi : transaction s with
    | none =>
      exact ⟨_, engStep_silent hidle hab hstall (addressFits_of_inv hv h) hi, by rwa [advance_regs]⟩
    | some i =>
      obtain ⟨u, hexec, hu⟩ := exec_harmless (transaction_harmless hv h hp hi) hq
      exact ⟨_, engStep_exec hstall (addressFits_of_inv hv h) hi hexec, by rwa [advance_regs]⟩
  refine ⟨t, hstep, ?_⟩
  obtain ⟨hstay, hgo⟩ := engStep_phase hstep hidle
  cases hpend : t.reply.pending with
  | true =>
    rw [hstay hpend]
    refine unboundedOk_of_quiet (fun hin => hp ?_) hregs
    simp only [armedPhases, workPhases, List.mem_cons, List.not_mem_nil, or_false] at hin ⊢
    tauto
  | false => exact unboundedOk_of_quiet (follows_not_armed hp _ (hgo hpend)) hregs

/-! ### The working phases -/

section Work

variable {s : State}

/-- With an unbounded poll, POLL goes on or counts. -/
theorem engStep_poll_unbounded {p q : Phase} (hv : s.cfg.Valid) (hn : s.cfg.pollBudget = none) (hr : s.reply ≠ .stalled)
    (hp : s.eng.phase = p)
    (hpq : (p, q) ∈ [(Phase.wn3, Phase.wn4), (Phase.ep4, Phase.ep5), (Phase.ea3, Phase.ea4)]) :
    (s.regs.bsy = false ∧ engStep s = .next (goto q (returned (srWord s.cfg s.regs) s))) ∨
      engStep s = .next (setPolls (s.eng.polls + 1) (returned (srWord s.cfg s.regs) s)) := by
  rw [engStep_poll hr hp hpq]
  cases hb : s.regs.bsy with
  | false => rw [poll_done (s := returned _ s) hv rfl hb]; exact .inl ⟨rfl, rfl⟩
  | true => rw [poll_counts (s := returned _ s) hv rfl hb (by simp [hn])]; exact .inr rfl

/-- A turn of ENG at a polling label. -/
theorem unbounded_pollStep {p q : Phase} (hv : s.cfg.Valid) (hn : s.cfg.pollBudget = none) (hr : s.reply ≠ .stalled)
    (hp : s.eng.phase = p)
    (hpq : (p, q) ∈ [(Phase.wn3, Phase.wn4), (Phase.ep4, Phase.ep5), (Phase.ea3, Phase.ea4)])
    (hstay : ∀ e, UnboundedOk s.cfg s.regs e p) (hgo : s.regs.bsy = false → ∀ e, UnboundedOk s.cfg s.regs e q) :
    ∃ t, engStep s = .next t ∧ UnboundedOk t.cfg t.regs t.eng t.eng.phase := by
  obtain ⟨hb, hstep⟩ | hstep := engStep_poll_unbounded hv hn hr hp hpq
  · exact ⟨_, hstep, hgo hb _⟩
  · refine ⟨_, hstep, ?_⟩
    simp only [setPolls_eng, returned_eng, hp]
    exact hstay _

/-- At `WN2` the store is accepted, or sets WRPERR on a locked flash; the write buffer keeps step with the engine
(43_native_access R161 to R164). -/
theorem unbounded_storeStep (hv : s.cfg.Valid) (hok : EngineOk s.cfg s.eng .wn2)
    (hunb : UnboundedOk s.cfg s.regs s.eng .wn2) (hstall : s.reply ≠ .stalled) (hp : s.eng.phase = .wn2) :
    ∃ t, engStep s = .next t ∧ UnboundedOk t.cfg t.regs t.eng t.eng.phase := by
  obtain ⟨hw, -, hj⟩ := hok
  obtain ⟨hb, hpg, hper, hmer, hbuf⟩ := hunb
  have hword := hw.wordAddress hv hj
  have hfit : addressFits s = true := by
    simp only [addressFits, hp, effectiveAddress]
    exact decide_eq_true hword.fits
  cases hl : s.regs.lock with
  | true =>
    refine ⟨_, engStep_wn2 hstall hp hfit (execSt32_locked hword.ok hb hl), ?_⟩
    unfold storedWord
    split
    · exact ⟨hper, hmer⟩
    · simp only [setJ_cfg, setJ_regs, setJ_eng, wrote_cfg, wrote_regs, wrote_eng, hp]
      exact ⟨hb, hpg, hper, hmer, fun hl' => by simp [hl] at hl'⟩
  | false =>
    obtain ⟨hcnt, hbase⟩ := hbuf hl
    have hunit : s.regs.wcnt = 0 ∨
        unitOf s.cfg (offsetOf s.cfg (BitVec.ofNat 32 (effectiveAddress s))) = s.regs.wbase := by
      by_cases h0 : s.regs.wcnt = 0
      · exact .inl h0
      · exact .inr (hword.unit.trans (hbase (by omega)).symm)
    have hin := storeInOrder_iff.2 ⟨hword.index.trans hcnt.symm, hunit⟩
    refine ⟨_, engStep_wn2 hstall hp hfit (execSt32_accepted hword.ok hb hl hpg hper hmer hin), ?_⟩
    unfold storedWord
    split
    · exact ⟨(acceptStore_per ..).trans hper, (acceptStore_mer1 ..).trans hmer⟩
    · rename_i hlast
      have hmore : wordIndex s.cfg (offsetOf s.cfg (BitVec.ofNat 32 (effectiveAddress s))) + 1 ≠ unitWords s.cfg := by
        rwa [effectiveAddress, hword.index]
      rw [acceptStore_more hmore, bufferWord_inOrder hunit]
      simp only [setJ_cfg, setJ_regs, setJ_eng, wrote_cfg, wrote_regs, wrote_eng, hp]
      exact ⟨hb, hpg, hper, hmer, fun _ => ⟨congrArg (· + 1) hcnt, fun _ => hword.unit⟩⟩

/-- At `EP3` the armed page erase starts, or sets WRPERR on a locked flash (45_erase R203, R205). -/
theorem unbounded_startPage (hok : EngineOk s.cfg s.eng .ep3) (hunb : UnboundedOk s.cfg s.regs s.eng .ep3)
    (hstall : s.reply ≠ .stalled) (hp : s.eng.phase = .ep3) :
    ∃ t, engStep s = .next t ∧ UnboundedOk t.cfg t.regs t.eng t.eng.phase := by
  obtain ⟨⟨hb, hpg, hper, hmer, hcnt⟩, hpnb⟩ := hunb
  cases hl : s.regs.lock with
  | true =>
    exact ⟨_, engStep_start hstall (.inl ⟨hp, rfl⟩) (execModCrStart_locked (fieldBit_bitWord _) hb hl), hpg, hmer, hcnt⟩
  | false =>
    exact ⟨_, engStep_start hstall (.inl ⟨hp, rfl⟩)
      (execModCrStart_page (fieldBit_bitWord _) hb hl hpg hper hmer (hpnb ▸ hok.1)), hpg, hmer, hcnt⟩

/-- At `EA2` the armed mass erase starts, or sets WRPERR on a locked flash (45_erase R204, R205). -/
theorem unbounded_startAll (hunb : UnboundedOk s.cfg s.regs s.eng .ea2) (hstall : s.reply ≠ .stalled)
    (hp : s.eng.phase = .ea2) : ∃ t, engStep s = .next t ∧ UnboundedOk t.cfg t.regs t.eng t.eng.phase := by
  obtain ⟨hb, hpg, hper, hmer, hcnt⟩ := hunb
  cases hl : s.regs.lock with
  | true =>
    exact ⟨_, engStep_start hstall (.inr ⟨hp, rfl⟩) (execModCrStart_locked (fieldBit_bitWord _) hb hl), hpg, hper, hcnt⟩
  | false =>
    exact ⟨_, engStep_start hstall (.inr ⟨hp, rfl⟩)
      (execModCrStart_all (fieldBit_bitWord _) hb hl hpg hper hmer), hpg, hper, hcnt⟩

/-- A page index in range fits the PNB field (00_scope R6). -/
theorem pnbField_eq {c : Config} {a : Word} (hv : c.Valid) (ha : a.toNat < c.pageCount) : pnbField c a = a := by
  refine BitVec.eq_of_toNat_eq ?_
  rw [toNat_pnbField, Nat.mod_eq_of_lt (Nat.lt_of_lt_of_le ha hv.pnb_fits)]

/-- A turn of ENG in a working phase gives a next state and keeps the control bits to their command. -/
theorem unbounded_workStep (hv : s.cfg.Valid) (hn : s.cfg.pollBudget = none) (h : EngineInv s)
    (hunb : UnboundedOk s.cfg s.regs s.eng s.eng.phase) (hstall : s.reply ≠ .stalled)
    (hin : s.eng.phase ∈ workPhases) : ∃ t, engStep s = .next t ∧ UnboundedOk t.cfg t.regs t.eng t.eng.phase := by
  have hok := engineInv_iff.1 h
  cases hp : s.eng.phase <;> rw [hp] at hok hunb hin
  case wn1 =>
    exact ⟨_, engStep_wn1 hstall hp hunb.not_busy, hunb.not_busy, rfl, hunb.no_per, hunb.no_mer1,
      fun _ => ⟨hunb.buffer_empty, nofun⟩⟩
  case wn2 => exact unbounded_storeStep hv hok hunb hstall hp
  case wn3 => exact unbounded_pollStep (q := .wn4) hv hn hstall hp (by decide) (fun _ => hunb) fun hb _ => ⟨hb, hunb⟩
  case wn4 =>
    obtain ⟨hb, hper, hmer⟩ := hunb
    exact ⟨_, engStep_wn4 hstall hp hb, hb, rfl, hper, hmer, rfl⟩
  case ep1 =>
    exact ⟨_, engStep_ep1 hstall hp hunb.not_busy, hunb.not_busy, hunb.no_pg, rfl, hunb.no_mer1, hunb.buffer_empty⟩
  case ep2 => exact ⟨_, engStep_ep2 hstall hp hunb.1, hunb, pnbField_eq hv hok.1⟩
  case ep3 => exact unbounded_startPage hok hunb hstall hp
  case ep4 => exact unbounded_pollStep (q := .ep5) hv hn hstall hp (by decide) (fun _ => hunb) fun hb _ => ⟨hb, hunb⟩
  case ep5 =>
    obtain ⟨hb, hpg, hmer, hcnt⟩ := hunb
    exact ⟨_, engStep_ep5 hstall hp hb, hb, hpg, rfl, hmer, hcnt⟩
  case ea1 =>
    exact ⟨_, engStep_ea1 hstall hp hunb.not_busy, hunb.not_busy, hunb.no_pg, hunb.no_per, rfl, hunb.buffer_empty⟩
  case ea2 => exact unbounded_startAll hunb hstall hp
  case ea3 => exact unbounded_pollStep (q := .ea4) hv hn hstall hp (by decide) (fun _ => hunb) fun hb _ => ⟨hb, hunb⟩
  case ea4 =>
    obtain ⟨hb, hpg, hper, hcnt⟩ := hunb
    exact ⟨_, engStep_ea4 hstall hp hb, hb, hpg, hper, rfl, hcnt⟩
  all_goals simp [workPhases] at hin

end Work

/-! ### The turn of ENG, and the step of the block -/

/-- With an unbounded poll every turn of ENG but in `ABORTED` gives a next state, and keeps the control bits and the
write buffer to the command that uses them. -/
theorem unbounded_engStep {s : State} (h : s.Inv) (hn : s.cfg.pollBudget = none) (hab : s.eng.phase ≠ .aborted) :
    ∃ t, engStep s = .next t ∧ UnboundedOk t.cfg t.regs t.eng t.eng.phase := by
  obtain ⟨hv, -, heng, -, hunb⟩ := inv_iff.1 h
  by_cases hidle : s.eng.phase = .idle
  · exact ⟨s, engStep_idle hidle, hunb hn⟩
  by_cases hstall : s.reply = .stalled
  · exact ⟨s, engStep_stalled hab hstall, hunb hn⟩
  by_cases hin : s.eng.phase ∈ workPhases
  · exact unbounded_workStep hv hn heng (hunb hn) hstall hin
  · exact unbounded_quietStep hv heng (hunb hn) hidle hab hstall hin

/-- The turn of ENG keeps the invariant of the engine. -/
theorem engineInv_engStep {s t : State} (hv : s.cfg.Valid) (h : EngineInv s) (hstep : engStep s = .next t) :
    EngineInv t := by
  have hkeep : ∀ u : State, u.cfg = s.cfg → u.eng = s.eng → EngineInv (advance u) := by
    intro u hcfg heng
    have hu : EngineInv u := engineInv_iff.2 (by rw [hcfg, heng]; exact engineInv_iff.1 h)
    unfold advance
    split
    · exact hu
    · exact engineInv_afterTransaction (hcfg ▸ hv) hu
  obtain rfl | ⟨-, rfl⟩ | ⟨i, u, hi, hexec, rfl⟩ := engStep_next hstep
  · exact h
  · exact hkeep _ rfl rfl
  · have hframe := exec_bus_frame (transaction_bus hi) hexec
    exact hkeep u (by rw [hframe]) (by rw [hframe])

/-- The turn of ENG keeps the invariant of the block. -/
theorem inv_engStep {s t : State} (h : s.Inv) (hstep : engStep s = .next t) : t.Inv := by
  obtain ⟨hcfg, -⟩ := engStep_frame hstep
  refine inv_iff.2 ⟨hcfg ▸ h.cfg, ?_, engineInv_engStep h.cfg h.eng hstep, fun ha => ?_, fun hn => ?_⟩
  · rw [hcfg]
    exact (engStep_regsNext hstep).inv h.cfg h.regs
  · rw [hcfg] at ha ⊢
    exact keyOk_engStep h ha hstep
  · have hab : s.eng.phase ≠ .aborted := fun hp => by simp [engStep, hp] at hstep
    obtain ⟨u, hu, hunb⟩ := unbounded_engStep h (hcfg ▸ hn) hab
    cases hstep.symm.trans hu
    exact hunb

/-- Settles O53: agent by agent. -/
theorem stepKeepsTheInvariant : Obligations.StepKeepsTheInvariant := by
  intro s t h hstep
  have hpop : (popTurn s).Inv := Inv.congr h rfl rfl rfl rfl
  cases hg : agentOf s <;> rw [step_turn hg] at hstep
  case host => exact inv_hostStep hpop hstep
  case eng => exact inv_engStep hpop hstep
  case fop => cases hstep; exact inv_fopStep hpop
  case reset => cases hstep; exact inv_resetMove hpop
  case extRelock => cases hstep; exact inv_extRelockMove hpop

/-- HOST's turn is never refused: the port accepts, finds a contract violation, blocks or faults (30_encoding R91). -/
theorem hostStep_not_refused (s : State) (r : Refusal) : hostStep s ≠ .refused r := by
  intro h
  unfold hostStep at h
  split at h
  · split at h
    · cases h
    · rename_i c rest hc
      unfold acceptWord at h
      split at h
      · rename_i i hi
        obtain ⟨op, a, pass, p, -, hexec⟩ := exec_cmd_present (decodeCmd_format hi) { s with cmds := rest }
        rw [hexec] at h
        exact present_not_refused r h
      · exact present_not_refused r h
  · cases h
  · cases h

/-- Settles O54: ENG's turn gives a next state or faults in `ABORTED`, HOST's is never refused, and the others always
give one; the invariant itself says that nothing stalls. -/
theorem engineIsNeverRefused : Obligations.EngineIsNeverRefused := by
  intro s h hn
  refine ⟨fun r hstep => ?_, fun ha => ⟨(h.keys ha).not_stalled, fun t hstep => ?_⟩⟩
  · have hpop : (popTurn s).Inv := Inv.congr h rfl rfl rfl rfl
    cases hg : agentOf s <;> rw [step_turn hg] at hstep
    case host => exact hostStep_not_refused _ r hstep
    case eng =>
      by_cases hab : s.eng.phase = .aborted
      · simp [turn, engStep, hab] at hstep
      · obtain ⟨t, ht, -⟩ := unbounded_engStep hpop hn hab
        cases ht.symm.trans hstep
    case fop | reset | extRelock => cases hstep
  · obtain ⟨hcfg, -⟩ := step_frame hstep
    exact ((stepKeepsTheInvariant s t h hstep).keys (hcfg ▸ ha)).not_stalled

end Sys2Proof.Machine

/-! PROOF. Runs along a schedule: the turns a statement names, one after the other, whatever turns come after them (spec
00_scope R5, 41_status R144). -/

namespace Sys2Proof.Machine

/-! ### The engine does not look at the schedule -/

section Scheduled

variable (l : List Agent) (s : State)

@[simp] theorem scheduled_eng : (scheduled l s).eng = s.eng := rfl
@[simp] theorem scheduled_reply : (scheduled l s).reply = s.reply := rfl

/-- An outcome with its next state's schedule replaced. -/
def reschedule (l : List Agent) : Res → Res
  | .next t => .next (scheduled l t)
  | .fault r => .fault r
  | .refused r => .refused r

/-- A transaction does not depend on the schedule and leaves it alone. -/
theorem exec_scheduled {i : Instr} (hi : i.format = .bus) : exec i (scheduled l s) = reschedule l (exec i s) := by
  cases i with
  | isLocked | unlock | lock | status | readNative | writeNative | read | write | erasePage | eraseAll | acquire
  | release => cases hi
  | rdCr | rdSr => rfl
  | modCrLock v => simp only [exec, execModCrLock, apply_ite (reschedule l)]; rfl
  | modCrPg v => simp only [exec, execModCrPg, apply_ite (reschedule l)]; rfl
  | modCrPer v => simp only [exec, execModCrPer, writeControl, apply_ite (reschedule l)]; rfl
  | modCrMer1 v => simp only [exec, execModCrMer1, writeControl, apply_ite (reschedule l)]; rfl
  | modCrPnb v => simp only [exec, execModCrPnb, writeControl, apply_ite (reschedule l)]; rfl
  | modCrStart v => simp only [exec, execModCrStart, apply_ite (reschedule l)]; rfl
  | wrKeyr x v => simp only [exec, execWrKeyr, apply_ite (reschedule l)]; rfl
  | ld32 x v => simp only [exec, execLd32, apply_ite (reschedule l)]; rfl
  | st32 x v => simp only [exec, execSt32, apply_ite (reschedule l)]; rfl

/-- Nor does the engine's own update. -/
theorem afterTransaction_scheduled : afterTransaction (scheduled l s) = scheduled l (afterTransaction s) := by
  cases hp : s.eng.phase <;>
    simp only [afterTransaction, scheduled_eng, hp, takeGuard, unlockIfLocked, readNativeWord, readStep, strideStep,
      storedWord, finishWrite, precheck, poll, apply_ite (scheduled l)] <;> rfl

theorem advance_scheduled : advance (scheduled l s) = scheduled l (advance s) := by
  simp only [advance, scheduled_reply, afterTransaction_scheduled, apply_ite (scheduled l)]

/-- An address past 32 bits is refused (log 13). -/
theorem engStep_misfit {s : State} (hidle : s.eng.phase ≠ .idle) (hab : s.eng.phase ≠ .aborted)
    (hstall : s.reply ≠ .stalled) (hfit : ¬addressFits s = true) : engStep s = .refused .busAddress := by
  unfold engStep
  split
  · contradiction
  · contradiction
  · rw [if_neg hstall, if_neg hfit]

/-- Nor does a turn of ENG. -/
theorem engStep_scheduled : engStep (scheduled l s) = reschedule l (engStep s) := by
  by_cases hidle : s.eng.phase = .idle
  · rw [engStep_idle hidle, engStep_idle (s := scheduled l s) hidle]; rfl
  by_cases hab : s.eng.phase = .aborted
  · simp only [engStep, scheduled_eng, hab]; rfl
  by_cases hstall : s.reply = .stalled
  · rw [engStep_stalled hab hstall, engStep_stalled (s := scheduled l s) hab hstall]; rfl
  by_cases hfit : addressFits s = true
  · cases hi : transaction s with
    | none =>
      rw [engStep_silent hidle hab hstall hfit hi, engStep_silent (s := scheduled l s) hidle hab hstall hfit hi]
      exact congrArg _ (advance_scheduled l { s with reply := .none })
    | some i =>
      have hbus := transaction_bus hi
      rw [engStep_issue hidle hab hstall hfit hi hbus,
        engStep_issue (s := scheduled l s) hidle hab hstall hfit hi hbus, exec_scheduled l s hbus]
      cases exec i s with
      | next t => exact congrArg _ (advance_scheduled l t)
      | fault r => rfl
      | refused r => rfl
  · rw [engStep_misfit hidle hab hstall hfit, engStep_misfit (s := scheduled l s) hidle hab hstall hfit]
    rfl

end Scheduled

/-! ### Runs -/

/-- With the turns `ts` next in the schedule, the block goes from `s` to `t`, whatever turns come after. -/
def RunsTo (ts : List Agent) (s t : State) : Prop :=
  ∀ rest, runSteps ts.length (scheduled (ts ++ rest) s) = .next (scheduled rest t)

section RunsTo

variable {ts ts' : List Agent} {s t u : State}

theorem RunsTo.refl (s : State) : RunsTo [] s s := fun _ => rfl

/-- One run after the other. -/
theorem RunsTo.append (h : RunsTo ts s t) (h' : RunsTo ts' t u) : RunsTo (ts ++ ts') s u := by
  intro rest
  rw [List.length_append, runSteps_add, List.append_assoc, h]
  exact h' rest

/-- A turn of ENG. -/
theorem RunsTo.eng (h : engStep s = .next t) : RunsTo [.eng] s t := by
  intro rest
  have hstep : step (scheduled ([.eng] ++ rest) s) = .next (scheduled rest t) := by
    rw [step_scheduled (g := .eng) (rest := rest) rfl]
    exact (engStep_scheduled rest s).trans (by rw [h]; rfl)
  simp only [List.length_singleton, runSteps, hstep]

/-- A turn of ENG, then the rest of the run. -/
theorem RunsTo.eng_cons (h : engStep s = .next t) (h' : RunsTo ts t u) : RunsTo (.eng :: ts) s u :=
  (RunsTo.eng h).append h'

/-- A turn of FOP, then the rest of the run. -/
theorem RunsTo.fop_cons (h : RunsTo ts (fopStep s) t) : RunsTo (.fop :: ts) s t := by
  intro rest
  have hstep : step (scheduled (.fop :: ts ++ rest) s) = .next (scheduled (ts ++ rest) (fopStep s)) := by
    rw [step_scheduled (g := .fop) (rest := ts ++ rest) rfl]
    cases hf : s.regs.inflight with
    | none => rw [fopStep_none hf]; exact congrArg _ (fopStep_none (s := scheduled (ts ++ rest) s) hf)
    | some f => rw [fopStep_some hf]; exact congrArg _ (fopStep_some (s := scheduled (ts ++ rest) s) hf)
  rw [List.length_cons, runSteps, hstep]
  exact h rest

/-- A run of `n` steps whose turns are `ts`. -/
theorem RunsTo.run {n : Nat} (h : RunsTo ts s t) (hn : ts.length = n) (rest : List Agent) :
    runSteps n (scheduled (ts ++ rest) s) = .next (scheduled rest t) := by
  rw [← hn]
  exact h rest

@[simp] theorem length_engTurns (k : Nat) : (engTurns k).length = k := List.length_replicate


theorem engTurns_add (a b : Nat) : engTurns (a + b) = engTurns a ++ engTurns b := List.replicate_add ..

end RunsTo

end Sys2Proof.Machine

/-! PROOF. The command port and the guard: the contract checks (spec 44_buffered_access R190), the abort sequence and
`ABORTED` (60_exceptions R237, R238), the stalled key write (40_lock_unlock R123), and where the guard begins and ends
(42_guard). -/

namespace Sys2Proof.Machine

/-! ### The contract checks -/

/-- Checks K4, K6 and K7 of WRITE_NATIVE under a guard. -/
theorem writeNativeChecks_iff {c : Config} {g : Guard} {a : Word} {pay : List Byte} (hg : g.isHeld = true) :
    (g.isHeld && addressAligned c a && inFlash c a c.nu && payloadLength pay c.nu) = true ↔
      a.toNat % c.nu = 0 ∧ c.origin ≤ a.toNat ∧ a.toNat + c.nu ≤ c.origin + c.flashBytes ∧ pay.length = c.nu := by
  simp [hg, addressAligned, inFlash, payloadLength, and_assoc]

/-- Checks K4 to K7 of WRITE under a guard. -/
theorem writeChecks_iff {c : Config} {g : Guard} {a n : Word} {pay : List Byte} (hg : g.isHeld = true) :
    (g.isHeld && addressAligned c a && lengthAligned c n && inFlash c a n.toNat && payloadLength pay n.toNat) = true ↔
      a.toNat % c.nu = 0 ∧ n.toNat % c.nu = 0 ∧ c.origin ≤ a.toNat ∧ a.toNat + n.toNat ≤ c.origin + c.flashBytes ∧
        pay.length = n.toNat := by
  simp [hg, addressAligned, lengthAligned, inFlash, payloadLength, and_assoc]

/-- Checks K3 and K8 of ERASE_PAGE under a guard. -/
theorem erasePageChecks_iff {c : Config} {g : Guard} {a : Word} (hg : g.isHeld = true) :
    (g.isHeld && pageInRange c a) = true ↔ a.toNat < c.pageCount := by
  simp [hg, pageInRange]

/-- Settles O12: command by command, the port decides by the command's checks. -/
theorem acceptanceChecksTheContract : Obligations.AcceptanceChecksTheContract := by
  intro s c hi
  refine ⟨⟨present_accepted hi rfl, present_accepted hi rfl, present_accepted hi rfl, present_accepted hi rfl⟩,
    fun hg => ?_, fun b hg => ?_,
    fun h => present_accepted hi (unitChecks_iff.2 h),
    fun h => present_violated hi (Bool.eq_false_iff.2 (mt unitChecks_iff.1 h)),
    fun h => present_accepted hi (rangeChecks_iff.2 h),
    fun h => present_violated hi (Bool.eq_false_iff.2 (mt rangeChecks_iff.1 h))⟩
  · have hno : s.eng.guard.isHeld = false := isHeld_eq_false.2 hg
    refine ⟨present_accepted hi ?_, present_violated hi ?_, present_violated hi ?_, present_violated hi ?_,
      present_violated hi ?_, present_violated hi ?_⟩ <;> simp [hno]
  · have hheld : s.eng.guard.isHeld = true := isHeld_eq_true.2 ⟨b, hg⟩
    exact ⟨present_violated hi (by simp [hheld]), present_accepted hi hheld, present_accepted hi hheld,
      fun h => present_accepted hi ((erasePageChecks_iff hheld).2 h),
      fun h => present_violated hi (Bool.eq_false_iff.2 (mt (erasePageChecks_iff hheld).1 (Nat.not_lt.2 h))),
      fun h => present_accepted hi ((writeNativeChecks_iff hheld).2 h),
      fun h => present_violated hi (Bool.eq_false_iff.2 (mt (writeNativeChecks_iff hheld).1 h)),
      fun h => present_accepted hi ((writeChecks_iff hheld).2 h),
      fun h => present_violated hi (Bool.eq_false_iff.2 (mt (writeChecks_iff hheld).1 h))⟩

/-! ### RELEASE and the abort sequence -/

section EndGuard

variable {s : State}

/-- Where the guard asks for it, `RL0` and `AB0` re-lock (42_guard R152, 60_exceptions R237). -/
theorem engStep_relock (hr : s.reply ≠ .stalled) (hp : s.eng.phase = .rl0 ∨ s.eng.phase = .ab0)
    (hg : s.eng.guard = .held true) : engStep s = .next (afterTransaction (wrote (relock s.regs) s)) := by
  refine engStep_completes (i := .modCrLock (bitWord true)) hr (addressFits_of_phase ?_) ?_
    (execModCrLock_one (fieldBit_bitWord true) s) rfl
  · rcases hp with hp | hp <;> simp [hp]
  · rcases hp with hp | hp <;> simp only [transaction, hp, hg, relockTransaction]

/-- Elsewhere they issue nothing. -/
theorem engStep_noRelock (hr : s.reply ≠ .stalled) (hp : s.eng.phase = .rl0 ∨ s.eng.phase = .ab0)
    (hg : s.eng.guard ≠ .held true) : engStep s = .next (afterTransaction { s with reply := .none }) := by
  have hnone : transaction s = none := by
    obtain ⟨hheld, -⟩ | ⟨-, hnone⟩ := relockTransaction_cases s.eng.guard
    · exact absurd hheld hg
    · rcases hp with hp | hp <;> simp only [transaction, hp, hnone]
  rw [engStep_silent _ _ hr (addressFits_of_phase _) hnone, advance_completed rfl] <;>
    rcases hp with hp | hp <;> simp [hp]

/-- `RL0` answers `Ok` without a guard. -/
theorem afterTransaction_rl0 (hp : s.eng.phase = .rl0) : afterTransaction s = respond .ok (setGuard .none s) := by
  simp only [afterTransaction, hp]

/-- `AB0` ends in `ABORTED`. -/
theorem afterTransaction_ab0 (hp : s.eng.phase = .ab0) : afterTransaction s = endAbort s := by
  simp only [afterTransaction, hp]

end EndGuard

/-- Settles O13: by the guard. -/
theorem abortSequenceEndsInAborted : Obligations.AbortSequenceEndsInAborted := by
  intro s hg hp hr
  have hstep : step s = engStep (popTurn s) := step_turn hg
  refine ⟨fun hheld => ?_, fun hnot => ?_⟩
  · rw [hstep, engStep_relock (s := popTurn s) hr (.inr hp) hheld, afterTransaction_ab0 (s := wrote _ (popTurn s)) hp,
      popTurn_regs, relock_eq]
    rfl
  · rw [hstep, engStep_noRelock (s := popTurn s) hr (.inr hp) hnot,
      afterTransaction_ab0 (s := { popTurn s with reply := .none }) hp]
    rfl

/-! ### The engine outside its own turns -/

/-- FOP leaves the engine and the reply alone. -/
theorem fopStep_keeps (s : State) : (fopStep s).eng = s.eng ∧ (fopStep s).reply = s.reply := by
  unfold fopStep; split <;> exact ⟨rfl, rfl⟩

/-- So does `ExtRelock`. -/
theorem extRelockMove_keeps (s : State) : (extRelockMove s).eng = s.eng ∧ (extRelockMove s).reply = s.reply := by
  unfold extRelockMove; split <;> exact ⟨rfl, rfl⟩

/-- Outside `IDLE` a turn of HOST passes. -/
theorem hostStep_passes {s t : State} (hidle : s.eng.phase ≠ .idle) (h : hostStep s = .next t) : t = s := by
  obtain rfl | ⟨hi, -⟩ := hostStep_next h
  · rfl
  · exact absurd hi hidle

/-- Settles O14: HOST, ENG and the port fault; FOP and `ExtRelock` leave the engine alone; `Reset` does not. -/
theorem abortedIsTerminal : Obligations.AbortedIsTerminal := by
  intro s hab
  have hhost : hostStep (popTurn s) = .fault .aborted := by simp [hostStep, hab]
  have heng : engStep (popTurn s) = .fault .aborted := by simp [engStep, hab]
  refine ⟨fun hg => ?_, fun i hi => ?_, fun t h hnr => ?_, fun hg => ⟨_, step_turn hg, rfl⟩⟩
  · obtain hg | hg := hg <;> rw [step_turn hg]
    · exact hhost
    · exact heng
  · obtain ⟨op, c, pass, p, -, hexec⟩ := exec_cmd_present hi s
    rw [hexec, present_aborted hab]
  · cases hg : agentOf s <;> rw [step_turn hg] at h
    case host => cases hhost.symm.trans h
    case eng => cases heng.symm.trans h
    case fop => cases h; exact (fopStep_keeps _).1
    case reset => exact absurd hg hnr
    case extRelock => cases h; exact (extRelockMove_keeps _).1

/-- A key write that the engine issues on an unlocked flash leaves it stalled (40_lock_unlock R123). -/
theorem engStep_stalls {s : State} (hr : s.reply ≠ .stalled) (hl : s.regs.lock = false)
    (hp : s.eng.phase = .ul1 ∨ s.eng.phase = .ul2 ∨ s.eng.phase = .aq2 ∨ s.eng.phase = .aq3) :
    engStep s = .next (stalls s) := by
  obtain ⟨x, v, hi⟩ : ∃ x v, transaction s = some (.wrKeyr x v) := by
    rcases hp with hp | hp | hp | hp <;> simp only [transaction, hp] <;> exact ⟨_, _, rfl⟩
  have hfit : addressFits s = true := addressFits_of_phase (by rcases hp with hp | hp | hp | hp <;> simp [hp])
  rw [engStep_exec hr hfit hi (execWrKeyr_unlocked (x := x) hl)]
  rfl

/-- Settles O20: the stall, that no agent but `Reset` ends it, and the phases that reach it. -/
theorem keyWriteWhileUnlockedStalls : Obligations.KeyWriteWhileUnlockedStalls := by
  refine ⟨fun s x v hl => execWrKeyr_unlocked (x := x) hl, fun s t hst hidle hab h hnr => ?_, fun s hg hr hl hp => ?_⟩
  · cases hg : agentOf s <;> rw [step_turn hg] at h
    case host => cases hostStep_passes (s := popTurn s) hidle h; exact ⟨hst, rfl⟩
    case eng => cases (engStep_stalled (s := popTurn s) hab hst).symm.trans h; exact ⟨hst, rfl⟩
    case fop =>
      cases h
      obtain ⟨heng, hreply⟩ := fopStep_keeps (popTurn s)
      exact ⟨hreply.trans hst, heng⟩
    case reset => exact absurd hg hnr
    case extRelock =>
      cases h
      obtain ⟨heng, hreply⟩ := extRelockMove_keeps (popTurn s)
      exact ⟨hreply.trans hst, heng⟩
  · rw [step_turn hg]
    exact engStep_stalls (s := popTurn s) hr hl hp

/-- Settles O24: by `EXT_RELOCK`. -/
theorem externalRelockLocks : Obligations.ExternalRelockLocks := by
  intro s hg
  have hstep : step s = .next (extRelockMove (popTurn s)) := step_turn hg
  refine ⟨fun he => ?_, fun he => ?_⟩
  · rw [hstep, ← relock_eq, extRelockMove, popTurn_cfg, if_pos he]
    rfl
  · rw [hstep, extRelockMove, popTurn_cfg, if_neg (by simp [he])]
    rfl

/-! ### Where the guard begins and ends -/

theorem finishWrite_guard (r : Response) (s : State) : (finishWrite r s).eng.guard = s.eng.guard := by
  unfold finishWrite
  split
  · split <;> rfl
  · rfl

theorem precheck_guard {finish : Response → State → State}
    (hf : ∀ r s, (finish r s).eng.guard = s.eng.guard) (p : Phase) (s : State) :
    (precheck finish p s).eng.guard = s.eng.guard := by
  obtain h | ⟨r, -, h⟩ := precheck_cases finish p s <;> rw [h]
  · rfl
  · exact hf r s

theorem poll_guard {finish : Response → State → State}
    (hf : ∀ r s, (finish r s).eng.guard = s.eng.guard) (p : Phase) (s : State) :
    (poll finish p s).eng.guard = s.eng.guard := by
  obtain ⟨-, h⟩ | ⟨-, h⟩ | ⟨-, h⟩ := poll_cases finish p s <;> rw [h]
  · rfl
  · rfl
  · exact hf _ _

theorem unlockIfLocked_guard (p : Phase) (s : State) : (unlockIfLocked p s).eng.guard = s.eng.guard := by
  obtain ⟨-, h⟩ | h := unlockIfLocked_cases p s <;> rw [h] <;> rfl

/-- The engine's own update writes the guard at `AQ0`, `RL0` and `AB0` alone (42_guard R150). -/
theorem afterTransaction_guard {s : State} (hp : s.eng.phase ≠ .aq0 ∧ s.eng.phase ≠ .rl0 ∧ s.eng.phase ≠ .ab0) :
    (afterTransaction s).eng.guard = s.eng.guard := by
  have hrespond : ∀ (r : Response) (s : State), (respond r s).eng.guard = s.eng.guard := fun _ _ => rfl
  obtain ⟨haq, hrl, hab⟩ := hp
  cases hq : s.eng.phase <;> simp only [afterTransaction, hq]
  case aq0 => exact absurd hq haq
  case rl0 => exact absurd hq hrl
  case ab0 => exact absurd hq hab
  case ul0 | aq1 => exact unlockIfLocked_guard _ s
  case rn0 => unfold readNativeWord; split <;> rfl
  case rd0 =>
    unfold readStep
    split
    · rfl
    · split <;> rfl
  case wr0 => unfold strideStep; split <;> rfl
  case wn2 => unfold storedWord; split <;> rfl
  case wn0 => exact precheck_guard finishWrite_guard _ s
  case wn3 => exact poll_guard finishWrite_guard _ s
  case wn5 => exact finishWrite_guard _ s
  case ep0 | ea0 => exact precheck_guard hrespond _ s
  case ep4 | ea3 => exact poll_guard hrespond _ s
  all_goals rfl

/-- So does a turn of ENG. -/
theorem engStep_guard {s t : State} (h : engStep s = .next t)
    (hp : s.eng.phase ≠ .aq0 ∧ s.eng.phase ≠ .rl0 ∧ s.eng.phase ≠ .ab0) : t.eng.guard = s.eng.guard := by
  have hkeep : ∀ u : State, u.eng = s.eng → (advance u).eng.guard = s.eng.guard := by
    intro u heng
    unfold advance
    split
    · rw [heng]
    · rw [afterTransaction_guard (heng ▸ hp), heng]
  obtain rfl | ⟨-, rfl⟩ | ⟨i, u, hi, hexec, rfl⟩ := engStep_next h
  · rfl
  · exact hkeep _ rfl
  · exact hkeep u (by rw [exec_bus_frame (transaction_bus hi) hexec])

/-- A turn of ENG at `AQ0` takes the guard with LOCK as it is. -/
theorem engStep_aq0_guard {s t : State} (hv : s.cfg.Valid) (hw : s.regs.pnb.toNat < 2 ^ s.cfg.pnbWidth)
    (hr : s.reply ≠ .stalled) (hp : s.eng.phase = .aq0) (h : engStep s = .next t) :
    t.eng.guard = .held s.regs.lock := by
  rw [engStep_takeGuard hr hp] at h
  cases h
  rw [takeGuard, unlockIfLocked_guard, setGuard_eng]
  exact congrArg Guard.held (crLock_crWord hv hw)

/-- A turn of ENG at `RL0` or `AB0` drops the guard; LOCK is set where the guard asks for it, and else as it was. -/
theorem engStep_endGuard {s t : State} {b : Bool} (hr : s.reply ≠ .stalled)
    (hp : s.eng.phase = .rl0 ∨ s.eng.phase = .ab0) (hg : s.eng.guard = .held b) (h : engStep s = .next t) :
    t.eng.guard = .none ∧ t.regs.lock = (b || s.regs.lock) := by
  have hend : ∀ u : State, u.eng = s.eng → (afterTransaction u).eng.guard = .none := by
    intro u heng
    obtain hp | hp := hp
    · rw [afterTransaction_rl0 (heng ▸ hp)]; rfl
    · rw [afterTransaction_ab0 (heng ▸ hp)]; rfl
  cases b with
  | true =>
    cases (engStep_relock hr hp hg).symm.trans h
    exact ⟨hend _ rfl, by simp⟩
  | false =>
    cases (engStep_noRelock hr hp (by simp [hg])).symm.trans h
    exact ⟨hend _ rfl, by simp⟩

/-- What a turn of ENG can do to the guard, from a state that meets the invariant: keep it, take it, or end it. -/
theorem engStep_guard_cases {s t : State} (hinv : s.Inv) (h : engStep s = .next t) :
    t.eng.guard = s.eng.guard ∨ (s.eng.phase = .aq0 ∧ s.eng.guard = .none ∧ t.eng.guard = .held s.regs.lock) ∨
      ∃ b, (s.eng.phase = .rl0 ∨ s.eng.phase = .ab0) ∧ s.eng.guard = .held b ∧ t.eng.guard = .none ∧
        t.regs.lock = (b || s.regs.lock) := by
  have hab : s.eng.phase ≠ .aborted := fun hp => by simp [engStep, hp] at h
  by_cases hr : s.reply = .stalled
  · cases (engStep_stalled hab hr).symm.trans h
    exact .inl rfl
  by_cases haq : s.eng.phase = .aq0
  · exact .inr (.inl ⟨haq, hinv.eng.acquiring haq, engStep_aq0_guard hinv.cfg hinv.regs.pnb_width hr haq h⟩)
  by_cases hend : s.eng.phase = .rl0 ∨ s.eng.phase = .ab0
  · cases hg : s.eng.guard with
    | held b => exact .inr (.inr ⟨b, hend, rfl, engStep_endGuard hr hend hg h⟩)
    | none =>
      cases (engStep_noRelock hr hend (by simp [hg])).symm.trans h
      obtain hp | hp := hend
      · rw [afterTransaction_rl0 (s := { s with reply := .none }) hp]; exact .inl rfl
      · rw [afterTransaction_ab0 (s := { s with reply := .none }) hp]; exact .inl rfl
  · rw [not_or] at hend
    exact .inl (engStep_guard h ⟨haq, hend⟩)

/-- A turn of HOST keeps the guard. -/
theorem hostStep_guard {s t : State} (h : hostStep s = .next t) : t.eng.guard = s.eng.guard := by
  obtain rfl | ⟨hidle, c, rest, -, haccept⟩ := hostStep_next h
  · rfl
  · obtain ⟨-, -, -, -, hguard⟩ := acceptWord_frame (s := { s with cmds := rest }) hidle haccept
    exact hguard

/-- What a step can do to the guard, from a state that meets the invariant (42_guard R150, R156). -/
theorem step_guard_cases {s t : State} (hinv : s.Inv) (h : step s = .next t) :
    t.eng.guard = s.eng.guard ∨
      (agentOf s = .eng ∧ s.eng.phase = .aq0 ∧ s.eng.guard = .none ∧ t.eng.guard = .held s.regs.lock) ∨
      (∃ b, agentOf s = .eng ∧ (s.eng.phase = .rl0 ∨ s.eng.phase = .ab0) ∧ s.eng.guard = .held b ∧
        t.eng.guard = .none ∧ t.regs.lock = (b || s.regs.lock)) ∨
      (agentOf s = .reset ∧ t.eng.guard = .none ∧ t.regs.lock = true) := by
  have hpop : (popTurn s).Inv := Inv.congr hinv rfl rfl rfl rfl
  cases hg : agentOf s <;> rw [step_turn hg] at h
  case host => exact .inl (hostStep_guard (s := popTurn s) h)
  case eng =>
    obtain hsame | htake | ⟨b, hend⟩ := engStep_guard_cases hpop h
    · exact .inl hsame
    · exact .inr (.inl ⟨rfl, htake⟩)
    · exact .inr (.inr (.inl ⟨b, rfl, hend⟩))
  case fop => cases h; exact .inl (congrArg Engine.guard (fopStep_keeps (popTurn s)).1)
  case reset => cases h; exact .inr (.inr (.inr ⟨rfl, rfl, rfl⟩))
  case extRelock => cases h; exact .inl (congrArg Engine.guard (extRelockMove_keeps (popTurn s)).1)

/-- Settles O32: by what a step can do to the guard. -/
theorem guardBeginsAndEndsByRule : Obligations.GuardBeginsAndEndsByRule := by
  intro s t hinv h
  refine ⟨fun hnone hsome => ?_, fun b hb => ?_⟩
  · obtain hsame | ⟨hg, hp, -, ht⟩ | ⟨b, -, -, hb, -⟩ | ⟨-, ht, -⟩ := step_guard_cases hinv h
    · exact absurd (hsame.trans hnone) hsome
    · exact ⟨hg, hp, ht⟩
    · simp [hnone] at hb
    · exact absurd ht hsome
  · obtain hsame | ⟨-, -, hnone, -⟩ | ⟨b', hg, hp, hb', ht, hl⟩ | hreset := step_guard_cases hinv h
    · exact .inl (hsame.trans hb)
    · simp [hb] at hnone
    · cases hb.symm.trans hb'
      exact .inr (.inl ⟨hg, hp, ht, hl⟩)
    · exact .inr (.inr hreset)

end Sys2Proof.Machine

/-! PROOF. The short commands from acceptance to answer: UNLOCK and LOCK (spec 40_lock_unlock R129, R130), ACQUIRE and
RELEASE (42_guard R151, R152), the empty range (44_buffered_access R194) and a failing PRECHECK (41_status R143). -/

namespace Sys2Proof.Machine

/-! ### The key sequence -/

section Keys

variable {s : State}

/-- Both keys on a checker that has seen none (40_lock_unlock R124, R125). -/
theorem keyWrite_both_idle {c : Config} {r : Regs} (hk : r.kstate = .idle) :
    keyWrite c c.key2 (keyWrite c c.key1 r) = { r with lock := false } := by
  rw [keyWrite_first hk, keyWrite_second (r := { r with kstate := .half }) rfl, ← hk]

/-- Both keys on a dead checker (40_lock_unlock R127). -/
theorem keyWrite_both_dead {c : Config} {r : Regs} (hk : r.kstate = .dead) :
    keyWrite c c.key2 (keyWrite c c.key1 r) = r := by
  rw [keyWrite_dead hk, keyWrite_dead hk]

/-- The state after both key writes of UNLOCK or ACQUIRE, with `Ok` answered. -/
def keysWritten (s : State) : State :=
  { s with
    reply := .done, regs := keyWrite s.cfg s.cfg.key2 (keyWrite s.cfg s.cfg.key1 s.regs)
    eng := { s.eng with phase := .idle, rsp := rspWord .ok } }

/-- The two key writes on a locked flash, unless a half-entered sequence was left behind. -/
theorem runsTo_keys (hr : s.reply ≠ .stalled) (hl : s.regs.lock = true) (hk : s.regs.kstate ≠ .half)
    (hp : s.eng.phase = .ul1 ∨ s.eng.phase = .aq2) : RunsTo (engTurns 2) s (keysWritten s) := by
  obtain ⟨hl1, -⟩ := keyWrite_first_ok (c := s.cfg) hl hk
  rcases hp with hp | hp
  · exact .eng_cons (engStep_firstKey hr hl (.inl ⟨hp, rfl⟩)) (.eng (engStep_secondKey nofun hl1 (.inl rfl)))
  · exact .eng_cons (engStep_firstKey hr hl (.inr ⟨hp, rfl⟩)) (.eng (engStep_secondKey nofun hl1 (.inr rfl)))

/-- LOCK read as 1 at `UL0` or `AQ1`, then both keys. -/
theorem runsTo_unlock {p : Phase} (hv : s.cfg.Valid) (hw : s.regs.pnb.toNat < 2 ^ s.cfg.pnbWidth)
    (hr : s.reply ≠ .stalled) (hl : s.regs.lock = true) (hk : s.regs.kstate ≠ .half)
    (hp : s.eng.phase = .ul0 ∧ p = .ul1 ∨ s.eng.phase = .aq1 ∧ p = .aq2) :
    RunsTo (engTurns 3) s (keysWritten s) := by
  have hread : engStep s = .next (goto p (returned (crWord s.cfg s.regs) s)) := by
    rw [engStep_readLock hr hp, unlockIfLocked_locked (s := returned _ s) hv hw rfl hl]
  refine .eng_cons hread (runsTo_keys (s := goto p (returned _ s)) nofun hl hk ?_)
  rcases hp with ⟨-, rfl⟩ | ⟨-, rfl⟩
  · exact .inl rfl
  · exact .inr rfl

end Keys

/-- Settles O22: acceptance; one read of CR where LOCK is 0, and both key writes after it where LOCK is 1. -/
theorem unlockRunsTheKeySequence : Obligations.UnlockRunsTheKeySequence := by
  intro s c rest hv hw hi
  have hlocked : s.regs.lock = true → s.regs.kstate ≠ .half →
      RunsTo (engTurns 3) (accepted 0x02#8 .ul0 c s) (keysWritten (accepted 0x02#8 .ul0 c s)) :=
    fun hl hk => runsTo_unlock hv hw nofun hl hk (.inl ⟨rfl, rfl⟩)
  refine ⟨present_accepted hi rfl, fun hl => ?_, fun hl hk => ?_, fun hl hk => ?_⟩
  · have hread := engStep_readLock (s := accepted 0x02#8 .ul0 c s) nofun (.inl ⟨rfl, rfl⟩)
    rw [unlockIfLocked_unlocked (s := returned _ (accepted 0x02#8 .ul0 c s)) hv hw rfl hl] at hread
    exact (RunsTo.eng hread).run rfl rest
  · rw [← keyWrite_both_idle (c := s.cfg) hk]
    exact (hlocked hl (by simp [hk])).run rfl rest
  · have hrun := (hlocked hl (by simp [hk])).run rfl rest
    rw [keysWritten, keyWrite_both_dead (r := (accepted 0x02#8 .ul0 c s).regs) hk] at hrun
    exact hrun

/-- Settles O23: acceptance, then one turn of ENG that re-locks. -/
theorem lockCommandLocks : Obligations.LockCommandLocks := by
  intro s c rest hi
  refine ⟨present_accepted hi rfl, ?_⟩
  have hstep := engStep_completes (s := accepted 0x03#8 .lk0 c s) (i := .modCrLock (bitWord true)) nofun rfl rfl
    (execModCrLock_one (fieldBit_bitWord true) _) rfl
  rw [← relock_eq]
  exact (RunsTo.eng hstep).run rfl rest

/-- Settles O30: acceptance and the reading of LOCK into the guard; where LOCK is 1 it is read again and both keys
follow. -/
theorem acquireRecordsTheLockBit : Obligations.AcquireRecordsTheLockBit := by
  intro s c rest hv hw hi hg
  have hcr : crLock s.cfg (crWord s.cfg s.regs) = s.regs.lock := crLock_crWord hv hw
  have htake := engStep_takeGuard (s := accepted 0x0B#8 .aq0 c s) nofun rfl
  change engStep _ = Host.Outcome.next (unlockIfLocked .aq1 (setGuard (.held (crLock s.cfg (crWord s.cfg s.regs)))
    (returned (crWord s.cfg s.regs) (accepted 0x0B#8 .aq0 c s)))) at htake
  rw [hcr] at htake
  have hlocked : s.regs.lock = true → s.regs.kstate ≠ .half →
      RunsTo (engTurns 4) (accepted 0x0B#8 .aq0 c s)
        (keysWritten (goto .aq1 (setGuard (.held true)
          (returned (crWord s.cfg s.regs) (accepted 0x0B#8 .aq0 c s))))) := by
    intro hl hk
    rw [hl, unlockIfLocked_locked (s := setGuard _ (returned _ (accepted 0x0B#8 .aq0 c s))) hv hw rfl hl] at htake
    exact .eng_cons htake (runsTo_unlock hv hw nofun hl hk (.inr ⟨rfl, rfl⟩))
  refine ⟨present_accepted hi (by simp [isHeld_eq_false.2 hg]), fun hl => ?_, fun hl hk => ?_, fun hl hk => ?_⟩
  · rw [hl, unlockIfLocked_unlocked (s := setGuard _ (returned _ (accepted 0x0B#8 .aq0 c s))) hv hw rfl hl] at htake
    exact (RunsTo.eng htake).run rfl rest
  · rw [← keyWrite_both_idle (c := s.cfg) hk]
    exact (hlocked hl (by simp [hk])).run rfl rest
  · have hrun := (hlocked hl (by simp [hk])).run rfl rest
    rw [keysWritten, goto_cfg, goto_regs, setGuard_cfg, setGuard_regs, returned_cfg, returned_regs,
      keyWrite_both_dead (r := (accepted 0x0B#8 .aq0 c s).regs) hk] at hrun
    exact hrun

/-- Settles O31: acceptance, then one turn of ENG by the guard. -/
theorem releaseRestoresTheLock : Obligations.ReleaseRestoresTheLock := by
  intro s c rest hi
  refine ⟨fun hg => ⟨present_accepted hi (isHeld_eq_true.2 ⟨_, hg⟩), ?_⟩,
    fun hg => ⟨present_accepted hi (isHeld_eq_true.2 ⟨_, hg⟩), ?_⟩⟩
  · have hstep := engStep_relock (s := accepted 0x0C#8 .rl0 c s) nofun (.inl rfl) hg
    rw [← relock_eq]
    exact (RunsTo.eng hstep).run rfl rest
  · have hnot : s.eng.guard ≠ .held true := by simp [hg]
    have hstep := engStep_noRelock (s := accepted 0x0C#8 .rl0 c s) nofun (.inl rfl) hnot
    exact (RunsTo.eng hstep).run rfl rest

/-! ### The empty range -/

/-- `WR0` past the last stride answers `Ok`; before it, it goes on to the native write sequence (44_buffered_access
R192). -/
theorem engStep_wr0 {s : State} (hr : s.reply ≠ .stalled) (hp : s.eng.phase = .wr0) :
    engStep s = .next (if s.eng.i = strides s then respond .ok { s with reply := .none }
      else goto .wn0 { s with reply := .none }) := by
  rw [engStep_silent (by simp [hp]) (by simp [hp]) hr (addressFits_of_phase (by simp [hp]))
    (by simp only [transaction, hp]), advance_completed rfl]
  simp only [afterTransaction, hp]
  rfl

/-- WRITE goes from its first label to its first stride. -/
theorem runsTo_firstStride {s : State} {c : CmdArgs} (hv : s.cfg.Valid) (hn : c.n.toNat % s.cfg.nu = 0)
    (hpos : 0 < c.n.toNat) : RunsTo (engTurns 1) (accepted writeOpcode .wr0 c s) (accepted writeOpcode .wn0 c s) := by
  have hstrides : 0 < c.n.toNat / s.cfg.nu :=
    Nat.div_pos (Nat.le_of_dvd hpos (Nat.dvd_of_mod_eq_zero hn)) hv.nu_pos
  have hleft : ¬(accepted writeOpcode .wr0 c s).eng.i = strides (accepted writeOpcode .wr0 c s) := hstrides.ne
  exact .eng ((engStep_wr0 (s := accepted writeOpcode .wr0 c s) nofun rfl).trans (by rw [if_neg hleft]; rfl))

/-- Settles O45: the checks hold, and the first step of either command finds no stride to do. -/
theorem emptyRangeTouchesNothing : Obligations.EmptyRangeTouchesNothing := by
  intro s c rest hi hn ha hlo hhi
  have hzero : c.n.toNat = 0 := by simp [hn]
  have hread : RunsTo [.eng] (accepted 0x07#8 .rd0 c s) (respond .okData (accepted 0x07#8 .rd0 c s)) := by
    have hend : (accepted 0x07#8 .rd0 c s).eng.i = strides (accepted 0x07#8 .rd0 c s) := by
      simp [strides, accepted, hzero]
    refine .eng ?_
    rw [engStep_silent (s := accepted 0x07#8 .rd0 c s) nofun nofun nofun
      (by simp [addressFits, accepted, strides, hzero])
      (transaction_rd0_end rfl hend), advance_completed rfl]
    exact congrArg _ (readStep_end hend)
  refine ⟨⟨present_accepted hi (rangeChecks_iff.2 ⟨ha, by simp [hzero], hlo, by omega⟩), hread.run rfl rest⟩,
    fun b hg hpay => ⟨?_, ?_⟩⟩
  · refine present_accepted hi ((writeChecks_iff (isHeld_eq_true.2 ⟨b, hg⟩)).2
      ⟨ha, by simp [hzero], hlo, by omega, by simp [hpay, hzero]⟩)
  · have hstep := engStep_wr0 (s := accepted 0x08#8 .wr0 c s) nofun rfl
    rw [if_pos (by simp [strides, accepted, hzero])] at hstep
    exact (RunsTo.eng hstep).run rfl rest

/-! ### PRECHECK on a flash that is not clean -/

/-- The first error of the decoder, from the flags (41_status R141). -/
theorem decodeFlags_error {r : Regs} {e : FlashError}
    (h : r.bsy = true ∧ e = .busy ∨ r.bsy = false ∧ r.progErr = true ∧ e = .programmingError ∨
      r.bsy = false ∧ r.progErr = false ∧ r.wrpErr = true ∧ e = .writeProtectionError) :
    decodeFlags r.bsy r.progErr r.wrpErr = .err e := by
  obtain ⟨hb, rfl⟩ | ⟨hb, hp, rfl⟩ | ⟨hb, hp, hw, rfl⟩ := h
  · rw [hb, decodeFlags_busy]
  · rw [hb, hp, decodeFlags_progErr]
  · rw [hb, hp, hw, decodeFlags_wrpErr]

/-- A failing PRECHECK at its three labels ends the command after the one read of SR. -/
theorem runsTo_precheck_unclean {s : State} {p q : Phase} {e : FlashError} (hv : s.cfg.Valid) (hr : s.reply ≠ .stalled)
    (hp : s.eng.phase = p) (hpq : (p, q) ∈ [(Phase.wn0, Phase.wn1), (Phase.ep0, Phase.ep1), (Phase.ea0, Phase.ea1)])
    (hd : decodeFlags s.regs.bsy s.regs.progErr s.regs.wrpErr = .err e) :
    RunsTo [.eng] s (finishAt p (.err e) (returned (srWord s.cfg s.regs) s)) := by
  refine .eng ?_
  rw [engStep_precheck hr hp hpq, precheck_unclean (s := returned _ s) hv rfl hd nofun]

/-- Settles O29: acceptance, then the read of SR; in WRITE after the step that enters the stride. -/
theorem precheckFailureChangesNothing : Obligations.PrecheckFailureChangesNothing := by
  intro s c rest b e hv hi hg hflags
  have hheld : s.eng.guard.isHeld = true := isHeld_eq_true.2 ⟨b, hg⟩
  have hd := decodeFlags_error hflags
  refine ⟨⟨present_accepted hi hheld, ?_⟩, fun ha => ⟨present_accepted hi ((erasePageChecks_iff hheld).2 ha), ?_⟩,
    fun ha hlo hhi hl => ⟨present_accepted hi ((writeNativeChecks_iff hheld).2 ⟨ha, hlo, hhi, hl⟩), ?_⟩,
    fun ha hn hlo hhi hl hpos => ⟨present_accepted hi ((writeChecks_iff hheld).2 ⟨ha, hn, hlo, hhi, hl⟩), ?_⟩⟩
  · exact (runsTo_precheck_unclean (s := accepted 0x0A#8 .ea0 c s) (p := .ea0) (q := .ea1) hv nofun rfl
      (by decide) hd).run rfl rest
  · exact (runsTo_precheck_unclean (s := accepted 0x09#8 .ep0 c s) (p := .ep0) (q := .ep1) hv nofun rfl
      (by decide) hd).run rfl rest
  · exact (runsTo_precheck_unclean (s := accepted 0x06#8 .wn0 c s) (p := .wn0) (q := .wn1) hv nofun rfl
      (by decide) hd).run rfl rest
  · exact ((runsTo_firstStride hv hn hpos).append (runsTo_precheck_unclean (s := accepted writeOpcode .wn0 c s)
      (p := .wn0) (q := .wn1) hv nofun rfl (by decide) hd)).run rfl rest

end Sys2Proof.Machine

/-! PROOF. FOP completing an operation (spec 43_native_access R165, 45_erase R208, R209). -/

namespace Sys2Proof.Machine

/-! ### The bytes of a unit's words -/

/-- Chunks of four bytes one after the other, byte by byte. -/
theorem getD_flatMap_four {f : Nat → List Byte} (hf : ∀ k, (f k).length = 4) {n m : Nat} (hm : m < 4 * n) :
    ((List.range n).flatMap f).getD m 0#8 = (f (m / 4)).getD (m % 4) 0#8 := by
  induction n with
  | zero => omega
  | succ n ih =>
    have hlen : ((List.range n).flatMap f).length = 4 * n := by
      simp [List.length_flatMap, hf, Nat.mul_comm]
    rw [List.range_succ, List.flatMap_append, List.flatMap_singleton]
    by_cases hlt : m < 4 * n
    · rw [List.getD_append _ _ _ _ (by omega), ih hlt]
    · have hdiv : m / 4 = n := by omega
      have hmod : m - 4 * n = m % 4 := by omega
      rw [List.getD_append_right _ _ _ _ (by omega), hlen, hmod, hdiv]

/-- Byte `m` of a unit is byte `m mod 4` of its word `m / 4` (20_memory R63). -/
theorem getD_unitBytes {c : Config} (hv : c.Valid) (ws : List Word) {m : Nat} (hm : m < c.nu) :
    (unitBytes c ws).getD m 0#8 = (bytesOf c.endian (ws.getD (m / 4) 0#32)).getD (m % 4) 0#8 :=
  getD_flatMap_four (fun _ => length_bytesOf _ _) (by rw [unitWords_mul hv]; exact hm)

/-! ### The three ends of a programming operation, and the two of an erase -/

section Complete

variable {c : Config} {d o p : Nat} {ws : List Word} {r : Regs}

/-- On a protected page (43_native_access R165; D18). -/
theorem complete_prog_protected (h : pageOf c o ∈ c.wp) :
    complete c d (.prog o ws) r = endOperation { r with wrpErr := true } := by
  simp only [complete, completeProg, h, if_true]

/-- On an erased unit (43_native_access R165; D17). -/
theorem complete_prog_erased (h : pageOf c o ∉ c.wp) (he : unitErased c r.arr o = true) :
    complete c d (.prog o ws) r = endOperation { r with arr := Memory.writeBytes r.arr o (unitBytes c ws) } := by
  simp only [complete, completeProg, h, he, if_true, if_false]

/-- On any other unit (43_native_access R165; 93 U9). -/
theorem complete_prog_dirty (h : pageOf c o ∉ c.wp) (he : unitErased c r.arr o = false) :
    complete c d (.prog o ws) r = endOperation { r with progErr := true, arr := Memory.scramble r.arr d o c.nu } := by
  simp only [complete, completeProg, h, he, Bool.false_eq_true, if_false]

/-- A protected page (45_erase R208; D18). -/
theorem complete_page_protected (h : p ∈ c.wp) :
    complete c d (.erasePage p) r = endOperation { r with wrpErr := true } := by
  simp only [complete, completeErasePage, h, if_true]

/-- An unprotected page (45_erase R208). -/
theorem complete_page_erased (h : p ∉ c.wp) :
    complete c d (.erasePage p) r = endOperation { r with arr := Memory.erase r.arr (p * c.pageSize) c.pageSize } := by
  simp only [complete, completeErasePage, h, if_false]

/-- A mass erase while some page is protected (45_erase R209; D18). -/
theorem complete_all_protected (h : c.wp ≠ []) :
    complete c d .eraseAll r = endOperation { r with wrpErr := true } := by
  simp only [complete, completeEraseAll, h, if_false]

/-- A mass erase while none is (45_erase R209). -/
theorem complete_all_erased (h : c.wp = []) :
    complete c d .eraseAll r = endOperation { r with arr := Memory.erase r.arr 0 c.flashBytes } := by
  simp only [complete, completeEraseAll, h, if_true]

/-- A unit is erased exactly when all its bytes read 0xFF, and else some byte does not. -/
theorem unitErased_eq_false {m : Memory} : unitErased c m o = false ↔ ∃ k < c.nu, Memory.read m (o + k) ≠ 0xFF#8 := by
  rw [← Bool.not_eq_true, unitErased_iff]
  simp [erasedByte]

/-- Completing an operation keeps the array in canonical form. -/
theorem wf_complete {f : Operation} (h : Memory.wf r.arr = true) : Memory.wf (complete c d f r).arr = true := by
  cases f with
  | prog o ws =>
    by_cases hp : pageOf c o ∈ c.wp
    · rw [complete_prog_protected hp]; exact h
    · cases he : unitErased c r.arr o with
      | true => rw [complete_prog_erased hp he]; exact wf_writeBytes _ _ h
      | false => rw [complete_prog_dirty hp he]; exact wf_scramble _ _ _ h
  | erasePage p =>
    by_cases hp : p ∈ c.wp
    · rw [complete_page_protected hp]; exact h
    · rw [complete_page_erased hp]; exact wf_erase _ _ h
  | eraseAll =>
    by_cases hw : c.wp = []
    · rw [complete_all_erased hw]; exact wf_erase _ _ h
    · rw [complete_all_protected hw]; exact h

/-- A programming operation changes no byte outside its unit. -/
theorem read_complete_prog_outside (hv : c.Valid) (hwf : Memory.wf r.arr = true) {m : Nat}
    (hm : ¬(o ≤ m ∧ m < o + c.nu)) : Memory.read (complete c d (.prog o ws) r).arr m = Memory.read r.arr m := by
  by_cases hp : pageOf c o ∈ c.wp
  · rw [complete_prog_protected hp]; rfl
  · cases he : unitErased c r.arr o with
    | true =>
      rw [complete_prog_erased hp he]
      exact (read_writeBytes _ _ _ hwf).trans (if_neg (by rwa [length_unitBytes_nu hv]))
    | false =>
      rw [complete_prog_dirty hp he]
      exact (read_scramble _ _ _ _ hwf).trans (if_neg hm)

end Complete

/-- FOP's step with an operation in flight. -/
theorem step_fop {s : State} {f : Operation} (hg : agentOf s = .fop) (hf : s.regs.inflight = some f) :
    step s = .next { s with
      regs := complete s.cfg s.draws f s.regs, sched := s.sched.tail, draws := s.draws + 1 } :=
  (step_turn hg).trans (congrArg _ (fopStep_some (s := popTurn s) hf))

/-- Settles O37: a protected page, an erased unit, any other. -/
theorem programmingCompletes : Obligations.ProgrammingCompletes := by
  intro s o ws hv hwf hg hf
  refine ⟨_, step_fop hg hf, ?_, wf_complete hwf, fun m hm => read_complete_prog_outside hv hwf hm, fun hp => ?_,
    fun hp he => ?_, fun hp he => ?_⟩
  · exact congrArg (fun r => { s with regs := r, sched := s.sched.tail, draws := s.draws + 1 }) (complete_frame ..)
  · simp only [complete_prog_protected (c := s.cfg) (o := o) hp]
    exact ⟨rfl, rfl, rfl⟩
  · simp only [complete_prog_erased (c := s.cfg) (o := o) hp ((unitErased_iff ..).2 he)]
    refine ⟨rfl, rfl, fun m hm => ?_⟩
    refine (read_writeBytes _ _ _ hwf).trans ?_
    rw [if_pos (by rw [length_unitBytes_nu hv]; omega), Nat.add_sub_cancel_left, getD_unitBytes hv ws hm]
  · simp only [complete_prog_dirty (c := s.cfg) (o := o) hp (unitErased_eq_false.2 he)]
    exact ⟨rfl, rfl⟩

/-- Settles O49: a page or the whole array, protected or not. -/
theorem erasingCompletes : Obligations.ErasingCompletes := by
  intro s hg hwf f hf
  have hframe : ∀ f, (∀ o ws, f ≠ .prog o ws) → complete s.cfg s.draws f s.regs =
      { s.regs with
        bsy := false, inflight := none, wrpErr := (complete s.cfg s.draws f s.regs).wrpErr
        arr := (complete s.cfg s.draws f s.regs).arr } := by
    intro f hno
    conv_lhs => rw [complete_frame, complete_erase_progErr hno]
  refine ⟨?_, ?_⟩
  · rintro p rfl
    refine ⟨_, step_fop hg hf, ?_, wf_complete hwf, fun hp => ?_, fun hp => ?_⟩
    · exact congrArg (fun r => { s with regs := r, sched := s.sched.tail, draws := s.draws + 1 })
        (hframe (.erasePage p) nofun)
    · simp only [complete_page_protected hp]
      exact ⟨rfl, rfl⟩
    · simp only [complete_page_erased hp]
      exact ⟨rfl, fun m => read_erase ..⟩
  · rintro rfl
    refine ⟨_, step_fop hg hf, ?_, wf_complete hwf, fun hw => ?_, fun hw => ?_⟩
    · exact congrArg (fun r => { s with regs := r, sched := s.sched.tail, draws := s.draws + 1 })
        (hframe .eraseAll nofun)
    · simp only [complete_all_protected hw]
      exact ⟨rfl, rfl⟩
    · simp only [complete_all_erased hw]
      exact ⟨rfl, fun m => (read_erase ..).trans (by simp [erasedByte])⟩

end Sys2Proof.Machine

/-! PROOF. The erase commands from acceptance to answer, and POLL with FOP completing after any number of busy reads
(spec 41_status R144, 45_erase R210, R211). -/

namespace Sys2Proof.Machine

/-! ### POLL -/

section Poll

variable {s : State}

/-- `s` with the operation in flight completed after `k` busy reads, and POLL gone on to `q`. -/
def pollEnded (q : Phase) (k : Nat) (f : Operation) (s : State) : State :=
  { s with
    reply := .data (srWord s.cfg (complete s.cfg s.draws f s.regs)), regs := complete s.cfg s.draws f s.regs
    draws := s.draws + 1, eng := { s.eng with phase := q, polls := k + s.eng.polls } }

/-- POLL of a busy flash counts a read that the budget allows. -/
theorem engStep_poll_busy {p q : Phase} (hv : s.cfg.Valid) (hr : s.reply ≠ .stalled) (hp : s.eng.phase = p)
    (hpq : (p, q) ∈ [(Phase.wn3, Phase.wn4), (Phase.ep4, Phase.ep5), (Phase.ea3, Phase.ea4)])
    (hb : s.regs.bsy = true) (ha : Affordable s.cfg (s.eng.polls + 1)) :
    engStep s = .next (setPolls (s.eng.polls + 1) (returned (srWord s.cfg s.regs) s)) := by
  rw [engStep_poll hr hp hpq,
    poll_counts (s := returned _ s) hv rfl hb fun hspent => absurd (ha _ hspent) (Nat.lt_irrefl _)]
  rfl

/-- POLL of a flash that is not busy goes on. -/
theorem engStep_poll_done {p q : Phase} (hv : s.cfg.Valid) (hr : s.reply ≠ .stalled) (hp : s.eng.phase = p)
    (hpq : (p, q) ∈ [(Phase.wn3, Phase.wn4), (Phase.ep4, Phase.ep5), (Phase.ea3, Phase.ea4)])
    (hb : s.regs.bsy = false) : engStep s = .next (goto q (returned (srWord s.cfg s.regs) s)) := by
  rw [engStep_poll hr hp hpq, poll_done (s := returned _ s) hv rfl hb]

/-- POLL with FOP completing the operation after `k` busy reads, by induction on `k` (41_status R144). -/
theorem runsTo_poll {p q : Phase} {f : Operation} {k : Nat} (hv : s.cfg.Valid) (hr : s.reply ≠ .stalled)
    (hp : s.eng.phase = p)
    (hpq : (p, q) ∈ [(Phase.wn3, Phase.wn4), (Phase.ep4, Phase.ep5), (Phase.ea3, Phase.ea4)])
    (hb : s.regs.bsy = true) (hf : s.regs.inflight = some f) (ha : Affordable s.cfg (k + s.eng.polls)) :
    RunsTo (engTurns k ++ [.fop, .eng]) s (pollEnded q k f s) := by
  induction k generalizing s with
  | zero =>
    have hend : pollEnded q 0 f s = goto q (returned (srWord s.cfg (complete s.cfg s.draws f s.regs))
        { withRegs (complete s.cfg s.draws f s.regs) s with draws := s.draws + 1 }) := by
      simp only [pollEnded, Nat.zero_add]; rfl
    refine .fop_cons (.eng ?_)
    rw [fopStep_some hf, hend]
    exact engStep_poll_done (s := { withRegs (complete s.cfg s.draws f s.regs) s with draws := s.draws + 1 }) hv hr hp
      hpq (by rw [withRegs_regs, complete_frame])
  | succ k ih =>
    have hone : Affordable s.cfg (s.eng.polls + 1) := fun b hb => Nat.lt_of_le_of_lt (by omega) (ha b hb)
    have hcount : k + 1 + s.eng.polls = k + (s.eng.polls + 1) := Nat.add_right_comm k 1 s.eng.polls
    have hrest : Affordable s.cfg (k + (s.eng.polls + 1)) := hcount ▸ ha
    have hend : pollEnded q (k + 1) f s =
        pollEnded q k f (setPolls (s.eng.polls + 1) (returned (srWord s.cfg s.regs) s)) := by
      simp only [pollEnded, setPolls, returned, hcount]
    rw [hend]
    exact .eng_cons (engStep_poll_busy hv hr hp hpq hb hone) (ih hv nofun hp hb hf hrest)

end Poll

/-- The schedule of a command that FOP completes during its POLL. -/
theorem fopAfter_eq (a k : Nat) : fopAfter (a + k) 3 = engTurns a ++ (engTurns k ++ [.fop, .eng]) ++ engTurns 2 := by
  rw [fopAfter, engTurns_add, List.append_assoc, List.append_assoc, List.append_assoc]
  rfl

/-! ### The premises of a quiet entry, on the register layer -/

/-- Nothing in flight or half stored, no error recorded, no control bit set (70_reset R279). -/
structure CleanRegs (r : Regs) : Prop extends Quiet r where
  nothing_in_flight : r.inflight = none
  no_progErr : r.progErr = false
  no_wrpErr : r.wrpErr = false

theorem State.QuietEntry.clean {s : State} (h : s.QuietEntry) : CleanRegs s.regs where
  not_busy := h.not_busy
  no_pg := h.no_pg
  no_per := h.no_per
  no_mer1 := h.no_mer1
  buffer_empty := h.buffer_empty
  nothing_in_flight := h.nothing_in_flight
  no_progErr := h.no_progErr
  no_wrpErr := h.no_wrpErr

/-- Clean registers with every premise written out. -/
theorem CleanRegs.eq {r : Regs} (h : CleanRegs r) :
    r = { r with
      bsy := false, pg := false, per := false, mer1 := false, wcnt := 0, inflight := none, progErr := false
      wrpErr := false } := by
  obtain ⟨⟨hb, hpg, hper, hmer, hcnt⟩, hf, hpe, hwe⟩ := h
  cases r
  simp_all

/-! ### The end of both erases -/

section EraseEnd

/-- `s` with an erase answered from the register layer `r`, after `k` busy reads. -/
def eraseEnded (k : Nat) (r : Regs) (s : State) : State :=
  { s with
    reply := .data (srWord s.cfg r), regs := r
    eng := { s.eng with phase := .idle, polls := k, rsp := rspWord (decodeFlags false r.progErr r.wrpErr) } }

/-- `s` with one operation completed by FOP. -/
def drawn (s : State) : State := { s with draws := s.draws + 1 }

/-- The last read of either erase, with BSY = 0. -/
theorem engStep_endErase {s : State} (hv : s.cfg.Valid) (hr : s.reply ≠ .stalled)
    (hp : s.eng.phase = .ep6 ∨ s.eng.phase = .ea5) (hb : s.regs.bsy = false) :
    engStep s = .next (eraseEnded s.eng.polls s.regs s) := by
  rw [engStep_eraseStatus hv hr hp, hb]
  rfl

end EraseEnd

/-! ### ERASE_PAGE -/

section ErasePage

variable {s : State}

/-- `EP2` writes the page index whole, since it fits the field. -/
theorem engStep_ep2_inRange (hv : s.cfg.Valid) (hr : s.reply ≠ .stalled) (hp : s.eng.phase = .ep2)
    (hb : s.regs.bsy = false) (ha : s.eng.a.toNat < s.cfg.pageCount) :
    engStep s = .next (goto .ep3 (wrote { s.regs with pnb := s.eng.a } s)) := by
  rw [engStep_ep2 hr hp hb, pnbField_eq hv ha]

/-- The register layer of `s` with the erase of the engine's page armed. -/
def pageArmed (s : State) : Regs := { s.regs with per := true, pnb := s.eng.a }

/-- `s` at `EP3` with the erase armed. -/
def atPageStart (s : State) : State :=
  { s with reply := .done, regs := pageArmed s, eng := { s.eng with phase := .ep3 } }

/-- PRECHECK and the two control writes of ERASE_PAGE. -/
theorem runsTo_armPage (hv : s.cfg.Valid) (hr : s.reply ≠ .stalled) (hp : s.eng.phase = .ep0) (hc : CleanRegs s.regs)
    (ha : s.eng.a.toNat < s.cfg.pageCount) : RunsTo (engTurns 3) s (atPageStart s) := by
  have hpre := engStep_precheck (q := .ep1) hr hp (by decide)
  rw [precheck_clean (s := returned _ s) hv rfl hc.not_busy hc.no_progErr hc.no_wrpErr] at hpre
  exact .eng_cons hpre (.eng_cons (engStep_ep1 nofun rfl hc.not_busy)
    (.eng (engStep_ep2_inRange hv nofun rfl hc.not_busy ha)))

/-- The end of ERASE_PAGE once BSY is 0. -/
theorem runsTo_endPage (hv : s.cfg.Valid) (hr : s.reply ≠ .stalled) (hp : s.eng.phase = .ep5)
    (hb : s.regs.bsy = false) : RunsTo (engTurns 2) s (eraseEnded s.eng.polls { s.regs with per := false } s) :=
  .eng_cons (engStep_ep5 hr hp hb)
    (.eng (engStep_endErase (s := goto .ep6 (wrote { s.regs with per := false } s)) hv nofun (.inl rfl) hb))

/-- The register layer once FOP has completed the erase of the engine's page. -/
def pageCompleted (s : State) : Regs :=
  complete s.cfg s.draws (.erasePage s.eng.a.toNat) (startOperation (.erasePage s.eng.a.toNat) (pageArmed s))

/-- ERASE_PAGE on an unlocked flash, with FOP completing the erase after `k` busy reads (45_erase R210). -/
theorem runsTo_erasePage {k : Nat} (hv : s.cfg.Valid) (hr : s.reply ≠ .stalled) (hp : s.eng.phase = .ep0)
    (hc : CleanRegs s.regs) (hl : s.regs.lock = false) (ha : s.eng.a.toNat < s.cfg.pageCount)
    (hk : Affordable s.cfg k) :
    RunsTo (fopAfter (4 + k) 3) s (eraseEnded k { pageCompleted s with per := false } (drawn s)) := by
  have hstart := engStep_start (s := atPageStart s) nofun (.inl ⟨rfl, rfl⟩)
    (execModCrStart_page (fieldBit_bitWord true) hc.not_busy hl hc.no_pg rfl hc.no_mer1 ha)
  have hbsy : (pageCompleted s).bsy = false := by rw [pageCompleted, complete_frame]
  rw [fopAfter_eq]
  exact (((runsTo_armPage hv hr hp hc ha).append (.eng hstart)).append
    (runsTo_poll (p := .ep4) hv nofun rfl (by decide) rfl rfl hk)).append (runsTo_endPage hv nofun rfl hbsy)

/-- ERASE_PAGE on a locked flash: nothing starts and WRPERR is set (45_erase R205). -/
theorem runsTo_erasePage_locked (hv : s.cfg.Valid) (hr : s.reply ≠ .stalled) (hp : s.eng.phase = .ep0)
    (hc : CleanRegs s.regs) (hl : s.regs.lock = true) (ha : s.eng.a.toNat < s.cfg.pageCount) :
    RunsTo (engTurns 7) s (eraseEnded 0 { s.regs with wrpErr := true, pnb := s.eng.a } s) := by
  have hstart := engStep_start (s := atPageStart s) nofun (.inl ⟨rfl, rfl⟩)
    (execModCrStart_locked (fieldBit_bitWord true) hc.not_busy hl)
  have hend : { pageArmed s with wrpErr := true, per := false } = { s.regs with wrpErr := true, pnb := s.eng.a } := by
    rw [← hc.no_per]
    rfl
  rw [← hend]
  exact (((runsTo_armPage hv hr hp hc ha).append (.eng hstart)).append
    (.eng (engStep_poll_done (p := .ep4) hv nofun rfl (by decide) hc.not_busy))).append
      (runsTo_endPage hv nofun rfl hc.not_busy)

/-- The registers an erase of an unprotected page leaves. -/
theorem pageCompleted_erased (hc : CleanRegs s.regs) (hwp : s.eng.a.toNat ∉ s.cfg.wp) :
    { pageCompleted s with per := false } =
      { s.regs with
        pnb := s.eng.a, arr := Memory.erase s.regs.arr (s.eng.a.toNat * s.cfg.pageSize) s.cfg.pageSize } := by
  rw [pageCompleted, complete_page_erased hwp, pageArmed, hc.eq]
  rfl

/-- The registers an erase of a write-barred page leaves. -/
theorem pageCompleted_barred (hc : CleanRegs s.regs) (hwp : s.eng.a.toNat ∈ s.cfg.wp) :
    { pageCompleted s with per := false } = { s.regs with wrpErr := true, pnb := s.eng.a } := by
  rw [pageCompleted, complete_page_protected hwp, pageArmed, hc.eq]
  rfl

end ErasePage

/-! ### ERASE_ALL -/

section EraseAll

variable {s : State}

/-- The register layer of `s` with the mass erase armed. -/
def allArmed (s : State) : Regs := { s.regs with mer1 := true }

/-- `s` at `EA2` with the mass erase armed. -/
def atAllStart (s : State) : State :=
  { s with reply := .done, regs := allArmed s, eng := { s.eng with phase := .ea2 } }

/-- PRECHECK and the control write of ERASE_ALL. -/
theorem runsTo_armAll (hv : s.cfg.Valid) (hr : s.reply ≠ .stalled) (hp : s.eng.phase = .ea0) (hc : CleanRegs s.regs) :
    RunsTo (engTurns 2) s (atAllStart s) := by
  have hpre := engStep_precheck (q := .ea1) hr hp (by decide)
  rw [precheck_clean (s := returned _ s) hv rfl hc.not_busy hc.no_progErr hc.no_wrpErr] at hpre
  exact .eng_cons hpre (.eng (engStep_ea1 nofun rfl hc.not_busy))

/-- The end of ERASE_ALL once BSY is 0. -/
theorem runsTo_endAll (hv : s.cfg.Valid) (hr : s.reply ≠ .stalled) (hp : s.eng.phase = .ea4)
    (hb : s.regs.bsy = false) : RunsTo (engTurns 2) s (eraseEnded s.eng.polls { s.regs with mer1 := false } s) :=
  .eng_cons (engStep_ea4 hr hp hb)
    (.eng (engStep_endErase (s := goto .ea5 (wrote { s.regs with mer1 := false } s)) hv nofun (.inr rfl) hb))

/-- The register layer once FOP has completed the mass erase. -/
def allCompleted (s : State) : Regs :=
  complete s.cfg s.draws .eraseAll (startOperation .eraseAll (allArmed s))

/-- ERASE_ALL on an unlocked flash, with FOP completing the erase after `k` busy reads (45_erase R211). -/
theorem runsTo_eraseAll {k : Nat} (hv : s.cfg.Valid) (hr : s.reply ≠ .stalled) (hp : s.eng.phase = .ea0)
    (hc : CleanRegs s.regs) (hl : s.regs.lock = false) (hk : Affordable s.cfg k) :
    RunsTo (fopAfter (3 + k) 3) s (eraseEnded k { allCompleted s with mer1 := false } (drawn s)) := by
  have hstart := engStep_start (s := atAllStart s) nofun (.inr ⟨rfl, rfl⟩)
    (execModCrStart_all (fieldBit_bitWord true) hc.not_busy hl hc.no_pg hc.no_per rfl)
  have hbsy : (allCompleted s).bsy = false := by rw [allCompleted, complete_frame]
  rw [fopAfter_eq]
  exact (((runsTo_armAll hv hr hp hc).append (.eng hstart)).append
    (runsTo_poll (p := .ea3) hv nofun rfl (by decide) rfl rfl hk)).append (runsTo_endAll hv nofun rfl hbsy)

/-- ERASE_ALL on a locked flash: nothing starts and WRPERR is set (45_erase R205). -/
theorem runsTo_eraseAll_locked (hv : s.cfg.Valid) (hr : s.reply ≠ .stalled) (hp : s.eng.phase = .ea0)
    (hc : CleanRegs s.regs) (hl : s.regs.lock = true) :
    RunsTo (engTurns 6) s (eraseEnded 0 { s.regs with wrpErr := true } s) := by
  have hstart := engStep_start (s := atAllStart s) nofun (.inr ⟨rfl, rfl⟩)
    (execModCrStart_locked (fieldBit_bitWord true) hc.not_busy hl)
  have hend : { allArmed s with wrpErr := true, mer1 := false } = { s.regs with wrpErr := true } := by
    rw [← hc.no_mer1]
    rfl
  rw [← hend]
  exact (((runsTo_armAll hv hr hp hc).append (.eng hstart)).append
    (.eng (engStep_poll_done (p := .ea3) hv nofun rfl (by decide) hc.not_busy))).append
      (runsTo_endAll hv nofun rfl hc.not_busy)

/-- The registers a mass erase without a write-barred page leaves. -/
theorem allCompleted_erased (hc : CleanRegs s.regs) (hwp : s.cfg.wp = []) :
    { allCompleted s with mer1 := false } = { s.regs with arr := Memory.erase s.regs.arr 0 s.cfg.flashBytes } := by
  rw [allCompleted, complete_all_erased hwp, allArmed, hc.eq]
  rfl

/-- The registers a mass erase with a write-barred page leaves. -/
theorem allCompleted_barred (hc : CleanRegs s.regs) (hwp : s.cfg.wp ≠ []) :
    { allCompleted s with mer1 := false } = { s.regs with wrpErr := true } := by
  rw [allCompleted, complete_all_protected hwp, allArmed, hc.eq]
  rfl

end EraseAll

/-- The schedule of a command that FOP completes during its POLL, in steps. -/
theorem length_fopAfter (a b : Nat) : (fopAfter a b).length = a + b + 1 := by
  simp [fopAfter, Nat.add_assoc]

/-- The last read of SR answers Ok where no error is recorded. -/
theorem decodeFlags_clean {r : Regs} (hc : CleanRegs r) : decodeFlags false r.progErr r.wrpErr = .ok := by
  rw [hc.no_progErr, hc.no_wrpErr]
  rfl

/-- Settles O50: acceptance, and the run of the command; FOP's erase of the page is the only change of the array. -/
theorem erasePageErasesThePage : Obligations.ErasePageErasesThePage := by
  intro s c b k rest hv hce hl hg ha hwp hk
  have hc := hce.toQuietEntry.clean
  have hrun := (runsTo_erasePage (s := accepted 0x09#8 .ep0 c s) hv nofun rfl hc hl ha hk).run
    (length_fopAfter ..) rest
  rw [pageCompleted_erased (s := accepted 0x09#8 .ep0 c s) hc hwp] at hrun
  refine ⟨present_accepted hce.idle ((erasePageChecks_iff (isHeld_eq_true.2 ⟨b, hg⟩)).2 ha), _, hrun, ?_,
    fun m => read_erase ..⟩
  have hrsp := congrArg rspWord (decodeFlags_clean hc)
  simp only [eraseEnded, drawn, scheduled, accepted, hrsp]
  rfl

/-- Settles O51: acceptance, and the run of the command; FOP's mass erase is the only change of the array. -/
theorem eraseAllErasesTheArray : Obligations.EraseAllErasesTheArray := by
  intro s c b k rest hv hce hl hg hwp hk
  have hc := hce.toQuietEntry.clean
  have hrun := (runsTo_eraseAll (s := accepted 0x0A#8 .ea0 c s) hv nofun rfl hc hl hk).run (length_fopAfter ..) rest
  rw [allCompleted_erased (s := accepted 0x0A#8 .ea0 c s) hc hwp] at hrun
  refine ⟨present_accepted hce.idle (isHeld_eq_true.2 ⟨b, hg⟩), _, hrun, ?_, fun m => ?_⟩
  · have hrsp := congrArg rspWord (decodeFlags_clean hc)
    simp only [eraseEnded, drawn, scheduled, accepted, hrsp]
    rfl
  · refine (read_erase ..).trans ?_
    simp only [Nat.zero_le, true_and, Nat.zero_add]
    rfl

/-- Settles O52: locked, MOD_CR(START) sets WRPERR and nothing starts; unlocked, FOP refuses the erase and sets it. -/
theorem protectedEraseIsReported : Obligations.ProtectedEraseIsReported := by
  intro s c b k rest hv hq hg hk
  have hc := hq.clean
  have hrsp : rspWord (decodeFlags false s.regs.progErr true) = 0x04#8 := by rw [hc.no_progErr]; decide
  refine ⟨fun hl => ⟨fun ha => ?_, ?_⟩, fun hl => ⟨fun hwp => ?_, fun hwp => ?_⟩⟩
  · exact ⟨_, (runsTo_erasePage_locked (s := accepted 0x09#8 .ep0 c s) hv nofun rfl hc hl ha).run (length_engTurns 7)
      rest, hrsp, rfl, hg, rfl⟩
  · exact ⟨_, (runsTo_eraseAll_locked (s := accepted 0x0A#8 .ea0 c s) hv nofun rfl hc hl).run (length_engTurns 6)
      rest, hrsp, rfl, hg, rfl⟩
  · have hrun := (runsTo_erasePage (s := accepted 0x09#8 .ep0 c s) hv nofun rfl hc hl (hv.wp_pages _ hwp) hk).run
      (length_fopAfter ..) rest
    rw [pageCompleted_barred (s := accepted 0x09#8 .ep0 c s) hc hwp] at hrun
    exact ⟨_, hrun, hrsp, rfl, hg, rfl⟩
  · have hrun := (runsTo_eraseAll (s := accepted 0x0A#8 .ea0 c s) hv nofun rfl hc hl hk).run (length_fopAfter ..) rest
    rw [allCompleted_barred (s := accepted 0x0A#8 .ea0 c s) hc hwp] at hrun
    exact ⟨_, hrun, hrsp, rfl, hg, rfl⟩

end Sys2Proof.Machine

/-! PROOF. The native write sequence, from `WN0` to the end of the stride: the stores of a unit's words, FOP
programming the unit, the residual check (spec 43_native_access R161 to R169). -/

namespace Sys2Proof.Machine

section Unit

variable {s : State}

/-! ### The unit's words and where they go -/

/-- The array offset of the engine's unit. -/
def unitStart (s : State) : Nat := s.eng.a.toNat + s.eng.i * s.cfg.nu - s.cfg.origin

/-- The words of the engine's unit. -/
def unitPayload (s : State) : List Word := (List.range (unitWords s.cfg)).map fun j => payloadWord (setJ j s)

theorem length_unitPayload (s : State) : (unitPayload s).length = unitWords s.cfg := by
  rw [unitPayload, List.length_map, List.length_range]

theorem getElem_unitPayload {j : Nat} (hj : j < (unitPayload s).length) :
    (unitPayload s)[j] = payloadWord (setJ j s) := by
  simp only [unitPayload, List.getElem_map, List.getElem_range]

/-- Byte `m` of the word the engine is at. -/
theorem getD_bytesOf_payloadWord (s : State) {m : Nat} (hm : m < 4) :
    (bytesOf s.cfg.endian (payloadWord s)).getD m 0#8 =
      s.eng.pay.getD (s.eng.i * s.cfg.nu + 4 * s.eng.j + m) 0#8 := by
  simp only [payloadWord, bytesOf_wordOf]
  match m with
  | 0 | 1 | 2 | 3 => rfl
  | m + 4 => omega

/-- The unit's words, cut into bytes, are the unit's part of the payload (20_memory R63, R74). -/
theorem unitBytes_unitPayload (hv : s.cfg.Valid) (hlen : s.eng.i * s.cfg.nu + s.cfg.nu ≤ s.eng.pay.length) :
    unitBytes s.cfg (unitPayload s) = (s.eng.pay.drop (s.eng.i * s.cfg.nu)).take s.cfg.nu := by
  have hlen' : ((s.eng.pay.drop (s.eng.i * s.cfg.nu)).take s.cfg.nu).length = s.cfg.nu := by
    rw [List.length_take, List.length_drop]; omega
  refine List.ext_getElem ((length_unitBytes_nu hv _).trans hlen'.symm) fun m hm hm' => ?_
  have hlt : m < s.cfg.nu := hlen' ▸ hm'
  have hword : m / 4 < (unitPayload s).length := by
    rw [length_unitPayload]; have := unitWords_mul hv; omega
  have hpos : s.eng.i * s.cfg.nu + 4 * (m / 4) + m % 4 = s.eng.i * s.cfg.nu + m := by omega
  have hbyte : (bytesOf s.cfg.endian (payloadWord (setJ (m / 4) s))).getD (m % 4) 0#8 =
      s.eng.pay.getD (s.eng.i * s.cfg.nu + 4 * (m / 4) + m % 4) 0#8 :=
    getD_bytesOf_payloadWord (setJ (m / 4) s) (Nat.mod_lt _ (by omega))
  rw [← List.getD_eq_getElem _ 0#8 hm, getD_unitBytes hv _ hlt, List.getD_eq_getElem _ _ hword, getElem_unitPayload,
    hbyte, hpos, List.getElem_take, List.getElem_drop, List.getD_eq_getElem _ _ (by omega)]

/-! ### The stores -/

/-- The write buffer with the engine's remaining words put into it. -/
def bufferFilled (s : State) : List Word := s.regs.wbuf.take s.eng.j ++ (unitPayload s).drop s.eng.j

/-- `s` with its unit's remaining words buffered and the programming started. -/
def unitStarted (s : State) : State :=
  { s with
    reply := .done
    regs := { s.regs with
      wbuf := bufferFilled s, wbase := unitStart s, wcnt := 0, bsy := true
      inflight := some (.prog (unitStart s) (bufferFilled s)) }
    eng := { s.eng with phase := .wn3, j := unitWords s.cfg, polls := 0 } }

/-- `s` with its next word buffered. -/
def wordBuffered (s : State) : State :=
  { s with
    reply := .done
    regs := { s.regs with
      wbuf := s.regs.wbuf.set s.eng.j (payloadWord s), wbase := unitStart s, wcnt := s.eng.j + 1 }
    eng := { s.eng with j := s.eng.j + 1 } }

/-- `WN2` after any word but the unit's last (43_native_access R168). -/
theorem storedWord_more {r : Regs} (hj : s.eng.j + 1 ≠ unitWords s.cfg) :
    storedWord (wrote r s) = setJ (s.eng.j + 1) (wrote r s) := if_neg hj

/-- `WN2` after the last (43_native_access R168). -/
theorem storedWord_last {r : Regs} (hj : s.eng.j + 1 = unitWords s.cfg) :
    storedWord (wrote r s) = goto .wn3 (setPolls 0 (setJ (unitWords s.cfg) (wrote r s))) :=
  (if_pos hj).trans (by rw [wrote_eng, hj])

/-- The engine at `WN2`, at a word of a unit of the array. -/
structure AtStore (s : State) : Prop where
  moving : s.reply ≠ .stalled
  phase : s.eng.phase = .wn2
  word : s.eng.j < unitWords s.cfg
  address : ∀ j < unitWords s.cfg, WordAddress s.cfg (s.eng.a.toNat + s.eng.i * s.cfg.nu) j
  not_busy : s.regs.bsy = false

/-- The same, with a write buffer that takes the word. -/
structure Buffering (s : State) : Prop extends AtStore s where
  unlocked : s.regs.lock = false
  pg : s.regs.pg = true
  no_per : s.regs.per = false
  no_mer1 : s.regs.mer1 = false
  buffer : s.regs.wbuf.length = unitWords s.cfg
  count : s.regs.wcnt = s.eng.j
  base : s.regs.wcnt = 0 ∨ s.regs.wbase = unitStart s

theorem AtStore.wordAddress (h : AtStore s) : WordAddress s.cfg (s.eng.a.toNat + s.eng.i * s.cfg.nu) s.eng.j :=
  h.address _ h.word

theorem AtStore.addressFits (h : AtStore s) : addressFits s = true := by
  simp only [Machine.addressFits, h.phase, effectiveAddress]
  exact decide_eq_true h.wordAddress.fits

/-- The word the engine stores is the next one of its unit. -/
theorem payloadWord_eq (h : AtStore s) : payloadWord s = (unitPayload s)[s.eng.j]'(by
    rw [length_unitPayload]; exact h.word) := by
  rw [getElem_unitPayload]
  rfl

/-- A word of the unit put into the buffer is one that need not be put there any more. -/
theorem bufferFilled_set (h : Buffering s) :
    (s.regs.wbuf.set s.eng.j (payloadWord s)).take (s.eng.j + 1) ++ (unitPayload s).drop (s.eng.j + 1) =
      bufferFilled s := by
  have hbuf : s.eng.j < s.regs.wbuf.length := h.buffer.symm ▸ h.word
  have hpay : s.eng.j < (unitPayload s).length := (length_unitPayload s).symm ▸ h.word
  rw [bufferFilled, List.drop_eq_getElem_cons hpay, ← payloadWord_eq h.toAtStore,
    List.take_succ_eq_append_getElem (by rwa [List.length_set]), List.getElem_set_self,
    List.take_set_of_le (Nat.le_refl _), List.append_assoc]
  rfl

/-- What `WN2` does with a word the buffer takes (43_native_access R162, R163). -/
theorem engStep_wn2_accepted (h : Buffering s) :
    engStep s = .next (storedWord (wrote
      (acceptStore s.cfg (offsetOf s.cfg (BitVec.ofNat 32 (effectiveAddress s))) (payloadWord s) s.regs) s)) := by
  have hw := h.wordAddress
  exact engStep_wn2 h.moving h.phase h.addressFits
    (execSt32_accepted hw.ok h.not_busy h.unlocked h.pg h.no_per h.no_mer1
      (storeInOrder_iff.2 ⟨hw.index.trans h.count.symm, h.base.imp_right fun hb => hw.unit.trans hb.symm⟩))

/-- The buffer with the engine's word in it. -/
theorem bufferWord_engine (h : Buffering s) :
    bufferWord (unitOf s.cfg (offsetOf s.cfg (BitVec.ofNat 32 (effectiveAddress s))))
        (wordIndex s.cfg (offsetOf s.cfg (BitVec.ofNat 32 (effectiveAddress s)))) (payloadWord s) s.regs =
      { s.regs with wbuf := s.regs.wbuf.set s.eng.j (payloadWord s), wbase := unitStart s } := by
  have hw := h.wordAddress
  have hunit : unitOf s.cfg (offsetOf s.cfg (BitVec.ofNat 32 (effectiveAddress s))) = unitStart s := hw.unit
  have hindex : wordIndex s.cfg (offsetOf s.cfg (BitVec.ofNat 32 (effectiveAddress s))) = s.eng.j := hw.index
  rw [hunit, hindex, bufferWord_inOrder (h.base.imp_right Eq.symm)]

/-- Any word but the unit's last is counted (43_native_access R162). -/
theorem engStep_wn2_more (h : Buffering s) (hj : s.eng.j + 1 ≠ unitWords s.cfg) :
    engStep s = .next (wordBuffered s) := by
  have hmore : wordIndex s.cfg (offsetOf s.cfg (BitVec.ofNat 32 (effectiveAddress s))) + 1 ≠ unitWords s.cfg := by
    rwa [effectiveAddress, h.wordAddress.index]
  rw [engStep_wn2_accepted h, acceptStore_more hmore, bufferWord_engine h, h.count, storedWord_more hj]
  rfl

/-- The last word starts the programming of the unit (43_native_access R163). -/
theorem engStep_wn2_last (h : Buffering s) (hj : s.eng.j + 1 = unitWords s.cfg) :
    engStep s = .next (unitStarted s) := by
  have hlast : wordIndex s.cfg (offsetOf s.cfg (BitVec.ofNat 32 (effectiveAddress s))) + 1 = unitWords s.cfg := by
    rwa [effectiveAddress, h.wordAddress.index]
  have hbuf : s.regs.wbuf.set s.eng.j (payloadWord s) = bufferFilled s := by
    rw [← bufferFilled_set h, hj, List.drop_of_length_le (length_unitPayload s).le, List.append_nil,
      List.take_of_length_le (by rw [List.length_set, h.buffer])]
  have hlen : (bufferFilled s).length = unitWords s.cfg := by rw [← hbuf, List.length_set, h.buffer]
  rw [engStep_wn2_accepted h, acceptStore_last hlast, bufferWord_engine h, hbuf, storedWord_last hj]
  simp only [startProgram, startOperation, List.take_of_length_le hlen.le]
  rfl

/-- The buffer takes the next word as well. -/
theorem Buffering.wordBuffered (h : Buffering s) (hj : s.eng.j + 1 ≠ unitWords s.cfg) :
    Buffering (wordBuffered s) where
  moving := nofun
  phase := h.phase
  word := Nat.lt_of_le_of_ne h.word hj
  address := h.address
  not_busy := h.not_busy
  unlocked := h.unlocked
  pg := h.pg
  no_per := h.no_per
  no_mer1 := h.no_mer1
  buffer := (List.length_set ..).trans h.buffer
  count := rfl
  base := .inr rfl

/-- Buffering a word first makes no difference to the programming started in the end. -/
theorem unitStarted_wordBuffered (h : Buffering s) : unitStarted (wordBuffered s) = unitStarted s := by
  have hfill : bufferFilled (wordBuffered s) = bufferFilled s := bufferFilled_set h
  rw [unitStarted, hfill]
  rfl

/-- The remaining `k` words of the unit stored, by induction on `k` (43_native_access R162, R163). -/
theorem runsTo_stores {k : Nat} (h : Buffering s) (hk : s.eng.j + k = unitWords s.cfg) :
    RunsTo (engTurns k) s (unitStarted s) := by
  induction k generalizing s with
  | zero => exact absurd h.word (by omega)
  | succ k ih =>
    by_cases hlast : s.eng.j + 1 = unitWords s.cfg
    · obtain rfl : k = 0 := by omega
      exact .eng (engStep_wn2_last h hlast)
    · rw [← unitStarted_wordBuffered h]
      have hnext : (wordBuffered s).eng.j + k = unitWords s.cfg := (Nat.add_right_comm s.eng.j 1 k).trans hk
      exact .eng_cons (engStep_wn2_more h hlast) (ih (h.wordBuffered hlast) hnext)

/-! ### The stores of a locked flash -/

/-- `s` with its unit's remaining words refused. -/
def unitRefused (s : State) : State :=
  { s with
    reply := .done, regs := { s.regs with wrpErr := true }
    eng := { s.eng with phase := .wn3, j := unitWords s.cfg, polls := 0 } }

/-- `s` with its next word refused. -/
def wordRefused (s : State) : State :=
  { s with reply := .done, regs := { s.regs with wrpErr := true }, eng := { s.eng with j := s.eng.j + 1 } }

/-- What `WN2` does on a locked flash (43_native_access R164). -/
theorem engStep_wn2_refused (h : AtStore s) (hl : s.regs.lock = true) :
    engStep s = .next (storedWord (wrote { s.regs with wrpErr := true } s)) :=
  engStep_wn2 h.moving h.phase h.addressFits (execSt32_locked h.wordAddress.ok h.not_busy hl)

/-- The next word is at a store as well. -/
theorem AtStore.wordRefused (h : AtStore s) (hj : s.eng.j + 1 ≠ unitWords s.cfg) : AtStore (wordRefused s) where
  moving := nofun
  phase := h.phase
  word := Nat.lt_of_le_of_ne h.word hj
  address := h.address
  not_busy := h.not_busy

/-- The remaining `k` words of the unit refused, by induction on `k` (43_native_access R164). -/
theorem runsTo_stores_locked {k : Nat} (h : AtStore s) (hl : s.regs.lock = true) (hk : s.eng.j + k = unitWords s.cfg) :
    RunsTo (engTurns k) s (unitRefused s) := by
  induction k generalizing s with
  | zero => exact absurd h.word (by omega)
  | succ k ih =>
    have hstep := engStep_wn2_refused h hl
    by_cases hlast : s.eng.j + 1 = unitWords s.cfg
    · obtain rfl : k = 0 := by omega
      rw [storedWord_last hlast] at hstep
      exact .eng hstep
    · rw [storedWord_more hlast] at hstep
      have hnext : (wordRefused s).eng.j + k = unitWords s.cfg := (Nat.add_right_comm s.eng.j 1 k).trans hk
      exact .eng_cons hstep (ih (h.wordRefused hlast) hl hnext)

end Unit

end Sys2Proof.Machine

/-! PROOF. The native write sequence whole: on an unlocked flash with FOP completing the programming, on a locked one,
and with its poll budget spent (spec 43_native_access R168 to R171, 41_status R144). -/

namespace Sys2Proof.Machine

section Sequence

variable {s : State}

/-! ### From WN0 to the programming in flight -/

/-- The engine at `WN0` of a unit of the array, on a flash where nothing is under way. -/
structure UnitReady (s : State) : Prop where
  valid : s.cfg.Valid
  moving : s.reply ≠ .stalled
  phase : s.eng.phase = .wn0
  clean : CleanRegs s.regs
  address : ∀ j < unitWords s.cfg, WordAddress s.cfg (s.eng.a.toNat + s.eng.i * s.cfg.nu) j

/-- `s` at the first store of its unit, with PG set. -/
def atFirstStore (s : State) : State :=
  { s with
    reply := .done, regs := { s.regs with pg := true }, eng := { s.eng with phase := .wn2, j := 0 } }

/-- PRECHECK and the write of PG. -/
theorem runsTo_firstStore (h : UnitReady s) : RunsTo (engTurns 2) s (atFirstStore s) := by
  have hpre := engStep_precheck (q := .wn1) h.moving h.phase (by decide)
  rw [precheck_clean (s := returned _ s) h.valid rfl h.clean.not_busy h.clean.no_progErr h.clean.no_wrpErr] at hpre
  exact .eng_cons hpre (.eng (engStep_wn1 nofun rfl h.clean.not_busy))

theorem UnitReady.atStore (h : UnitReady s) : AtStore (atFirstStore s) where
  moving := nofun
  phase := rfl
  word := unitWords_pos h.valid
  address := h.address
  not_busy := h.clean.not_busy

theorem UnitReady.buffering (h : UnitReady s) (hl : s.regs.lock = false)
    (hbuf : s.regs.wbuf.length = unitWords s.cfg) : Buffering (atFirstStore s) where
  toAtStore := h.atStore
  unlocked := hl
  pg := rfl
  no_per := h.clean.no_per
  no_mer1 := h.clean.no_mer1
  buffer := hbuf
  count := h.clean.buffer_empty
  base := .inl h.clean.buffer_empty

/-- The registers of `s` with its unit's payload in flight. -/
def unitProgramming (s : State) : Regs :=
  { s.regs with
    pg := true, wbuf := unitPayload s, wbase := unitStart s, wcnt := 0, bsy := true
    inflight := some (.prog (unitStart s) (unitPayload s)) }

/-- `s` polling for the programming of its unit. -/
def unitInFlight (s : State) : State :=
  { s with
    reply := .done, regs := unitProgramming s
    eng := { s.eng with phase := .wn3, j := unitWords s.cfg, polls := 0 } }

/-- The native write sequence up to its POLL, on an unlocked flash (43_native_access R168). -/
theorem runsTo_unitInFlight (h : UnitReady s) (hl : s.regs.lock = false)
    (hbuf : s.regs.wbuf.length = unitWords s.cfg) : RunsTo (engTurns (2 + unitWords s.cfg)) s (unitInFlight s) := by
  rw [engTurns_add]
  exact (runsTo_firstStore h).append (runsTo_stores (h.buffering hl hbuf) (Nat.zero_add _))

/-! ### The end of the sequence -/

/-- What the residual check finds (43_native_access R169). -/
def residual (r : Regs) : Response := if r.bsy || r.progErr || r.wrpErr then .err .programmingError else .ok

/-- `s` with the registers `r` read by the residual check, after `k` busy reads. -/
def unitChecked (k : Nat) (r : Regs) (s : State) : State :=
  { s with
    reply := .data (srWord s.cfg r), regs := r
    eng := { s.eng with phase := .wn5, j := unitWords s.cfg, polls := k } }

/-- `WN4` and `WN5`. -/
theorem runsTo_endUnit (hv : s.cfg.Valid) (hr : s.reply ≠ .stalled) (hp : s.eng.phase = .wn4)
    (hj : s.eng.j = unitWords s.cfg) (hb : s.regs.bsy = false) :
    RunsTo (engTurns 2) s (finishWrite (residual { s.regs with pg := false, wcnt := 0 })
      (unitChecked s.eng.polls { s.regs with pg := false, wcnt := 0 } s)) := by
  have hend : unitChecked s.eng.polls { s.regs with pg := false, wcnt := 0 } s =
      returned (srWord s.cfg { s.regs with pg := false, wcnt := 0 })
        (goto .wn5 (wrote { s.regs with pg := false, wcnt := 0 } s)) := by
    simp only [unitChecked, ← hj]
    rfl
  rw [hend]
  exact .eng_cons (engStep_wn4 hr hp hb) (.eng (engStep_wn5 hv nofun rfl))

/-- The registers once FOP has completed the programming and the sequence has cleared PG. -/
def unitCompleted (s : State) : Regs :=
  { complete s.cfg s.draws (.prog (unitStart s) (unitPayload s)) (unitProgramming s) with pg := false, wcnt := 0 }

/-- The native write sequence on an unlocked flash, with FOP completing the programming after `k` busy reads. -/
theorem runsTo_unit {k : Nat} (h : UnitReady s) (hl : s.regs.lock = false)
    (hbuf : s.regs.wbuf.length = unitWords s.cfg) (hk : Affordable s.cfg k) :
    RunsTo (fopAfter (2 + unitWords s.cfg + k) 3) s
      (finishWrite (residual (unitCompleted s)) (unitChecked k (unitCompleted s) (drawn s))) := by
  have hbsy : (complete s.cfg s.draws (.prog (unitStart s) (unitPayload s)) (unitProgramming s)).bsy = false := by
    rw [complete_frame]
  rw [fopAfter_eq]
  exact ((runsTo_unitInFlight h hl hbuf).append
    (runsTo_poll (p := .wn3) h.valid nofun rfl (by decide) rfl rfl hk)).append
      (runsTo_endUnit h.valid nofun rfl rfl hbsy)

/-- The native write sequence on a locked flash: nothing starts and WRPERR is set (43_native_access R164, R171). -/
theorem runsTo_unit_locked (h : UnitReady s) (hl : s.regs.lock = true) :
    RunsTo (engTurns (5 + unitWords s.cfg)) s
      (finishWrite (.err .programmingError) (unitChecked 0 { s.regs with wrpErr := true } s)) := by
  have hturns : engTurns (5 + unitWords s.cfg) =
      engTurns 2 ++ engTurns (unitWords s.cfg) ++ engTurns 1 ++ engTurns 2 := by
    rw [← engTurns_add, ← engTurns_add, ← engTurns_add]
    exact congrArg _ (by omega)
  have hregs : { (unitRefused (atFirstStore s)).regs with pg := false, wcnt := 0 } =
      { s.regs with wrpErr := true } := by
    rw [← h.clean.no_pg, ← h.clean.buffer_empty]
    rfl
  have hres : residual { s.regs with wrpErr := true } = .err .programmingError := by simp [residual]
  rw [hturns, ← hres, ← hregs]
  exact (((runsTo_firstStore h).append (runsTo_stores_locked h.atStore hl (Nat.zero_add _))).append
    (.eng (engStep_poll_done (p := .wn3) (q := .wn4) h.valid nofun rfl (by decide) h.clean.not_busy))).append
      (runsTo_endUnit h.valid nofun rfl rfl h.clean.not_busy)

/-! ### A spent poll budget -/

/-- POLL of an operation that stays in flight, up to the last read the budget allows (41_status R144). -/
theorem runsTo_spendPolls {p q : Phase} {k b : Nat} (hv : s.cfg.Valid) (hr : s.reply ≠ .stalled)
    (hp : s.eng.phase = p)
    (hpq : (p, q) ∈ [(Phase.wn3, Phase.wn4), (Phase.ep4, Phase.ep5), (Phase.ea3, Phase.ea4)])
    (hb : s.regs.bsy = true) (hbud : s.cfg.pollBudget = some b) (hk : s.eng.polls + (k + 1) = b) :
    RunsTo (engTurns (k + 1)) s
      (finishAt p (.err .timeout) (setPolls b (returned (srWord s.cfg s.regs) s))) := by
  induction k generalizing s with
  | zero =>
    have hspent : s.cfg.pollBudget = some (s.eng.polls + 1) := hk ▸ hbud
    refine .eng ?_
    rw [engStep_poll hr hp hpq, poll_timeout (s := returned _ s) hv rfl hb hspent, ← hk]
    rfl
  | succ k ih =>
    have hleft : Affordable s.cfg (s.eng.polls + 1) := by
      intro b' hb'
      obtain rfl : b = b' := Option.some.inj (hbud.symm.trans hb')
      omega
    exact .eng_cons (engStep_poll_busy hv hr hp hpq hb hleft)
      (ih hv nofun hp hb hbud ((Nat.add_right_comm s.eng.polls 1 (k + 1)).trans hk))

/-- The native write sequence that spends its poll budget leaves its payload in flight. -/
theorem runsTo_unit_timeout {b : Nat} (h : UnitReady s) (hl : s.regs.lock = false)
    (hbuf : s.regs.wbuf.length = unitWords s.cfg) (hbud : s.cfg.pollBudget = some b) :
    RunsTo (engTurns (2 + unitWords s.cfg + b)) s (finishWrite (.err .timeout)
      (setPolls b (returned (srWord s.cfg (unitProgramming s)) (unitInFlight s)))) := by
  obtain ⟨k, rfl⟩ : ∃ k, b = k + 1 :=
    Nat.exists_eq_succ_of_ne_zero fun h0 => h.valid.budget_pos (h0 ▸ hbud)
  rw [engTurns_add]
  exact (runsTo_unitInFlight h hl hbuf).append
    (runsTo_spendPolls (p := .wn3) (q := .wn4) h.valid nofun rfl (by decide) rfl hbud (Nat.zero_add _))

/-! ### The registers the sequence leaves -/

/-- On an unprotected erased unit (43_native_access R165; D17). -/
theorem unitCompleted_erased (hc : CleanRegs s.regs) (hwp : pageOf s.cfg (unitStart s) ∉ s.cfg.wp)
    (he : unitErased s.cfg s.regs.arr (unitStart s) = true) :
    unitCompleted s = { s.regs with
      wbase := unitStart s, wbuf := unitPayload s
      arr := Memory.writeBytes s.regs.arr (unitStart s) (unitBytes s.cfg (unitPayload s)) } := by
  rw [unitCompleted, complete_prog_erased (r := unitProgramming s) hwp he, unitProgramming, hc.eq]
  rfl

/-- On a write-barred page (43_native_access R165; D18). -/
theorem unitCompleted_barred (hc : CleanRegs s.regs) (hwp : pageOf s.cfg (unitStart s) ∈ s.cfg.wp) :
    unitCompleted s =
      { s.regs with wrpErr := true, wbase := unitStart s, wbuf := unitPayload s } := by
  rw [unitCompleted, complete_prog_protected hwp, unitProgramming, hc.eq]
  rfl

/-- On an unprotected unit that is not erased (43_native_access R165; 93 U9). -/
theorem unitCompleted_dirty (hc : CleanRegs s.regs) (hwp : pageOf s.cfg (unitStart s) ∉ s.cfg.wp)
    (he : unitErased s.cfg s.regs.arr (unitStart s) = false) :
    unitCompleted s = { s.regs with
      progErr := true, wbase := unitStart s, wbuf := unitPayload s
      arr := Memory.scramble s.regs.arr s.draws (unitStart s) s.cfg.nu } := by
  rw [unitCompleted, complete_prog_dirty (r := unitProgramming s) hwp he, unitProgramming, hc.eq]
  rfl

/-- Where no error is recorded and nothing runs, the residual check finds nothing. -/
theorem residual_clean {r : Regs} (hb : r.bsy = false) (hpe : r.progErr = false) (hwe : r.wrpErr = false) :
    residual r = .ok := by
  rw [residual, hb, hpe, hwe]
  rfl

end Sequence

end Sys2Proof.Machine

/-! PROOF. WRITE_NATIVE from acceptance to answer, and both writes on a locked flash (spec 43_native_access R165 to
R171, 44_buffered_access R192). -/

namespace Sys2Proof.Machine

section Native

variable {s : State} {op : BitVec 8}

@[simp] theorem accepted_cfg (p : Phase) (c : CmdArgs) : (accepted op p c s).cfg = s.cfg := rfl

/-- A unit of the flash at `WN0`, on a flash where nothing is under way. -/
theorem unitReady_of (hv : s.cfg.Valid) (hr : s.reply ≠ .stalled) (hp : s.eng.phase = .wn0) (hc : CleanRegs s.regs)
    (ha : s.eng.a.toNat % s.cfg.nu = 0) (hlo : s.cfg.origin ≤ s.eng.a.toNat)
    (hhi : s.eng.a.toNat + s.eng.i * s.cfg.nu + s.cfg.nu ≤ s.cfg.origin + s.cfg.flashBytes) : UnitReady s :=
  ⟨hv, hr, hp, hc, fun _ hj =>
    wordAddress hv (by rwa [Nat.add_mul_mod_self_right]) (Nat.le_add_right_of_le hlo) hhi hj⟩

/-- An accepted write at `WN0` is at its first unit. -/
theorem unitReady_accepted {c : CmdArgs} (hv : s.cfg.Valid) (hc : CleanRegs s.regs) (ha : c.a.toNat % s.cfg.nu = 0)
    (hlo : s.cfg.origin ≤ c.a.toNat) (hhi : c.a.toNat + s.cfg.nu ≤ s.cfg.origin + s.cfg.flashBytes) :
    UnitReady (accepted op .wn0 c s) := by
  refine unitReady_of hv nofun rfl hc ha hlo ?_
  change c.a.toNat + 0 * s.cfg.nu + s.cfg.nu ≤ _
  rwa [Nat.zero_mul, Nat.add_zero]

/-- That unit. -/
theorem unitStart_accepted (c : CmdArgs) : unitStart (accepted op .wn0 c s) = c.a.toNat - s.cfg.origin := by
  change c.a.toNat + 0 * s.cfg.nu - s.cfg.origin = _
  rw [Nat.zero_mul, Nat.add_zero]

/-- Its payload. -/
theorem unitBytes_accepted {c : CmdArgs} (hv : s.cfg.Valid) (hlen : c.pay.length = s.cfg.nu) :
    unitBytes s.cfg (unitPayload (accepted op .wn0 c s)) = c.pay := by
  have hzero : (accepted op .wn0 c s).eng.i * s.cfg.nu = 0 := Nat.zero_mul _
  have h := unitBytes_unitPayload (s := accepted op .wn0 c s) hv
    (by rw [accepted_cfg, hzero, Nat.zero_add]; exact hlen.ge)
  rw [accepted_cfg, hzero, List.drop_zero] at h
  exact h.trans (List.take_of_length_le hlen.le)

/-- WRITE_NATIVE is not WRITE. -/
theorem native_op : (0x06#8 : BitVec 8) ≠ writeOpcode := by decide

/-- WRITE_NATIVE on an unlocked flash answers what the residual check finds. -/
theorem runsTo_native {k : Nat} (h : UnitReady s) (hop : s.eng.op ≠ writeOpcode) (hl : s.regs.lock = false)
    (hbuf : s.regs.wbuf.length = unitWords s.cfg) (hk : Affordable s.cfg k) :
    RunsTo (fopAfter (2 + unitWords s.cfg + k) 3) s
      (respond (residual (unitCompleted s)) (unitChecked k (unitCompleted s) (drawn s))) := by
  have hrun := runsTo_unit h hl hbuf hk
  rwa [finishWrite, if_neg (show (unitChecked k (unitCompleted s) (drawn s)).eng.op ≠ _ from hop)] at hrun

/-- WRITE_NATIVE on a locked flash (43_native_access R171). -/
theorem runsTo_native_locked (h : UnitReady s) (hop : s.eng.op ≠ writeOpcode) (hl : s.regs.lock = true) :
    RunsTo (engTurns (5 + unitWords s.cfg)) s
      (respond (.err .programmingError) (unitChecked 0 { s.regs with wrpErr := true } s)) := by
  have hrun := runsTo_unit_locked h hl
  rwa [finishWrite, if_neg (show (unitChecked 0 { s.regs with wrpErr := true } s).eng.op ≠ _ from hop)] at hrun

/-- A stride of WRITE on a locked flash carries the error out and answers it. -/
theorem runsTo_stride_locked (h : UnitReady s) (hop : s.eng.op = writeOpcode) (hl : s.regs.lock = true) :
    RunsTo (engTurns (5 + unitWords s.cfg)) s
      (respond (.err .programmingError)
        (setCarry (.err .programmingError) (unitChecked 0 { s.regs with wrpErr := true } s))) := by
  have hrun := runsTo_unit_locked h hl
  rwa [finishWrite_error (r := .err .programmingError) nofun,
    if_pos (show (unitChecked 0 { s.regs with wrpErr := true } s).eng.op = _ from hop)] at hrun

end Native

/-- Settles O39: the native write sequence, whose programming FOP completes on an erased unit. -/
theorem writeNativeProgramsTheUnit : Obligations.WriteNativeProgramsTheUnit := by
  rintro s c b k o rest hv hregs hce hl hg ha hlo hhi hlen rfl hwp hff hk
  have hc := hce.toQuietEntry.clean
  have hheld := isHeld_eq_true.2 ⟨b, hg⟩
  have hstart := unitStart_accepted (s := s) (op := 0x06#8) c
  have hr := unitCompleted_erased (s := accepted 0x06#8 .wn0 c s) hc (by rwa [hstart])
    (by rw [hstart]; exact (unitErased_iff ..).2 hff)
  rw [hstart, accepted_cfg, unitBytes_accepted hv hlen] at hr
  have hready := unitReady_accepted (op := 0x06#8) (c := c) hv hc ha hlo hhi
  have hrun := (runsTo_native hready native_op hl hregs.wbuf_words hk).run (length_fopAfter ..) rest
  have hok : residual (unitCompleted (accepted 0x06#8 .wn0 c s)) = .ok := by
    rw [hr]
    exact residual_clean hc.not_busy hc.no_progErr hc.no_wrpErr
  rw [hok, hr] at hrun
  have hread := fun m => read_writeBytes (c.a.toNat - s.cfg.origin) c.pay m hregs.arr_wf
  refine ⟨present_accepted hce.idle ((writeNativeChecks_iff hheld).2 ⟨ha, hlo, hhi, hlen⟩), _, hrun, rfl,
    fun m hm => (hread _).trans ?_, fun m hm => (hread m).trans (if_neg (hlen.symm ▸ hm))⟩
  rw [if_pos (by omega), Nat.add_sub_cancel_left]

/-- Settles O40: every store sets WRPERR, and the residual check reads it. -/
theorem writesOnLockedFlashFail : Obligations.WritesOnLockedFlashFail := by
  intro s c b rest hv hq hl hg ha hlo
  have hc := hq.clean
  have hheld := isHeld_eq_true.2 ⟨b, hg⟩
  refine ⟨fun hhi hlen => ⟨present_accepted hq.idle ?_, ?_⟩,
    fun hn hpos hhi hlen => ⟨present_accepted hq.idle ?_, ?_⟩⟩
  · exact (writeNativeChecks_iff hheld).2 ⟨ha, hlo, hhi, hlen⟩
  · exact (runsTo_native_locked (unitReady_accepted hv hc ha hlo hhi) native_op hl).run (length_engTurns _) rest
  · exact (writeChecks_iff hheld).2 ⟨ha, hn, hlo, hhi, hlen⟩
  · have hnu : s.cfg.nu ≤ c.n.toNat := Nat.le_of_dvd hpos (Nat.dvd_of_mod_eq_zero hn)
    have hrun := (runsTo_firstStride hv hn hpos).append
      (runsTo_stride_locked (unitReady_accepted hv hc ha hlo (by omega)) rfl hl)
    rw [← engTurns_add, ← Nat.add_assoc] at hrun
    exact hrun.run (length_engTurns _) rest

end Sys2Proof.Machine

/-! PROOF. WRITE stride by stride: what holds at `WR0` after any number of strides that succeed, and how the next one
ends (spec 44_buffered_access R192, 43_native_access R165 to R171, 41_status R144). -/

namespace Sys2Proof.Machine

/-- Bytes written one range after the other. -/
theorem writeBytes_append (m : Memory) (o : Nat) (bs bs' : List Byte) :
    Memory.writeBytes m o (bs ++ bs') = Memory.writeBytes (Memory.writeBytes m o bs) (o + bs.length) bs' := by
  induction bs generalizing m o with
  | nil => simp
  | cons b bs ih =>
    rw [List.cons_append, writeBytes_cons, writeBytes_cons, ih, List.length_cons, Nat.add_assoc, Nat.add_comm 1]

/-- A stride that remains lies in the range. -/
theorem stride_le {n len nu : Nat} (hn : n < len / nu) : n * nu + nu ≤ len := by
  rw [← Nat.succ_mul]
  exact (Nat.mul_le_mul_right _ hn).trans (Nat.div_mul_le_self ..)

section Strides

variable {s t : State} {c : CmdArgs} {n k : Nat}

/-- The premises under which WRITE stores: a clean unlocked flash and operands that pass the checks. -/
structure WriteReady (s : State) (c : CmdArgs) : Prop where
  valid : s.cfg.Valid
  regs : RegsInv s.cfg s.regs
  clean : CleanRegs s.regs
  unlocked : s.regs.lock = false
  aligned : c.a.toNat % s.cfg.nu = 0
  length : c.n.toNat % s.cfg.nu = 0
  low : s.cfg.origin ≤ c.a.toNat
  high : c.a.toNat + c.n.toNat ≤ s.cfg.origin + s.cfg.flashBytes
  payload : c.pay.length = c.n.toNat

/-- WRITE of `c`, presented in `s`, at `WR0` after `n` strides that succeeded (44_buffered_access R192). -/
structure StridesDone (s : State) (c : CmdArgs) (n : Nat) (t : State) : Prop where
  moving : t.reply ≠ .stalled
  phase : t.eng.phase = .wr0
  op : t.eng.op = writeOpcode
  address : t.eng.a = c.a
  length : t.eng.n = c.n
  payload : t.eng.pay = c.pay
  guard : t.eng.guard = s.eng.guard
  stride : t.eng.i = n
  cfg : t.cfg = s.cfg
  cmds : t.cmds = s.cmds
  buffer : t.regs.wbuf.length = unitWords s.cfg
  regs : t.regs = { s.regs with
    wbase := t.regs.wbase, wbuf := t.regs.wbuf
    arr := Memory.writeBytes s.regs.arr (c.a.toNat - s.cfg.origin) (c.pay.take (n * s.cfg.nu)) }

/-- An accepted WRITE has done no stride. -/
theorem stridesDone_accepted (hw : WriteReady s c) : StridesDone s c 0 (accepted writeOpcode .wr0 c s) where
  moving := nofun
  phase := rfl
  op := rfl
  address := rfl
  length := rfl
  payload := rfl
  guard := rfl
  stride := rfl
  cfg := rfl
  cmds := rfl
  buffer := hw.regs.wbuf_words
  regs := by rw [Nat.zero_mul, List.take_zero, writeBytes_nil]; rfl

/-! ### The array after `n` strides -/

theorem StridesDone.wf (hw : WriteReady s c) (h : StridesDone s c n t) : Memory.wf t.regs.arr = true := by
  rw [h.regs]
  exact wf_writeBytes _ _ hw.regs.arr_wf

/-- The strides done hold their payload, every other byte is as it was. -/
theorem StridesDone.read (hw : WriteReady s c) (h : StridesDone s c n t) (hn : n * s.cfg.nu ≤ c.n.toNat) (m : Nat) :
    Memory.read t.regs.arr m =
      if c.a.toNat - s.cfg.origin ≤ m ∧ m < c.a.toNat - s.cfg.origin + n * s.cfg.nu then
        c.pay.getD (m - (c.a.toNat - s.cfg.origin)) 0#8
      else Memory.read s.regs.arr m := by
  have hlen : (c.pay.take (n * s.cfg.nu)).length = n * s.cfg.nu := by
    rw [List.length_take, hw.payload]
    exact Nat.min_eq_left hn
  rw [h.regs]
  refine (read_writeBytes _ _ _ hw.regs.arr_wf).trans ?_
  rw [hlen]
  split
  · rename_i hm
    rw [List.getD_eq_getElem?_getD, List.getD_eq_getElem?_getD, List.getElem?_take_of_lt (by omega)]
  · rfl

/-- A byte of the strides done. -/
theorem StridesDone.read_inside (hw : WriteReady s c) (h : StridesDone s c n t) (hn : n * s.cfg.nu ≤ c.n.toNat)
    {m : Nat} (hm : m < n * s.cfg.nu) : Memory.read t.regs.arr (c.a.toNat - s.cfg.origin + m) = c.pay.getD m 0#8 := by
  rw [h.read hw hn, if_pos ⟨Nat.le_add_right .., Nat.add_lt_add_left hm _⟩, Nat.add_sub_cancel_left]

/-- A byte outside them. -/
theorem StridesDone.read_outside (hw : WriteReady s c) (h : StridesDone s c n t) (hn : n * s.cfg.nu ≤ c.n.toNat)
    {m : Nat} (hm : ¬(c.a.toNat - s.cfg.origin ≤ m ∧ m < c.a.toNat - s.cfg.origin + n * s.cfg.nu)) :
    Memory.read t.regs.arr m = Memory.read s.regs.arr m := by
  rw [h.read hw hn, if_neg hm]

/-! ### The next stride -/

theorem StridesDone.clean (hw : WriteReady s c) (h : StridesDone s c n t) : CleanRegs t.regs := by
  have hc := hw.clean
  rw [h.regs]
  exact ⟨⟨hc.not_busy, hc.no_pg, hc.no_per, hc.no_mer1, hc.buffer_empty⟩, hc.nothing_in_flight, hc.no_progErr,
    hc.no_wrpErr⟩

theorem StridesDone.unlocked (hw : WriteReady s c) (h : StridesDone s c n t) : t.regs.lock = false := by
  rw [h.regs]
  exact hw.unlocked

/-- `t` gone from `WR0` to its next stride. -/
def atStride (t : State) : State := { t with reply := .none, eng := { t.eng with phase := .wn0 } }

/-- While strides remain, `WR0` goes on to the next one. -/
theorem StridesDone.runsTo_atStride (h : StridesDone s c n t) (hn : n < c.n.toNat / s.cfg.nu) :
    RunsTo (engTurns 1) t (atStride t) := by
  have hleft : ¬t.eng.i = strides t := by
    rw [strides, h.stride, h.length, h.cfg]
    exact hn.ne
  exact .eng ((engStep_wr0 h.moving h.phase).trans (by rw [if_neg hleft]; rfl))

theorem StridesDone.unitReady (hw : WriteReady s c) (h : StridesDone s c n t) (hn : n < c.n.toNat / s.cfg.nu) :
    UnitReady (atStride t) := by
  have hle := stride_le hn
  have hhi := hw.high
  refine unitReady_of (h.cfg ▸ hw.valid) nofun rfl (StridesDone.clean (t := t) hw h) ?_ ?_ ?_ <;>
    simp only [atStride, h.address, h.cfg, h.stride]
  · exact hw.aligned
  · exact hw.low
  · omega

/-- The unit of the next stride. -/
theorem StridesDone.unitStart (hw : WriteReady s c) (h : StridesDone s c n t) :
    unitStart (atStride t) = c.a.toNat - s.cfg.origin + n * s.cfg.nu := by
  simp only [Machine.unitStart, atStride, h.address, h.cfg, h.stride]
  exact Nat.sub_add_comm hw.low

/-- Its payload. -/
theorem StridesDone.unitBytes (hw : WriteReady s c) (h : StridesDone s c n t) (hn : n < c.n.toNat / s.cfg.nu) :
    unitBytes s.cfg (unitPayload (atStride t)) = (c.pay.drop (n * s.cfg.nu)).take s.cfg.nu := by
  have hcfg : (atStride t).cfg = s.cfg := h.cfg
  have hstride : (atStride t).eng.i = n := h.stride
  have hpay : (atStride t).eng.pay = c.pay := h.payload
  have hbytes := unitBytes_unitPayload (s := atStride t) (h.cfg ▸ hw.valid) (by
    rw [hcfg, hstride, hpay, hw.payload]
    exact stride_le hn)
  rwa [hcfg, hstride, hpay] at hbytes

/-- The array with the next stride's payload written. -/
theorem StridesDone.writeBytes_next (hw : WriteReady s c) (h : StridesDone s c n t) (hn : n * s.cfg.nu ≤ c.n.toNat) :
    Memory.writeBytes t.regs.arr (c.a.toNat - s.cfg.origin + n * s.cfg.nu)
        ((c.pay.drop (n * s.cfg.nu)).take s.cfg.nu) =
      Memory.writeBytes s.regs.arr (c.a.toNat - s.cfg.origin) (c.pay.take ((n + 1) * s.cfg.nu)) := by
  have hlen : (c.pay.take (n * s.cfg.nu)).length = n * s.cfg.nu := by
    rw [List.length_take, hw.payload]
    exact Nat.min_eq_left hn
  rw [Nat.succ_mul, List.take_add, writeBytes_append, hlen, h.regs]

/-- The next unit is erased where the array was erased in the beginning. -/
theorem StridesDone.unitErased_next (hw : WriteReady s c) (h : StridesDone s c n t) (hn : n * s.cfg.nu ≤ c.n.toNat) :
    unitErased s.cfg t.regs.arr (c.a.toNat - s.cfg.origin + n * s.cfg.nu) =
      unitErased s.cfg s.regs.arr (c.a.toNat - s.cfg.origin + n * s.cfg.nu) := by
  have hread : Memory.readBytes t.regs.arr (c.a.toNat - s.cfg.origin + n * s.cfg.nu) s.cfg.nu =
      Memory.readBytes s.regs.arr (c.a.toNat - s.cfg.origin + n * s.cfg.nu) s.cfg.nu :=
    readBytes_congr fun m _ => h.read_outside hw hn (by omega)
  rw [unitErased, unitErased, hread]

/-- The registers the next stride leaves on an unprotected erased unit. -/
theorem StridesDone.completed (hw : WriteReady s c) (h : StridesDone s c n t) (hn : n < c.n.toNat / s.cfg.nu)
    (hwp : (c.a.toNat - s.cfg.origin + n * s.cfg.nu) / s.cfg.pageSize ∉ s.cfg.wp)
    (he : ∀ m < s.cfg.nu, Memory.read s.regs.arr (c.a.toNat - s.cfg.origin + n * s.cfg.nu + m) = 0xFF#8) :
    unitCompleted (atStride t) = { s.regs with
      wbase := c.a.toNat - s.cfg.origin + n * s.cfg.nu, wbuf := unitPayload (atStride t)
      arr := Memory.writeBytes s.regs.arr (c.a.toNat - s.cfg.origin) (c.pay.take ((n + 1) * s.cfg.nu)) } := by
  have hle : n * s.cfg.nu ≤ c.n.toNat := (Nat.le_add_right ..).trans (stride_le hn)
  have hcfg : (atStride t).cfg = s.cfg := h.cfg
  have hregs : (atStride t).regs = _ := h.regs
  have hr := unitCompleted_erased (s := atStride t) (StridesDone.clean (t := t) hw h)
    (by rwa [h.unitStart hw, hcfg])
    (by rw [h.unitStart hw, hcfg]; exact (h.unitErased_next hw hle).trans ((unitErased_iff ..).2 he))
  rw [hcfg, h.unitBytes hw hn, h.unitStart hw] at hr
  have harr : Memory.writeBytes (atStride t).regs.arr _ _ = _ := StridesDone.writeBytes_next (t := t) hw h hle
  rw [hr, harr, hregs]

/-- A stride on an unprotected erased unit succeeds. -/
theorem StridesDone.next (hw : WriteReady s c) (h : StridesDone s c n t) (hn : n < c.n.toNat / s.cfg.nu)
    (hwp : (c.a.toNat - s.cfg.origin + n * s.cfg.nu) / s.cfg.pageSize ∉ s.cfg.wp)
    (he : ∀ m < s.cfg.nu, Memory.read s.regs.arr (c.a.toNat - s.cfg.origin + n * s.cfg.nu + m) = 0xFF#8)
    (hk : Affordable s.cfg k) : ∃ t', RunsTo (strideTurns s.cfg k) t t' ∧ StridesDone s c (n + 1) t' := by
  have hcfg : (atStride t).cfg = s.cfg := h.cfg
  have hbuf : (atStride t).regs.wbuf.length = unitWords (atStride t).cfg := hcfg ▸ h.buffer
  have hr := h.completed hw hn hwp he
  have hok : residual (unitCompleted (atStride t)) = .ok := by
    rw [hr]
    exact residual_clean hw.clean.not_busy hw.clean.no_progErr hw.clean.no_wrpErr
  have hrun := runsTo_unit (h.unitReady hw hn) (StridesDone.unlocked (t := t) hw h) hbuf (hcfg ▸ hk)
  rw [hok, finishWrite_ok, if_pos (show (unitChecked k _ (drawn (atStride t))).eng.op = _ from h.op), hcfg, hr] at hrun
  refine ⟨_, (h.runsTo_atStride hn).append hrun, ?_⟩
  exact
    { moving := nofun
      phase := rfl
      op := h.op
      address := h.address
      length := h.length
      payload := h.payload
      guard := h.guard
      stride := congrArg (· + 1) h.stride
      cfg := h.cfg
      cmds := h.cmds
      buffer := (length_unitPayload _).trans (congrArg unitWords hcfg)
      regs := rfl }

/-- Strides on unprotected erased units succeed, one after the other. -/
theorem StridesDone.run {ks : List Nat} (hw : WriteReady s c) (h : StridesDone s c n t)
    (hn : n + ks.length ≤ c.n.toNat / s.cfg.nu)
    (he : ∀ m < (n + ks.length) * s.cfg.nu, (c.a.toNat - s.cfg.origin + m) / s.cfg.pageSize ∉ s.cfg.wp ∧
      Memory.read s.regs.arr (c.a.toNat - s.cfg.origin + m) = 0xFF#8)
    (hk : ∀ k ∈ ks, Affordable s.cfg k) :
    ∃ t', RunsTo (ks.flatMap (strideTurns s.cfg)) t t' ∧ StridesDone s c (n + ks.length) t' := by
  induction ks generalizing n t with
  | nil => exact ⟨t, .refl t, h⟩
  | cons k ks ih =>
    have hcount : n + (k :: ks).length = n + 1 + ks.length := by rw [List.length_cons]; omega
    rw [hcount] at hn he ⊢
    have hin : n * s.cfg.nu + s.cfg.nu ≤ (n + 1 + ks.length) * s.cfg.nu := by
      rw [← Nat.succ_mul]
      exact Nat.mul_le_mul_right _ (Nat.le_add_right ..)
    have hpos := hw.valid.nu_pos
    obtain ⟨t₁, hrun₁, h₁⟩ := h.next (k := k) hw (by omega) (he (n * s.cfg.nu) (by omega)).1
      (fun m hm => by rw [Nat.add_assoc]; exact (he (n * s.cfg.nu + m) (by omega)).2) (hk k List.mem_cons_self)
    obtain ⟨t₂, hrun₂, h₂⟩ := ih h₁ hn he fun q hq => hk q (List.mem_cons_of_mem _ hq)
    exact ⟨t₂, hrun₁.append hrun₂, h₂⟩

/-- A WRITE over an unprotected erased range does all its strides and answers Ok (44_buffered_access R192). -/
theorem runsTo_write {ks : List Nat} (hw : WriteReady s c) (hks : ks.length = c.n.toNat / s.cfg.nu)
    (he : ∀ m < c.n.toNat, (c.a.toNat - s.cfg.origin + m) / s.cfg.pageSize ∉ s.cfg.wp ∧
      Memory.read s.regs.arr (c.a.toNat - s.cfg.origin + m) = 0xFF#8)
    (hk : ∀ k ∈ ks, Affordable s.cfg k) :
    ∃ t, StridesDone s c ks.length t ∧
      RunsTo (writeTurns s.cfg ks) (accepted writeOpcode .wr0 c s) (respond .ok { t with reply := .none }) := by
  have hlen : ks.length * s.cfg.nu = c.n.toNat := by
    rw [hks]
    exact Nat.div_mul_cancel (Nat.dvd_of_mod_eq_zero hw.length)
  obtain ⟨t, hrun, h⟩ := (stridesDone_accepted hw).run (ks := ks) hw (by omega)
    (by rwa [Nat.zero_add, hlen]) hk
  rw [Nat.zero_add] at h
  have hend : t.eng.i = strides t := by rw [strides, h.stride, h.length, h.cfg, hks]
  exact ⟨t, h, hrun.append (.eng ((engStep_wr0 h.moving h.phase).trans (by rw [if_pos hend])))⟩

end Strides

end Sys2Proof.Machine

/-! PROOF. WRITE from acceptance to answer, the ways a write fails, and the round trip of WRITE and READ
(spec 44_buffered_access, 43_native_access R165 to R171, 95_test_vectors S4). -/

namespace Sys2Proof.Machine

/-! ### A unit that cannot be programmed -/

section Failure

variable {s : State}

/-- How a unit that is write-barred or not erased ends (43_native_access R165, R169; D17, D18). -/
structure UnitFailed (s : State) : Prop where
  error : residual (unitCompleted s) = .err .programmingError
  regs : unitCompleted s = { s.regs with
    progErr := (unitCompleted s).progErr, wrpErr := (unitCompleted s).wrpErr, arr := (unitCompleted s).arr
    wbase := unitStart s, wbuf := (unitCompleted s).wbuf }
  barred : pageOf s.cfg (unitStart s) ∈ s.cfg.wp →
    (unitCompleted s).wrpErr = true ∧ (unitCompleted s).progErr = false ∧ (unitCompleted s).arr = s.regs.arr
  dirty : pageOf s.cfg (unitStart s) ∉ s.cfg.wp →
    (unitCompleted s).wrpErr = false ∧ (unitCompleted s).progErr = true

theorem unitFailed_of (hc : CleanRegs s.regs)
    (hfail : pageOf s.cfg (unitStart s) ∈ s.cfg.wp ∨
      ∃ m < s.cfg.nu, Memory.read s.regs.arr (unitStart s + m) ≠ 0xFF#8) : UnitFailed s := by
  by_cases hwp : pageOf s.cfg (unitStart s) ∈ s.cfg.wp
  · have hr := unitCompleted_barred hc hwp
    constructor
    · rw [hr]; simp [residual]
    · rw [hr]
    · rw [hr]; exact fun _ => ⟨rfl, hc.no_progErr, rfl⟩
    · exact fun hno => absurd hwp hno
  · have hr := unitCompleted_dirty hc hwp (unitErased_eq_false.2 (hfail.resolve_left hwp))
    constructor
    · rw [hr]; simp [residual]
    · rw [hr]
    · exact fun hin => absurd hin hwp
    · rw [hr]; exact fun _ => ⟨hc.no_wrpErr, rfl⟩

/-- However a unit ends, no byte outside it changes. -/
theorem read_unitCompleted_outside (hv : s.cfg.Valid) (hwf : Memory.wf s.regs.arr = true) {m : Nat}
    (hm : ¬(unitStart s ≤ m ∧ m < unitStart s + s.cfg.nu)) :
    Memory.read (unitCompleted s).arr m = Memory.read s.regs.arr m :=
  read_complete_prog_outside (r := unitProgramming s) hv hwf hm

end Failure

/-- The premises under which the statements present WRITE. -/
theorem writeReady_of {s : State} {c : CmdArgs} (hv : s.cfg.Valid) (hregs : RegsInv s.cfg s.regs) (hce : s.CleanEntry)
    (hl : s.regs.lock = false) (ha : c.a.toNat % s.cfg.nu = 0) (hn : c.n.toNat % s.cfg.nu = 0)
    (hlo : s.cfg.origin ≤ c.a.toNat) (hhi : c.a.toNat + c.n.toNat ≤ s.cfg.origin + s.cfg.flashBytes)
    (hlen : c.pay.length = c.n.toNat) : WriteReady s c :=
  ⟨hv, hregs, hce.toQuietEntry.clean, hl, ha, hn, hlo, hhi, hlen⟩

section Stride

variable {s t : State} {c : CmdArgs} {n : Nat}

/-- The strides of the whole range. -/
theorem WriteReady.strides_mul (hw : WriteReady s c) : c.n.toNat / s.cfg.nu * s.cfg.nu = c.n.toNat :=
  Nat.div_mul_cancel (Nat.dvd_of_mod_eq_zero hw.length)

/-- The array after all strides holds the payload. -/
theorem StridesDone.regs_whole (hw : WriteReady s c) (h : StridesDone s c n t) (hn : n = c.n.toNat / s.cfg.nu) :
    t.regs = { s.regs with
      wbase := t.regs.wbase, wbuf := t.regs.wbuf
      arr := Memory.writeBytes s.regs.arr (c.a.toNat - s.cfg.origin) c.pay } := by
  have htake : c.pay.take (n * s.cfg.nu) = c.pay := by
    rw [hn, hw.strides_mul]
    exact List.take_of_length_le hw.payload.le
  conv_lhs => rw [h.regs, htake]

/-- The registers with the next stride's payload in flight. -/
theorem StridesDone.programming (hw : WriteReady s c) (h : StridesDone s c n t) :
    unitProgramming (atStride t) = { s.regs with
      pg := true, bsy := true
      inflight := some (.prog (c.a.toNat - s.cfg.origin + n * s.cfg.nu) (unitPayload (atStride t)))
      arr := t.regs.arr
      wbase := c.a.toNat - s.cfg.origin + n * s.cfg.nu, wbuf := unitPayload (atStride t) } := by
  have hregs : (atStride t).regs = _ := h.regs
  have harr := congrArg Regs.arr h.regs
  rw [unitProgramming, h.unitStart hw, harr, hregs, ← hw.clean.buffer_empty]

/-- A stride on a unit that cannot be programmed ends the command with its error (44_buffered_access R192). -/
theorem StridesDone.runsTo_failure {k : Nat} (hw : WriteReady s c) (h : StridesDone s c n t)
    (hn : n < c.n.toNat / s.cfg.nu) (hk : Affordable s.cfg k) (hf : UnitFailed (atStride t)) :
    RunsTo (strideTurns s.cfg k) t
      (respond (.err .programmingError) (setCarry (.err .programmingError)
        (unitChecked k (unitCompleted (atStride t)) (drawn (atStride t))))) := by
  have hcfg : (atStride t).cfg = s.cfg := h.cfg
  have hbuf : (atStride t).regs.wbuf.length = unitWords (atStride t).cfg := hcfg ▸ h.buffer
  have hrun := runsTo_unit (h.unitReady hw hn) (StridesDone.unlocked (t := t) hw h) hbuf (hcfg ▸ hk)
  rw [hf.error, finishWrite_error (r := .err .programmingError) nofun,
    if_pos (show (unitChecked k _ (drawn (atStride t))).eng.op = _ from h.op), hcfg] at hrun
  exact (h.runsTo_atStride hn).append hrun

/-- The next stride fails where its unit is write-barred or was not erased in the beginning. -/
theorem StridesDone.unitFailed (hw : WriteReady s c) (h : StridesDone s c n t) (hn : n < c.n.toNat / s.cfg.nu)
    (hfail : (c.a.toNat - s.cfg.origin + n * s.cfg.nu) / s.cfg.pageSize ∈ s.cfg.wp ∨
      ∃ m < s.cfg.nu, Memory.read s.regs.arr (c.a.toNat - s.cfg.origin + n * s.cfg.nu + m) ≠ 0xFF#8) :
    UnitFailed (atStride t) := by
  have hcfg : (atStride t).cfg = s.cfg := h.cfg
  have hle := stride_le hn
  refine unitFailed_of (StridesDone.clean (t := t) hw h) ?_
  rw [h.unitStart hw, hcfg]
  refine hfail.imp_right fun ⟨m, hm, hne⟩ => ⟨m, hm, fun heq => hne ?_⟩
  exact (h.read_outside hw (by omega) (by omega)).symm.trans heq

/-- The registers it leaves. -/
theorem StridesDone.failed_regs (hw : WriteReady s c) (h : StridesDone s c n t) (hf : UnitFailed (atStride t)) :
    unitCompleted (atStride t) = { s.regs with
      progErr := (unitCompleted (atStride t)).progErr, wrpErr := (unitCompleted (atStride t)).wrpErr
      arr := (unitCompleted (atStride t)).arr
      wbase := c.a.toNat - s.cfg.origin + n * s.cfg.nu, wbuf := (unitCompleted (atStride t)).wbuf } := by
  have hregs : (atStride t).regs = _ := h.regs
  have hr := hf.regs
  rwa [h.unitStart hw, hregs] at hr

/-- However the next stride ends, it changes no byte outside its unit. -/
theorem StridesDone.read_next_outside (hw : WriteReady s c) (h : StridesDone s c n t) {m : Nat}
    (hm : ¬(c.a.toNat - s.cfg.origin + n * s.cfg.nu ≤ m ∧
      m < c.a.toNat - s.cfg.origin + n * s.cfg.nu + s.cfg.nu)) :
    Memory.read (unitCompleted (atStride t)).arr m = Memory.read t.regs.arr m := by
  have hcfg : (atStride t).cfg = s.cfg := h.cfg
  exact read_unitCompleted_outside (s := atStride t) (hcfg ▸ hw.valid) (StridesDone.wf (t := t) hw h)
    (by rwa [h.unitStart hw, hcfg])

/-- A stride that spends the poll budget ends the command with a timeout (41_status R144). -/
theorem StridesDone.runsTo_timeout {b : Nat} (hw : WriteReady s c) (h : StridesDone s c n t)
    (hn : n < c.n.toNat / s.cfg.nu) (hb : s.cfg.pollBudget = some b) :
    RunsTo (engTurns (3 + unitWords s.cfg + b)) t
      (respond (.err .timeout) (setCarry (.err .timeout) (setPolls b
        (returned (srWord s.cfg (unitProgramming (atStride t))) (unitInFlight (atStride t)))))) := by
  have hcfg : (atStride t).cfg = s.cfg := h.cfg
  have hbuf : (atStride t).regs.wbuf.length = unitWords (atStride t).cfg := hcfg ▸ h.buffer
  have hturns : engTurns (3 + unitWords s.cfg + b) = engTurns 1 ++ engTurns (2 + unitWords s.cfg + b) := by
    rw [← engTurns_add]
    exact congrArg _ (by omega)
  have hrun := runsTo_unit_timeout (h.unitReady hw hn) (StridesDone.unlocked (t := t) hw h) hbuf (hcfg ▸ hb)
  rw [finishWrite_error (r := .err .timeout) nofun,
    if_pos (show (setPolls b (returned _ (unitInFlight (atStride t)))).eng.op = _ from h.op), hcfg] at hrun
  rw [hturns]
  exact (h.runsTo_atStride hn).append hrun

end Stride

/-- A range that holds the bytes of a list reads as that list. -/
theorem readBytes_eq {m : Memory} {o : Nat} {bs : List Byte}
    (h : ∀ k < bs.length, Memory.read m (o + k) = bs.getD k 0#8) : Memory.readBytes m o bs.length = bs := by
  refine List.ext_getElem (by simp [Memory.readBytes]) fun k hk hk' => ?_
  simp only [Memory.readBytes, List.getElem_map, List.getElem_range]
  rw [h k hk', List.getD_eq_getElem _ _ hk']

/-- Settles O43: the strides, one after the other, and the step that answers. -/
theorem writeProgramsTheRange : Obligations.WriteProgramsTheRange := by
  rintro s c b ks o rest hv hregs hce hl hg ha hn hlo hhi hlen rfl he hks hk
  have hw := writeReady_of hv hregs hce hl ha hn hlo hhi hlen
  obtain ⟨t, h, hrun⟩ := runsTo_write hw hks he hk
  have hall : ks.length * s.cfg.nu = c.n.toNat := hks ▸ hw.strides_mul
  have hrange := h.regs_whole hw hks
  have hin := fun m hm => h.read_inside hw hall.le (m := m) hm
  have hout := fun m hm => h.read_outside hw hall.le (m := m) hm
  rw [hall] at hin hout
  have hchecks := (writeChecks_iff (isHeld_eq_true.2 ⟨b, hg⟩)).2 ⟨ha, hn, hlo, hhi, hlen⟩
  exact ⟨present_accepted hce.idle hchecks, _, hrun.run rfl rest, rfl, rfl, h.guard.trans hg, h.cfg, h.cmds, rfl,
    hrange, hin, hout⟩

/-- READ in IDLE with its checks satisfied is accepted. -/
theorem execRead_accepted {s : State} {c : CmdArgs} (hp : s.eng.phase = .idle)
    (hc : (addressAligned s.cfg c.a && lengthAligned s.cfg c.n && inFlash s.cfg c.a c.n.toNat) = true) :
    exec (.read c) s = .next (accepted 0x07#8 .rd0 c s) := present_accepted hp hc

/-- Settles O44: the run of O43, then the run of READ over the array it leaves. -/
theorem writeThenReadReturnsTheBytes : Obligations.WriteThenReadReturnsTheBytes := by
  rintro s c d b ks o rest hv hregs hce hl hg ha hn hlo hhi hlen rfl he hks hk hda hdn
  have hw := writeReady_of hv hregs hce hl ha hn hlo hhi hlen
  obtain ⟨t, h, hrun⟩ := runsTo_write hw hks he hk
  have hall : ks.length * s.cfg.nu = c.n.toNat := hks ▸ hw.strides_mul
  have hchecks : (addressAligned t.cfg d.a && lengthAligned t.cfg d.n && inFlash t.cfg d.a d.n.toNat) = true := by
    rw [h.cfg, hda, hdn]
    simp [addressAligned, lengthAligned, inFlash, ha, hn, hlo, hhi]
  have hreading := accepted_readingRange (s := respond .ok { t with reply := .none }) (c := d) (h.cfg ▸ hv) hchecks
  have hread := runSteps_read rest hreading (.inl (h.clean hw).not_busy)
  have hout : Memory.readBytes t.regs.arr (d.a.toNat - t.cfg.origin) d.n.toNat = c.pay := by
    rw [hda, hdn, h.cfg, ← hlen]
    exact readBytes_eq fun m hm => h.read_inside hw hall.le (by rwa [hall, ← hlen])
  rw [rangeAnswered_accepted hreading] at hread
  have hwrite := hrun.run rfl (engTurns (d.n.toNat / 4 + 1) ++ rest)
  rw [← List.append_assoc] at hwrite
  rw [← hdn]
  exact ⟨_, _, hwrite, rfl, execRead_accepted rfl hchecks, _, hread, rfl, rfl, hout, rfl⟩

/-- Settles O41: a unit that is write-barred or not erased is the last one, and so is one whose poll budget is spent. -/
theorem writesReportFailure : Obligations.WritesReportFailure := by
  rintro s c b k o rest hv hregs hce hl hg ha hlo rfl
  have hc := hce.toQuietEntry.clean
  refine ⟨fun hhi hlen hk hfail => ?_, fun ks u hn hhi hlen hu hlt he hks => ?_⟩
  · have hstart := unitStart_accepted (s := s) (op := 0x06#8) c
    have hready := unitReady_accepted (op := 0x06#8) (c := c) hv hc ha hlo hhi
    have hf := unitFailed_of (s := accepted 0x06#8 .wn0 c s) hc (by rw [hstart]; exact hfail)
    have hrun := (runsTo_native hready native_op hl hregs.wbuf_words hk).run (length_fopAfter ..) rest
    rw [hf.error] at hrun
    have hout := fun m => read_unitCompleted_outside (s := accepted 0x06#8 .wn0 c s) (m := m) hv hregs.arr_wf
    have hr := hf.regs
    have hbar := hf.barred
    have hdirty := hf.dirty
    rw [hstart] at hr hbar hdirty hout
    exact ⟨_, hrun, rfl, rfl, hg, hr, hbar, fun hno => ⟨(hdirty hno).1, (hdirty hno).2, hout⟩⟩
  · subst hu
    have hw := writeReady_of hv hregs hce hl ha hn hlo hhi hlen
    obtain ⟨t, hstrides, h⟩ := (stridesDone_accepted hw).run hw (by omega) (by rwa [Nat.zero_add]) hks
    rw [Nat.zero_add] at h
    have hle := stride_le hlt
    have hin := fun m hm => h.read_inside hw (by omega) (m := m) hm
    have hout := fun m hm => h.read_outside hw (by omega) (m := m) hm
    refine ⟨fun hk hfail => ?_, fun budget hbud => ?_⟩
    · have hf := h.unitFailed hw hlt hfail
      have hbar := hf.barred
      have hdirty := hf.dirty
      rw [h.unitStart hw, show (atStride t).cfg = s.cfg from h.cfg] at hbar hdirty
      have hrun := (hstrides.append (h.runsTo_failure hw hlt hk hf)).run rfl rest
      refine ⟨_, hrun, rfl, rfl, h.guard.trans hg, rfl, h.failed_regs hw hf, fun m hm => ?_, fun m hm => ?_,
        fun hwp => ?_, hdirty⟩
      · exact (h.read_next_outside hw (by omega)).trans (hin m hm)
      · exact (h.read_next_outside hw (by omega)).trans (hout m (by omega))
      · obtain ⟨hwe, hpe, harr⟩ := hbar hwp
        refine ⟨hwe, hpe, fun m _ => (congrArg (Memory.read · _) harr).trans (hout _ (by omega))⟩
    · have hrun := (hstrides.append (h.runsTo_timeout hw hlt hbud)).run rfl rest
      exact ⟨_, hrun, rfl, rfl, h.guard.trans hg, rfl, h.programming hw, h.unitBytes hw hlt, hin,
        fun m hm => hout m (by omega)⟩

end Sys2Proof.Machine
